-- ==== Sys2Proof/Word.lean ====
section
/-! DEFINITION. The word types of SHKLZW: a byte, an LZW code, and the two small counters the spec gives
13 bits (R22, R23, R24, R117). -/

namespace Sys2Proof

/-- One byte of `IN`, `OUT`, `SCR`, `BLK`, `STK` or `TCH` (R64). -/
abbrev Byte := BitVec 8

/-- An LZW code zero-extended to 12 bits (R95), a slot of `TPR` (R48), and `old` (R23). -/
abbrev Code := BitVec 12

/-- The 13-bit counters: `entry` (R22), `out_n` (R26), `rle_in`, `rle_out` (R31), `sp` (R32),
`write_len` (R30). -/
abbrev Count := BitVec 13

/-- A byte address of `IN` and the 32-bit lengths (R34, R30, R8). -/
abbrev Addr := BitVec 32

end Sys2Proof
end

