-- ==== Sys2Proof/Config.lean ====
section
/-! DEFINITION. What is fixed for the machine: the format's parameters (R7, R8), the two read-only tables
(R52), and the free values for what the spec calls `undef` (R21, R258). -/

namespace Sys2Proof.Config

/-- `BLOCK` (R7): bytes in one logical block. -/
def block : Nat := 4096

/-- `CLEAR` (R7): the clear code of LZW/2. -/
def clearCode : Nat := 0x0100

/-- `FIRST` (R7): the first assignable code, and the value of `entry` after a table reset (R255). -/
def firstCode : Nat := 0x0101

/-- `TABLE_CAP` (R7): slots in each trie array. -/
def tableCap : Nat := 3840

/-- The value of `entry` that means "table full" (R22, R174). -/
def tableFull : Nat := 0x1000

/-- `STACK_CAP` (R8). -/
def stackCap : Nat := 4096

/-- `SCRATCH_CAP` (R8). -/
def scratchCap : Nat := 4096

/-- `LZW2_HDR` (R7): the header bytes counted inside `lzw_length`. -/
def lzw2Hdr : Nat := 4

/-- `CRC_POLY` (R7, R135). -/
def crcPoly : BitVec 16 := 0x1021

/-- `CRC_INIT` (R7, R135). -/
def crcInit : BitVec 16 := 0x0000

/-- `WIDTH[0..16]` (R7, R52). -/
def widths : List Nat := [8, 9, 10, 10, 11, 11, 11, 11, 12, 12, 12, 12, 12, 12, 12, 12, 12]

/-- `MASK[0..16]` (R7, R52). -/
def masks : List Nat :=
  [0x0000, 0x01FF, 0x03FF, 0x03FF, 0x07FF, 0x07FF, 0x07FF, 0x07FF] ++
  [0x0FFF, 0x0FFF, 0x0FFF, 0x0FFF, 0x0FFF, 0x0FFF, 0x0FFF, 0x0FFF, 0x0FFF]

/-- The scalar registers that some operation of the spec makes `undef` (R252, R161, R162, R193, R194), and the
two temporaries the model keeps as registers (`code`, `write_len`). -/
inductive UndefReg where
  | info | lastByte | old | finalByte | code | outN | blkIp0 | rleLen | lzwLength | lzwUsed | rleUsed
  | rleIn | rleOut | writeLen | escape | volume | hdrCrc
  deriving DecidableEq, Repr

/-- The register files whose slots START makes `undef` (R252). -/
inductive SlotFile where
  | tch | tpr | stk | scr | blk
  deriving DecidableEq, Repr

/-- The content of a scalar register that the spec has made `undef`: a FREE VALUE (R258: "The model may give
`undef` state any value, or none"). It has no body, so nothing can be proved of it. The number is
`State.freeCount` when the register was made `undef`. Safe (log entry 2). -/
opaque undefReg (w : Nat) (r : UndefReg) (draw : Nat) : BitVec w

/-- What a read of an `undef` slot of a register file gives: a FREE VALUE, as `undefReg` (log entry 2). -/
opaque undefSlot (w : Nat) (f : SlotFile) (index draw : Nat) : BitVec w

end Sys2Proof.Config
end

