-- ==== Sys2Proof/Syntax.lean ====
section
/-! DEFINITION. The stream operations (R18, R105), one constructor for each row of spec/opcode_table.json, and the
positions of the stream that tell them apart (R105, R113). -/

namespace Sys2Proof

/-- The two stream formats (R2, R41). -/
inductive Variant where
  /-- LZW/1, register value 0. -/
  | lzw1
  /-- LZW/2, register value 1. -/
  | lzw2
  deriving DecidableEq, Repr

/-- The number the register `variant` holds (R41). -/
def Variant.bit : Variant → BitVec 1
  | .lzw1 => 0
  | .lzw2 => 1

/-- The stream operations. Operands are the fields of the element's encoding (R91 to R98). RAWBLK's 4096 payload
bytes and the literal that CLR consumes are read by the operation itself, as in R203 and R168. -/
inductive Instr where
  /-- LZW/1 thread header (R91, R191). -/
  | thdr1 (hdrCrc : BitVec 16) (volume escape : Byte)
  /-- LZW/2 thread header (R92, R192). -/
  | thdr2 (volume escape : Byte)
  /-- LZW/1 block header (R93, R193). -/
  | bhdr1 (rleLen : BitVec 16) (flag : Byte)
  /-- LZW/2 block header (R94, R194): the block word with its ignored bits, and `lzw_length` when bit 15 is set. -/
  | bhdr2 (word : BitVec 16) (lzwLength : Option (BitVec 16))
  /-- Raw block payload (R98, R203). -/
  | rawblk
  /-- First code of an invocation, or the code after CLR (R164): nine bits, so the value is below 0x200. -/
  | lit0 (code : Code)
  /-- Clear code, LZW/2 (R168). -/
  | clr
  /-- Code 0x0100 in LZW/1 (R167). -/
  | rsv
  /-- `code = entry` (R172). -/
  | kwk (code : Code)
  /-- `code > entry` (R170). -/
  | bad (code : Code)
  /-- `code ≤ 0x00FF` in the main loop (R165). -/
  | lit (byte : Byte)
  /-- `0x0101 ≤ code < entry` (R166). -/
  | ref (code : Code)
  /-- RLE literal (R96, R147). -/
  | rlit (u : Byte)
  /-- RLE run (R97, R148). -/
  | rrun (ch count : Byte)
  /-- Internal: cut one code out of `IN` (R122). -/
  | getcode
  /-- Internal: one byte into the CRC accumulator (R136). -/
  | crcbyte (b : Byte)
  /-- Internal: the whole block buffer into the CRC accumulator (R204). -/
  | crcblk
  /-- Internal: emit the block (R205). -/
  | emitblk
  /-- Internal: the CRC check at the end of an LZW/1 thread (R207). -/
  | verify
  deriving DecidableEq, Repr

/-- Where in the stream the decoder stands: what R105 and R113 say selects an operation beside the bits. -/
inductive Ctx where
  /-- `phase = THDR`. -/
  | thdr (v : Variant)
  /-- `phase = BHDR`. -/
  | bhdr (v : Variant)
  /-- A first code is due: the width is 9, since `entry = 0x0101` (R164). -/
  | first
  /-- The engine's main loop (R163), with the `entry` that gives the width and the code classes. -/
  | code (v : Variant) (entry : Count)
  /-- The RLE layer, with the thread's escape byte. -/
  | rle (escape : Byte)
  /-- The raw payload of a block. -/
  | raw
  /-- `phase = CRC`. -/
  | crc
  /-- `phase = EMIT`. -/
  | emit
  /-- `phase = VERIFY`. -/
  | verify
  deriving DecidableEq, Repr

end Sys2Proof
end

