-- ==== Sys2Proof/WellFormed.lean ====
section
/-! DEFINITION. Which operation, with which operands, can stand at which position of the stream (R99, R105). -/

namespace Sys2Proof

/-- The range `entry` keeps in a thread (R22, R59 item 1). -/
def entryInRange (entry : Count) : Bool :=
  Config.firstCode ≤ entry.toNat && entry.toNat ≤ Config.tableFull

/-- The value fits the width of a code read at this `entry`, by the table of R112. -/
def fitsWidth (entry : Count) (code : Nat) : Bool :=
  if entry.toNat ≤ 0x01FE then code < 2 ^ 9
  else if entry.toNat ≤ 0x03FE then code < 2 ^ 10
  else if entry.toNat ≤ 0x07FE then code < 2 ^ 11
  else code < 2 ^ 12

/-- The position is the main loop of `entry` in its range, in the variant `p` allows. -/
def inMainLoop (p : Variant → Count → Bool) : Ctx → Bool
  | .code v entry => entryInRange entry && p v entry
  | _ => false

/-- The operation, with these operands, is what can stand at this position (R99, R105). -/
def wellFormed (c : Ctx) : Instr → Bool
  | .thdr1 _ _ _ => c == .thdr .lzw1
  | .thdr2 _ _ => c == .thdr .lzw2
  | .bhdr1 _ _ => c == .bhdr .lzw1
  | .bhdr2 word len => c == .bhdr .lzw2 && len.isSome == word.getLsbD 15
  | .rawblk => c == .raw
  | .lit0 code => c == .first && code.toNat < 0x200
  | .clr => inMainLoop (fun v _ => v == .lzw2) c
  | .rsv => inMainLoop (fun v _ => v == .lzw1) c
  | .kwk code => inMainLoop (fun _ e => code.toNat == e.toNat) c
  | .bad code => inMainLoop (fun _ e => decide (e.toNat < code.toNat) && fitsWidth e code.toNat) c
  | .lit _ => inMainLoop (fun _ _ => true) c
  | .ref code => inMainLoop (fun _ e => decide (Config.firstCode ≤ code.toNat) && decide (code.toNat < e.toNat)) c
  | .rlit u => match c with
    | .rle escape => u != escape
    | _ => false
  | .rrun _ _ => match c with
    | .rle _ => true
    | _ => false
  | .getcode => false
  | .crcbyte _ => false
  | .crcblk => c == .crc
  | .emitblk => c == .emit
  | .verify => c == .verify

end Sys2Proof
end

