-- ==== Sys2Proof/Decode.lean ====
section
/-! DEFINITION. The decoder of stream elements, the encoder written from the same tables (R91 to R98), and
`decodeTableWord`. A stream is read as one string of bits in which bit `k` of the byte at offset `a` has position
`8 * a + k` (R61, R60): the decoder gets that string as a number whose bit 0 is the next unread bit, and how many
bits there are. -/

namespace Sys2Proof

/-- What the decoder answers. -/
inductive Decoded where
  /-- The operation, and how many bits of the stream it takes. -/
  | ok (i : Instr) (bits : Nat)
  /-- The stream ends inside the element. -/
  | short
  /-- Rejected: `entry` selects no width (R110: index 0 or above 16 of `WIDTH`). -/
  | noWidth
  deriving DecidableEq, Repr

/-- The index into `WIDTH` and `MASK` (R121). -/
def widthIndex (entry : Count) : Nat := (entry.toNat + 1) >>> 8

/-- The code width `WIDTH[(entry + 1) >> 8]` (R112, R121). Index 0 and indices above 16 cannot be selected (R110),
so they give no width. -/
def codeWidth (entry : Count) : Option Nat :=
  if widthIndex entry = 0 then none else Config.widths[widthIndex entry]?

/-- The code mask `MASK[(entry + 1) >> 8]` (R121). -/
def codeMask (entry : Count) : Option Nat :=
  if widthIndex entry = 0 then none else Config.masks[widthIndex entry]?

/-- `v[hi:lo]` (R11) as a number, for the `n` bits from bit `lo` up. -/
def field (v lo n : Nat) : Nat := (v >>> lo) % 2 ^ n

/-- The class of a main-loop code (R105, R163): CLR or RSV, then KWK, then BAD, then LIT or REF. -/
def classify (v : Variant) (entry : Count) (code : Code) : Instr :=
  if code.toNat = Config.clearCode then
    match v with
    | .lzw2 => .clr
    | .lzw1 => .rsv
  else if code.toNat = entry.toNat then .kwk code
  else if entry.toNat < code.toNat then .bad code
  else if code.toNat ≤ 0x00FF then .lit (code.setWidth 8)
  else .ref code

/-- An element of a fixed number of bits. -/
def fixedLength (avail n : Nat) (i : Instr) : Decoded :=
  if avail < n then .short else .ok i n

/-- Decode the element at the head of a bit string `w` of `avail` bits, at position `c`. -/
def decode (c : Ctx) (avail w : Nat) : Decoded :=
  match c with
  | .thdr .lzw1 =>
    fixedLength avail 32
      (.thdr1 (.ofNat 16 (field w 0 16)) (.ofNat 8 (field w 16 8)) (.ofNat 8 (field w 24 8)))
  | .thdr .lzw2 => fixedLength avail 16 (.thdr2 (.ofNat 8 (field w 0 8)) (.ofNat 8 (field w 8 8)))
  | .bhdr .lzw1 => fixedLength avail 24 (.bhdr1 (.ofNat 16 (field w 0 16)) (.ofNat 8 (field w 16 8)))
  | .bhdr .lzw2 =>
    if avail < 16 then .short
    else if field w 15 1 = 1 then
      fixedLength avail 32 (.bhdr2 (.ofNat 16 (field w 0 16)) (some (.ofNat 16 (field w 16 16))))
    else .ok (.bhdr2 (.ofNat 16 (field w 0 16)) none) 16
  | .first => fixedLength avail 9 (.lit0 (.ofNat 12 (field w 0 9)))
  | .code v entry =>
    match codeWidth entry with
    | none => .noWidth
    | some n => fixedLength avail n (classify v entry (.ofNat 12 (field w 0 n)))
  | .rle escape =>
    if avail < 8 then .short
    else if BitVec.ofNat 8 (field w 0 8) = escape then
      fixedLength avail 24 (.rrun (.ofNat 8 (field w 8 8)) (.ofNat 8 (field w 16 8)))
    else .ok (.rlit (.ofNat 8 (field w 0 8))) 8
  | .raw => .ok .rawblk 0
  | .crc => .ok .crcblk 0
  | .emit => .ok .emitblk 0
  | .verify => .ok .verify 0

/-- The number whose little-endian bytes are `f a, f (a + 1), …` (`n` of them): R60, R61. -/
def leBytes (f : Nat → Byte) (a : Nat) : Nat → Nat
  | 0 => 0
  | n + 1 => (f a).toNat + 2 ^ 8 * leBytes f (a + 1) n

/-- Bit-string concatenation: `lo` in the low `n` bits, `hi` above them. -/
def above (lo n hi : Nat) : Nat := lo + 2 ^ n * hi

/-- One code of the main loop at the width `entry` selects. -/
def encodeCode (c : Ctx) (value : Nat) : Nat × Nat :=
  match c with
  | .code _ entry => ((codeWidth entry).getD 0, value)
  | _ => (9, value)

/-- The encoding of an operation at position `c`: how many bits, and the bits as a number (bit 0 first in the
stream). RAWBLK and the internal operations have no bits of their own (R105). -/
def encode (c : Ctx) : Instr → Nat × Nat
  | .thdr1 crc volume escape => (32, above crc.toNat 16 (above volume.toNat 8 escape.toNat))
  | .thdr2 volume escape => (16, above volume.toNat 8 escape.toNat)
  | .bhdr1 rleLen flag => (24, above rleLen.toNat 16 flag.toNat)
  | .bhdr2 word none => (16, word.toNat)
  | .bhdr2 word (some len) => (32, above word.toNat 16 len.toNat)
  | .rawblk => (0, 0)
  | .lit0 code => (9, code.toNat)
  | .clr => encodeCode c Config.clearCode
  | .rsv => encodeCode c Config.clearCode
  | .kwk code => encodeCode c code.toNat
  | .bad code => encodeCode c code.toNat
  | .lit byte => encodeCode c byte.toNat
  | .ref code => encodeCode c code.toNat
  | .rlit u => (8, u.toNat)
  | .rrun ch count =>
    match c with
    | .rle escape => (24, above escape.toNat 8 (above ch.toNat 8 count.toNat))
    | _ => (24, above 0 8 (above ch.toNat 8 count.toNat))
  | .getcode => (0, 0)
  | .crcbyte _ => (0, 0)
  | .crcblk => (0, 0)
  | .emitblk => (0, 0)
  | .verify => (0, 0)

/-- The value of `entry` at which a table word is read as a main-loop code: the first at which codes have the
table's 12 bits (R112). Log entry 14. -/
def tableEntry : Count := 0x07FF

/-- The position at which a word of the opcode table is read. The stream has no opcode bits (R105), so the number of
bits stands for the position: 32 an LZW/1 thread header, 24 an LZW/1 block header, 16 a main-loop code of LZW/2,
8 an RLE token whose escape byte is another byte. Log entry 14. -/
def tableCtx (nbits w : Nat) : Option Ctx :=
  if nbits = 32 then some (.thdr .lzw1)
  else if nbits = 24 then some (.bhdr .lzw1)
  else if nbits = 16 then some (.code .lzw2 tableEntry)
  else if nbits = 8 then some (.rle (~~~ BitVec.ofNat 8 w))
  else none

/-- The operation the decoder reads from the table's word of `nbits` bits (log entry 14). -/
def decodeTableWord (nbits w : Nat) : Option Instr :=
  match tableCtx nbits w with
  | none => none
  | some c =>
    match decode c 64 (w % 2 ^ nbits) with
    | .ok i _ => some i
    | .short => none
    | .noWidth => none

end Sys2Proof
end

