-- ==== Sys2Proof/Machine/State.lean ====
section
/-! DEFINITION. The state of SHKLZW as plain data, the reasons a step can stop, and the state after reset. -/

namespace Sys2Proof.Machine

/-- Byte-addressed contents of the input space `IN` (R53): strictly rising addresses, no entry equal to what an
unlisted address reads as (`memUnlisted`, 0x00; log entry 10). -/
abbrev Memory := List Host.Cell

/-- A register file (R47 to R51): the slots that have been written, strictly rising indices. A slot that is not
listed is `undef` (R21) and reads as a free value (log entry 2). -/
abbrev Slots (w : Nat) := List (Nat × BitVec w)

/-- `phase`, the sequencer's control state (R45). -/
inductive Phase where
  | idle | thdr | bhdr | payload | crc | emit | verify | done | fault
  deriving DecidableEq, Repr

/-- Where in PAYLOAD the pseudocode of R210 stands: the model's own control state (log entry 5). -/
inductive Stage where
  /-- The path is not chosen yet (R196). -/
  | choose
  /-- An engine invocation whose `first` is true: step 1 is due (R163). -/
  | lzw0
  /-- An engine invocation in its main loop (R163). -/
  | lzw
  /-- The RLE expander (R146). -/
  | rle
  deriving DecidableEq, Repr

/-- `status` (R46). -/
inductive Status where
  | idle | busy | done | fault
  deriving DecidableEq, Repr

/-- The arguments of START (R252). -/
structure StartArgs where
  variant : Variant
  /-- `USIZE`. -/
  usize   : Addr
  /-- `IN_LEN`. -/
  inLen   : Addr
  /-- The contents of `IN`. -/
  input   : Memory
  deriving DecidableEq, Repr

/-- What the host does before one step (R55, R190, R252): nothing, START, or a hardware reset. -/
inductive HostEvent where
  | wait
  | start (a : StartArgs)
  | hardReset
  deriving DecidableEq, Repr

/-- Everything the spec gives the machine (R20), and the model's own fields `stage`, `code`, `writeLen`, `inputs`,
`freeCount` (log entries 5, 6, 8, 2). -/
structure State where
  /-- `phase` (R45). -/
  phase           : Phase
  /-- The model's place inside PAYLOAD (log entry 5). -/
  stage           : Stage
  /-- `cause` (R46, R220): 0 when no fault. -/
  cause           : BitVec 4
  /-- `info` (R46). -/
  info            : BitVec 32
  /-- `variant` (R41). -/
  variant         : Variant
  /-- `USIZE` (R8, R252). -/
  usize           : Addr
  /-- `IN_LEN` (R8, R252). -/
  inLen           : Addr
  /-- `IN` (R53). -/
  input           : Memory
  /-- `ip` (R34). -/
  ip              : Addr
  /-- `start_bit` (R34). -/
  startBit        : BitVec 3
  /-- `last_byte` (R56). -/
  lastByte        : Byte
  /-- `entry` (R22). -/
  entry           : Count
  /-- `old` (R23). -/
  old             : Code
  /-- `final` (R24). -/
  finalByte       : Byte
  /-- `code`, the spec's name for D0's `in` (R25): the code GETCODE read last (log entry 6). -/
  code            : Code
  /-- `resetFix` (R37). -/
  resetFix        : Bool
  /-- `need_clear` (R38): true only inside CLR (log entry 7). -/
  needClear       : Bool
  /-- `out_n` (R26). -/
  outN            : Count
  /-- `blk_ip0` (R27). -/
  blkIp0          : Addr
  /-- `rle_len` (R28), and `expected_len` (R26), which equals it. -/
  rleLen          : BitVec 16
  /-- `lzw_length` (R29). -/
  lzwLength       : BitVec 16
  /-- `lzw_used` (R39). -/
  lzwUsed         : Bool
  /-- `rle_used` (R39). -/
  rleUsed         : Bool
  /-- `rle_in` (R31). -/
  rleIn           : Count
  /-- `rle_out` (R31). -/
  rleOut          : Count
  /-- `uncomp_remaining` (R30). -/
  uncompRemaining : Addr
  /-- `write_len` (R30), kept from the block header to EMITBLK. -/
  writeLen        : Count
  /-- `sp` (R32). -/
  sp              : Count
  /-- `crc_acc` (R33). -/
  crcAcc          : BitVec 16
  /-- `escape` (R42). -/
  escape          : Byte
  /-- `volume` (R43). -/
  volume          : Byte
  /-- `hdr_crc` (R44). -/
  hdrCrc          : BitVec 16
  /-- `TCH` (R47). -/
  tch             : Slots 8
  /-- `TPR` (R48). -/
  tpr             : Slots 12
  /-- `STK` (R49). -/
  stk             : Slots 8
  /-- `SCR` (R50). -/
  scr             : Slots 8
  /-- `BLK` (R51). -/
  blk             : Slots 8
  /-- `OUT` (R54), in the order the bytes were emitted. -/
  out             : List Byte
  /-- What the host does before each of the coming steps (R55; log entry 8). -/
  inputs          : List HostEvent
  /-- How many times free values have been drawn (the model's own; log entry 2). -/
  freeCount       : Nat
  deriving DecidableEq, Repr

/-- The machine right after hardware reset (R250, R58): `phase = IDLE`, `cause = 0`, `sp = 0`, `need_clear = 0`, `OUT`
empty, all slots `undef`. The registers the spec leaves `undef` are given zero (DESIGN CHOICE, log entry 1). -/
def State.reset : State where
  phase := .idle
  stage := .choose
  cause := 0
  info := 0
  variant := .lzw1
  usize := 0
  inLen := 0
  input := []
  ip := 0
  startBit := 0
  lastByte := 0
  entry := 0
  old := 0
  finalByte := 0
  code := 0
  resetFix := false
  needClear := false
  outN := 0
  blkIp0 := 0
  rleLen := 0
  lzwLength := 0
  lzwUsed := false
  rleUsed := false
  rleIn := 0
  rleOut := 0
  uncompRemaining := 0
  writeLen := 0
  sp := 0
  crcAcc := 0
  escape := 0
  volume := 0
  hdrCrc := 0
  tch := []
  tpr := []
  stk := []
  scr := []
  blk := []
  out := []
  inputs := []
  freeCount := 0

/-- Why the model stops where no rule of the spec gives the machine a next state. A fault OF THE STREAM is none of
these: it is a next state with `phase = FAULT` (R238). -/
inductive Fault where
  /-- Raised by `walkEmit` and by KWK's push when the work stack would pass `STACK_CAP`. Safe: R178 shows that no
  thread gets there, and no rule says what a 4097th push does. -/
  | stackExhausted
  /-- Raised by `emitByte`, `record`, RLIT and RRUN for a slot the register file does not have (R47 to R51). Safe: R59
  shows that no thread gets there. -/
  | slotOutOfRange
  deriving DecidableEq, Repr

/-- Why the model gives no meaning. -/
inductive Refusal where
  /-- An instruction whose meaning has not been written: `exec`'s arm says so. Safe. -/
  | notModelled (mnemonic : String)
  /-- The host issues START while `status` is BUSY: "not defined" (R264), to be refused (93 U8). Safe. -/
  | startWhileBusy
  /-- GETCODE with an index of `WIDTH` that cannot be selected, 0 or above 16 (R110), to be refused (93 U2). Safe. -/
  | widthIndexOutOfTable
  deriving DecidableEq, Repr

/-- `status`, derived from `phase` (R46). -/
def State.status (s : State) : Status :=
  match s.phase with
  | .idle => .idle
  | .done => .done
  | .fault => .fault
  | .thdr | .bhdr | .payload | .crc | .emit | .verify => .busy

end Sys2Proof.Machine
end

