-- ==== Sys2Proof/Machine/Ops.lean ====
section
/-! DEFINITION. The named operations over memory and registers, raising a fault of the stream (R238), and START, the
only way a thread begins and, with hardware reset, the only way out of FAULT (R242). -/

namespace Sys2Proof.Machine

/-! ### The input space -/

/-- What an address of `IN` that the memory does not list reads as: 0x00 (DESIGN CHOICE, log entry 10). -/
def memUnlisted : Byte := 0x00

/-- Every address is at least `lo`, addresses rise strictly, and no entry equals `memUnlisted`. -/
def Memory.risesFrom : Nat → Memory → Bool
  | _, [] => true
  | lo, (a, b) :: rest => decide (lo ≤ a) && (b != memUnlisted) && Memory.risesFrom (a + 1) rest

/-- The canonical form of a memory. -/
def Memory.wf (m : Memory) : Bool := Memory.risesFrom 0 m

/-- Every listed address lies below `n`. -/
def Memory.below (n : Nat) (m : Memory) : Bool := m.all fun c => decide (c.1 < n)

/-- The byte at an address of `IN`. -/
def memRead (m : Memory) (a : Nat) : Byte :=
  match m with
  | [] => memUnlisted
  | (k, b) :: rest => if k = a then b else memRead rest a

/-- Put a byte at an address of `IN`. The machine never does (R13, R81): the host does before START (R259). -/
def memWrite (m : Memory) (a : Nat) (b : Byte) : Memory :=
  match m with
  | [] => if b = memUnlisted then [] else [(a, b)]
  | (k, v) :: rest =>
    if a < k then (if b = memUnlisted then (k, v) :: rest else (a, b) :: (k, v) :: rest)
    else if a = k then (if b = memUnlisted then rest else (a, b) :: rest)
    else (k, v) :: memWrite rest a b

/-- The bytes of a list at rising addresses from `a`. -/
def memLoad (m : Memory) (a : Nat) : List Byte → Memory
  | [] => m
  | b :: rest => memLoad (memWrite m a b) (a + 1) rest

/-- The contents of `IN` that hold these bytes from address 0 (R53). -/
def memOfBytes (bytes : List Byte) : Memory := memLoad [] 0 bytes

/-! ### Register files -/

/-- Indices are at least `lo`, rise strictly, and lie below `cap`. -/
def slotsRise (cap : Nat) : Nat → Slots w → Bool
  | _, [] => true
  | lo, (i, _) :: rest => decide (lo ≤ i) && decide (i < cap) && slotsRise cap (i + 1) rest

/-- The canonical form of a register file of `cap` slots. -/
def slotsWf (cap : Nat) (l : Slots w) : Bool := slotsRise cap 0 l

/-- The content of slot `i`, if it has been written. -/
def slotGet? (l : Slots w) (i : Nat) : Option (BitVec w) :=
  match l with
  | [] => none
  | (k, v) :: rest => if k = i then some v else slotGet? rest i

/-- `F[i] <- v` (R12). -/
def slotSet (l : Slots w) (i : Nat) (v : BitVec w) : Slots w :=
  match l with
  | [] => [(i, v)]
  | (k, u) :: rest =>
    if i < k then (i, v) :: (k, u) :: rest
    else if i = k then (i, v) :: rest
    else (k, u) :: slotSet rest i v

/-- `F[from .. from + n - 1] <- v`, in rising order (R148). -/
def slotFill (l : Slots w) (start : Nat) (v : BitVec w) : Nat → Slots w
  | 0 => l
  | n + 1 => slotFill (slotSet l start v) (start + 1) v n

/-- The slots `0 .. n - 1` with the contents `f` gives. -/
def slotsOfFn (n : Nat) (f : Nat → BitVec w) : Slots w := (List.range n).map fun i => (i, f i)

/-- `F[i]` as it is read: an `undef` slot gives a free value (R21, R258; log entry 2). -/
def slotRead (f : Config.SlotFile) (l : Slots w) (i draw : Nat) : BitVec w :=
  (slotGet? l i).getD (Config.undefSlot w f i draw)

/-- `TCH[i]` (R47). -/
def State.readTch (s : State) (i : Nat) : Byte := slotRead .tch s.tch i s.freeCount

/-- `TPR[i]` (R48). -/
def State.readTpr (s : State) (i : Nat) : Code := slotRead .tpr s.tpr i s.freeCount

/-- `STK[i]` (R49). -/
def State.readStk (s : State) (i : Nat) : Byte := slotRead .stk s.stk i s.freeCount

/-- `SCR[i]` (R50). -/
def State.readScr (s : State) (i : Nat) : Byte := slotRead .scr s.scr i s.freeCount

/-- `BLK[i]` (R51). -/
def State.readBlk (s : State) (i : Nat) : Byte := slotRead .blk s.blk i s.freeCount

/-- `IN[a]` (R53), without the bound check. -/
def State.readIn (s : State) (a : Nat) : Byte := memRead s.input a

/-! ### Results of an operation's parts -/

/-- How a part of an operation ends. -/
inductive Res where
  /-- It ran to its end. -/
  | ok (s : State)
  /-- It raised a fault of the stream: the state is the one R238 leaves, and the rest of the operation is abandoned. -/
  | raised (s : State)
  /-- The model stops. -/
  | fault (f : Fault)
  /-- The model refuses. -/
  | refused (r : Refusal)
  deriving DecidableEq, Repr

/-- Go on with the rest of the operation where the part ran to its end. -/
def Res.andThen (r : Res) (k : State → Res) : Res :=
  match r with
  | .ok s => k s
  | .raised s => .raised s
  | .fault f => .fault f
  | .refused f => .refused f

/-- The outcome of an operation whose last part ended so: a fault of the stream is a next state (R238). -/
def Res.outcome (r : Res) : Host.Outcome State Fault Refusal :=
  match r with
  | .ok s => .next s
  | .raised s => .next s
  | .fault f => .fault f
  | .refused f => .refused f

/-! ### Faults of the stream -/

/-- The causes of R220. -/
inductive Cause where
  | invalidInitialSymbol | badCode | lengthMismatch | crcMismatch | badLzwFlag | inputUnderrun | badRleLength
  | rleInputUnderrun | outputOverrun | tableOverflow | reservedCode
  deriving DecidableEq, Repr

/-- The cause codes (R220). -/
def Cause.number : Cause → BitVec 4
  | .invalidInitialSymbol => 1
  | .badCode => 2
  | .lengthMismatch => 3
  | .crcMismatch => 4
  | .badLzwFlag => 5
  | .inputUnderrun => 6
  | .badRleLength => 7
  | .rleInputUnderrun => 8
  | .outputOverrun => 9
  | .tableOverflow => 10
  | .reservedCode => 11

/-- The state that `raise Cause(v)` leaves (R238): `cause`, `info`, `phase <- FAULT`, and nothing else. -/
def State.raised (s : State) (c : Cause) (v : Nat) : State :=
  { s with cause := c.number, info := BitVec.ofNat 32 v, phase := .fault }

/-- `raise Cause(v)` (R238): taking SHKLZW's only kind of exception. There is no return from it (R242): FAULT is left
only by START (`start` below) or hardware reset. -/
def raise (c : Cause) (v : Nat) (s : State) : Res := .raised (s.raised c v)

/-! ### START and hardware reset -/

/-- A one-bit register the spec makes `undef` (log entry 2). -/
def undefBit (r : Config.UndefReg) (draw : Nat) : Bool := Config.undefReg 1 r draw == 1#1

/-- START (R252). Every `undef` of the rule is a free value drawn for this START (log entry 2), and every slot of the
register files is `undef` again. -/
def start (a : StartArgs) (s : State) : State where
  phase := .thdr
  stage := .choose
  cause := 0
  info := Config.undefReg 32 .info s.freeCount
  variant := a.variant
  usize := a.usize
  inLen := a.inLen
  input := a.input
  ip := 0
  startBit := 0
  lastByte := Config.undefReg 8 .lastByte s.freeCount
  entry := BitVec.ofNat 13 Config.firstCode
  old := Config.undefReg 12 .old s.freeCount
  finalByte := Config.undefReg 8 .finalByte s.freeCount
  code := Config.undefReg 12 .code s.freeCount
  resetFix := false
  needClear := false
  outN := Config.undefReg 13 .outN s.freeCount
  blkIp0 := Config.undefReg 32 .blkIp0 s.freeCount
  rleLen := Config.undefReg 16 .rleLen s.freeCount
  lzwLength := Config.undefReg 16 .lzwLength s.freeCount
  lzwUsed := undefBit .lzwUsed s.freeCount
  rleUsed := undefBit .rleUsed s.freeCount
  rleIn := Config.undefReg 13 .rleIn s.freeCount
  rleOut := Config.undefReg 13 .rleOut s.freeCount
  uncompRemaining := a.usize
  writeLen := Config.undefReg 13 .writeLen s.freeCount
  sp := 0
  crcAcc := Config.crcInit
  escape := Config.undefReg 8 .escape s.freeCount
  volume := Config.undefReg 8 .volume s.freeCount
  hdrCrc := Config.undefReg 16 .hdrCrc s.freeCount
  tch := []
  tpr := []
  stk := []
  scr := []
  blk := []
  out := []
  inputs := s.inputs
  freeCount := s.freeCount + 1

/-- Hardware reset (R250): the machine right after reset. What the host will do next is not the machine's. -/
def hardReset (s : State) : State :=
  { State.reset with inputs := s.inputs, freeCount := s.freeCount }

/-! ### The work stack -/

/-- `STK[sp] <- b; sp <- sp + 1` (R49), where `sp < STACK_CAP`. -/
def State.pushed (s : State) (b : Byte) : State :=
  { s with stk := slotSet s.stk s.sp.toNat b, sp := s.sp + 1 }

/-- `Push(b)` (R49); `none` where `STK` has no such slot. -/
def push (b : Byte) (s : State) : Option State :=
  if s.sp.toNat < Config.stackCap then some (s.pushed b) else none

/-! ### The string table and the scratch buffer -/

/-- `SCR[out_n] <- b; out_n <- out_n + 1` (R176). -/
def State.emitted (s : State) (b : Byte) : State :=
  { s with scr := slotSet s.scr s.outN.toNat b, outN := s.outN + 1 }

/-- `LzwEmit(b)` (R176). -/
def emitByte (b : Byte) (s : State) : Res :=
  if s.rleLen.toNat ≤ s.outN.toNat then raise .outputOverrun s.outN.toNat s
  else if Config.scratchCap ≤ s.outN.toNat then .fault .slotOutOfRange
  else .ok (s.emitted b)

/-- The writes of `Record(code)` (R173). -/
def State.recorded (s : State) (code : Code) : State :=
  { s with
    tch := slotSet s.tch (s.entry.toNat - 256) s.finalByte
    tpr := slotSet s.tpr (s.entry.toNat - 256) s.old
    entry := s.entry + 1
    old := code }

/-- `Record(code)` (R173, R174). -/
def record (code : Code) (s : State) : Res :=
  if Config.tableFull ≤ s.entry.toNat then raise .tableOverflow s.entry.toNat s
  else if s.entry.toNat < 256 then .fault .slotOutOfRange
  else .ok (s.recorded code)

/-- The table reset (R255): the single write `entry <- 0x0101`. -/
def State.tableReset (s : State) : State := { s with entry := BitVec.ofNat 13 Config.firstCode }

/-- The chain walk of `WalkEmit` (R171): `while ptr > 255` push `TCH[ptr - 256]` and follow `TPR[ptr - 256]`. The answer
is the literal reached and the state with the bytes pushed; `none` where the stack is exhausted. The fuel is one more
than `STACK_CAP`, so that the stack runs out first (log entry 12). -/
def walk : Nat → Code → State → Option (Byte × State)
  | 0, _, _ => none
  | fuel + 1, ptr, s =>
    if ptr.toNat ≤ 255 then some (ptr.setWidth 8, s)
    else
      match push (s.readTch (ptr.toNat - 256)) s with
      | none => none
      | some s' => walk fuel (s.readTpr (ptr.toNat - 256)) s'

/-- `while sp > 0 { LzwEmit(Pop()) }` (R171, R49); the first argument is `sp`. -/
def drain : Nat → State → Res
  | 0, s => .ok s
  | n + 1, s => (emitByte (s.readStk n) { s with sp := BitVec.ofNat 13 n }).andThen (drain n)

/-- `final <- ptr; LzwEmit(ptr); while sp > 0 { LzwEmit(Pop()) }` (R171): what `WalkEmit` does once the walk has
reached its literal. -/
def emitString (b : Byte) (s : State) : Res :=
  (emitByte b { s with finalByte := b }).andThen fun s' => drain s'.sp.toNat s'

/-- `WalkEmit(ptr)` (R171). -/
def walkEmit (ptr : Code) (s : State) : Res :=
  match walk (Config.stackCap + 1) ptr s with
  | none => .fault .stackExhausted
  | some (b, s') => emitString b s'

end Sys2Proof.Machine
end

