-- ==== Sys2Proof/Machine/Operands.lean ====
section
/-! DEFINITION. How operands are read: `Fetch8` and the spans of `IN` (R13, R68), GETCODE's assembly of a code (R122),
and the byte span of the RLE expander (R145). -/

namespace Sys2Proof.Machine

/-- How many bytes of `IN` lie at and after `ip`. -/
def State.inputLeft (s : State) : Nat := s.inLen.toNat - s.ip.toNat

/-- `ip <- ip + n` (R35). -/
def State.advance (s : State) (n : Nat) : State := { s with ip := s.ip + BitVec.ofNat 32 n }

/-- `Fetch8()` (R13): the byte at `ip`, and `ip` moved past it; `none` where `ip` has reached `IN_LEN` (R36). -/
def fetch8 (s : State) : Option (Byte × State) :=
  if s.ip.toNat < s.inLen.toNat then some (s.readIn s.ip.toNat, s.advance 1) else none

/-- A read of `IN` that has no byte (R226): `info` is `IN_LEN`, and `ip` stays as it was before the failing fetch. -/
def underrun (s : State) : Res := raise .inputUnderrun s.inLen.toNat s

/-- `IN` holds `n` bytes at `ip` (R202, R203: the bound check made once for a whole span). -/
def State.spanFits (s : State) (n : Nat) : Bool := s.ip.toNat + n ≤ s.inLen.toNat

/-- The end of GETCODE (R122): `last_byte`, `start_bit` and the code cut out of `value`. -/
def State.codeCut (s : State) (value sb width mask : Nat) (lastByte : Byte) : State :=
  { s with
    lastByte := lastByte
    startBit := BitVec.ofNat 3 ((sb + width) % 8)
    code := BitVec.ofNat 12 ((value >>> sb) &&& mask) }

/-- The first source byte of a code (R122, R124): a fresh byte, or the residue byte, which is not fetched again. -/
def firstSource (s : State) : Option (Byte × State) :=
  if s.startBit.toNat = 0 then fetch8 s else some (s.lastByte, s)

/-- GETCODE once the width `w` and the mask `m` are known (R122). -/
def getcodeAt (w m : Nat) (s : State) : Res :=
  match firstSource s with
  | none => underrun s
  | some (b0, s1) =>
    match fetch8 s1 with
    | none => underrun s1
    | some (b1, s2) =>
      if 16 < s.startBit.toNat + w then
        match fetch8 s2 with
        | none => underrun s2
        | some (b2, s3) =>
          .ok (s3.codeCut (b0.toNat ||| b1.toNat <<< 8 ||| b2.toNat <<< 16) s.startBit.toNat w m b2)
      else .ok (s2.codeCut (b0.toNat ||| b1.toNat <<< 8) s.startBit.toNat w m b1)

/-- GETCODE (R122): the next code goes to `code`, and `ip`, `start_bit` and `last_byte` move past it. An `entry` that
selects no width is refused (R110). -/
def getcode (s : State) : Res :=
  match codeWidth s.entry, codeMask s.entry with
  | some w, some m => getcodeAt w m s
  | _, _ => .refused .widthIndexOutOfTable

/-- `S[j]`, the span the RLE expander reads (R145): the engine's output for a block with LZW, else `IN` from `ip`. -/
def State.spanByte (s : State) (j : Nat) : Byte :=
  if s.lzwUsed then s.readScr j else s.readIn (s.ip.toNat + j)

/-- How many bytes of the span are left (R146). -/
def State.spanLeft (s : State) : Nat := s.rleLen.toNat - s.rleIn.toNat

end Sys2Proof.Machine
end

