-- ==== Sys2Proof/Machine/Flags.lean ====
section
/-! DEFINITION. The flags the operations compute (R37 to R40): there are no condition codes (R40). -/

namespace Sys2Proof.Machine

/-- `rle_used = (rle_len ≠ 4096)` (R39, R196). -/
def rleUsedOf (rleLen : BitVec 16) : Bool := rleLen.toNat != Config.block

/-- `write_len = min(4096, uncomp_remaining)` (R30). -/
def writeLenOf (remaining : Addr) : Count := BitVec.ofNat 13 (min Config.block remaining.toNat)

/-- `first` of an LZW/2 invocation (R162): a clearing entry. -/
def State.clearingEntry (s : State) : Bool := s.entry.toNat == Config.firstCode && !s.resetFix

/-- `resetFix` after CLR's literal (R168, R169): set when that literal is the last byte of the block. -/
def State.resetFixAfterClear (s : State) : Bool := s.outN.toNat == s.rleLen.toNat || s.resetFix

/-- The reset of the LZW/2 table by a block without LZW (R201). -/
def State.resetWithoutLzw (s : State) : State :=
  match s.variant with
  | .lzw1 => s
  | .lzw2 => { s.tableReset with resetFix := false }

/-- The phase after PAYLOAD (R190). -/
def State.afterPayload (s : State) : Phase :=
  match s.variant with
  | .lzw1 => .crc
  | .lzw2 => .emit

/-- The phase after THDR and after EMIT, where the block loop is tested (R190, R206). -/
def State.afterBlock (s : State) : Phase :=
  if s.uncompRemaining.toNat = 0 then
    match s.variant with
    | .lzw1 => .verify
    | .lzw2 => .done
  else .bhdr

/-- The block buffer is complete (R190). -/
def State.blockComplete (s : State) : State := { s with phase := s.afterPayload }

end Sys2Proof.Machine
end

