-- ==== Sys2Proof/Machine/BitReader.lean ====
section
/-! DEFINITION. Unit A's bit reader as an operation of its own: GETCODE (R120 to R130). -/

namespace Sys2Proof.Machine

/-- GETCODE (R122). -/
def execGetcode (s : State) : Host.Outcome State Fault Refusal := (getcode s).outcome

end Sys2Proof.Machine
end

