-- ==== Sys2Proof/Machine/Crc.lean ====
section
/-! DEFINITION. Unit A's CRC-16 unit: CRCBYTE, CRCBLK and VERIFY (R135 to R141, R204, R207). -/

namespace Sys2Proof.Machine

/-- One turn of the loop of R136. -/
def crcShift (crc : BitVec 16) : BitVec 16 :=
  if crc.getLsbD 15 then (crc <<< 1) ^^^ Config.crcPoly else crc <<< 1

/-- `CRCBYTE(crc, b)` (R136): `b` into the high byte, then eight turns. -/
def crcByte (crc : BitVec 16) (b : Byte) : BitVec 16 :=
  let c0 := crc ^^^ (b.setWidth 16 <<< 8)
  crcShift (crcShift (crcShift (crcShift (crcShift (crcShift (crcShift (crcShift c0)))))))

/-- `CRCBUF(crc, bytes)` (R137). -/
def crcBuf (crc : BitVec 16) (bytes : List Byte) : BitVec 16 := bytes.foldl crcByte crc

/-- `BLK[0 .. n - 1]`, in rising order. -/
def State.blkBytes (s : State) (n : Nat) : List Byte := (List.range n).map s.readBlk

/-- CRCBYTE (R136) on the accumulator. -/
def execCrcbyte (b : Byte) (s : State) : Host.Outcome State Fault Refusal :=
  .next { s with crcAcc := crcByte s.crcAcc b }

/-- CRCBLK (R204): all 4096 bytes, whatever `write_len` is (R138); then EMIT (R190). -/
def execCrcblk (s : State) : Host.Outcome State Fault Refusal :=
  .next { s with crcAcc := crcBuf s.crcAcc (s.blkBytes Config.block), phase := .emit }

/-- VERIFY (R207, R140). -/
def execVerify (s : State) : Host.Outcome State Fault Refusal :=
  if s.crcAcc = s.hdrCrc then .next { s with phase := .done }
  else (raise .crcMismatch ((s.crcAcc.toNat <<< 16) ||| s.hdrCrc.toNat) s).outcome

end Sys2Proof.Machine
end

