-- ==== Sys2Proof/Machine/Lzw.lean ====
section
/-! DEFINITION. Unit C, the LZW engine's operations: LIT0, LIT, REF, KWK, CLR, BAD and RSV (R160 to R183). -/

namespace Sys2Proof.Machine

/-- LIT0 after its GETCODE (R164): the check, `old` and `final`, the emission. -/
def firstLiteral (code : Code) (s : State) : Res :=
  if 255 < code.toNat then raise .invalidInitialSymbol code.toNat s
  else emitByte (code.setWidth 8) { s with finalByte := code.setWidth 8, old := code }

/-- LIT0 (R164). Step 1 of the invocation is then done, and the main loop goes on (R163). -/
def execLit0 (code : Code) (s : State) : Host.Outcome State Fault Refusal :=
  ((firstLiteral code s).andThen fun s' => .ok { s' with stage := .lzw }).outcome

/-- LIT (R165). -/
def execLit (byte : Byte) (s : State) : Host.Outcome State Fault Refusal :=
  ((walkEmit (byte.setWidth 12) s).andThen (record (byte.setWidth 12))).outcome

/-- REF (R166). -/
def execRef (code : Code) (s : State) : Host.Outcome State Fault Refusal :=
  ((walkEmit code s).andThen (record code)).outcome

/-- KWK (R172): `Push(final); WalkEmit(old); Record(code)`. -/
def execKwk (code : Code) (s : State) : Host.Outcome State Fault Refusal :=
  match push s.finalByte s with
  | none => .fault .stackExhausted
  | some s' => ((walkEmit s.old s').andThen (record code)).outcome

/-- BAD (R170). -/
def execBad (code : Code) (s : State) : Host.Outcome State Fault Refusal :=
  (raise .badCode code.toNat s).outcome

/-- RSV (R167). -/
def execRsv (s : State) : Host.Outcome State Fault Refusal :=
  (raise .reservedCode Config.clearCode s).outcome

/-- CLR (R168): the table reset, then LIT0 on the next code, read at the width of the reset table, then the reset-fix
flag (R169). `need_clear` is true inside (R38). -/
def execClr (s : State) : Host.Outcome State Fault Refusal :=
  (((getcode { s.tableReset with needClear := true }).andThen fun s' =>
      firstLiteral s'.code s').andThen fun s' =>
      .ok { s' with needClear := false, resetFix := s'.resetFixAfterClear }).outcome

end Sys2Proof.Machine
end

