-- ==== Sys2Proof/Machine/Rle.lean ====
section
/-! DEFINITION. Unit B, the RLE expander's two operations: RLIT and RRUN (R145 to R153). Their bytes have been read
from the span, and `rle_in` moved, when they run (`fetchToken`). -/

namespace Sys2Proof.Machine

/-- RLIT (R147). -/
def execRlit (u : Byte) (s : State) : Host.Outcome State Fault Refusal :=
  if s.rleOut.toNat < Config.block then
    .next { s with blk := slotSet s.blk s.rleOut.toNat u, rleOut := s.rleOut + 1 }
  else .fault .slotOutOfRange

/-- `min(count + 1, 4096 - rle_out)` (R148, R103). -/
def runLength (count : Byte) (rleOut : Count) : Nat := min (count.toNat + 1) (Config.block - rleOut.toNat)

/-- RRUN (R148). -/
def execRrun (ch count : Byte) (s : State) : Host.Outcome State Fault Refusal :=
  if s.rleOut.toNat < Config.block then
    .next { s with
      blk := slotFill s.blk s.rleOut.toNat ch (runLength count s.rleOut)
      rleOut := s.rleOut + BitVec.ofNat 13 (runLength count s.rleOut) }
  else .fault .slotOutOfRange

end Sys2Proof.Machine
end

