-- ==== Sys2Proof/Machine/Sequencer.lean ====
section
/-! DEFINITION. Unit D, the block sequencer: THDR1, THDR2, BHDR1, BHDR2, RAWBLK and EMITBLK (R190 to R211), and the
transitions of R210 that are no operation of the table. -/

namespace Sys2Proof.Machine

/-! ### Headers -/

/-- The phase change at the end of a thread header (R190). -/
def State.headerDone (s : State) : State := { s with phase := s.afterBlock }

/-- THDR1 (R191). Its four bytes have been fetched (`fetchHeader`). -/
def execThdr1 (hdrCrc : BitVec 16) (volume escape : Byte) (s : State) : Host.Outcome State Fault Refusal :=
  .next (State.headerDone { s with hdrCrc := hdrCrc, volume := volume, escape := escape })

/-- THDR2 (R192). -/
def execThdr2 (volume escape : Byte) (s : State) : Host.Outcome State Fault Refusal :=
  .next (State.headerDone { s with volume := volume, escape := escape })

/-- `CheckRleLen()` (R195), then `rle_used` and `write_len` (R193, R194), then PAYLOAD (R190). -/
def checkRleLen (s : State) : Res :=
  if Config.block < s.rleLen.toNat then raise .badRleLength s.rleLen.toNat s
  else .ok { s with
    rleUsed := rleUsedOf s.rleLen
    writeLen := writeLenOf s.uncompRemaining
    phase := .payload
    stage := .choose }

/-- `lzw_length <- undef` (R193, R194): a free value (log entry 2). -/
def State.lzwLengthUndef (s : State) : State :=
  { s with lzwLength := Config.undefReg 16 .lzwLength s.freeCount, freeCount := s.freeCount + 1 }

/-- BHDR1 (R193): the flag is checked before the length (R236). -/
def execBhdr1 (rleLen : BitVec 16) (flag : Byte) (s : State) : Host.Outcome State Fault Refusal :=
  if 1 < flag.toNat then (raise .badLzwFlag flag.toNat { s with rleLen := rleLen }).outcome
  else (checkRleLen (State.lzwLengthUndef { s with rleLen := rleLen, lzwUsed := flag.toNat == 1 })).outcome

/-- `word[12:0]` (R101). -/
def wordRleLen (word : BitVec 16) : BitVec 16 := word &&& 0x1FFF#16

/-- `lzw_length` of an LZW/2 block header (R194). -/
def State.setLzwLength (s : State) : Option (BitVec 16) → State
  | some len => { s with lzwLength := len }
  | none => s.lzwLengthUndef

/-- BHDR2 (R194): bits 14 and 13 of the word have no effect (R109). -/
def execBhdr2 (word : BitVec 16) (lzwLength : Option (BitVec 16)) (s : State) : Host.Outcome State Fault Refusal :=
  (checkRleLen
    (State.setLzwLength { s with lzwUsed := word.getLsbD 15, rleLen := wordRleLen word } lzwLength)).outcome

/-! ### Payload -/

/-- RAWBLK after R201 (R203): the bound check made once, the copy of 4096 bytes of `IN`, and `ip` past them. -/
def rawCopy (s : State) : Res :=
  if s.spanFits Config.block then
    .ok (State.blockComplete
      { s.advance Config.block with blk := slotsOfFn Config.block fun i => s.readIn (s.ip.toNat + i) })
  else underrun s

/-- RAWBLK (R203). -/
def execRawblk (s : State) : Host.Outcome State Fault Refusal := (rawCopy s.resetWithoutLzw).outcome

/-- The start of an engine invocation (R161, R162) after `blk_ip0 <- ip` (R200). `last_byte <- undef` is a free value
(log entry 2). -/
def State.invocation (s : State) : State :=
  { s with
    blkIp0 := s.ip
    startBit := 0
    lastByte := Config.undefReg 8 .lastByte s.freeCount
    freeCount := s.freeCount + 1
    outN := 0
    sp := 0 }

/-- `LZW_START_1` or `LZW_START_2` (R161, R162). -/
def lzwStart (s : State) : State :=
  match s.variant with
  | .lzw1 => { s.invocation.tableReset with stage := .lzw0 }
  | .lzw2 => { s.invocation with
      resetFix := false
      stage := if s.clearingEntry then .lzw0 else .lzw }

/-- `rle_in <- 0; rle_out <- 0` (R146). -/
def State.rleStart (s : State) : State := { s with rleIn := 0, rleOut := 0, stage := .rle }

/-- The start of the RLE-only path (R202): R201, the bound check made once, then the expander. -/
def rleOnlyStart (s : State) : Res :=
  if s.resetWithoutLzw.spanFits s.rleLen.toNat then .ok s.resetWithoutLzw.rleStart else underrun s.resetWithoutLzw

/-- `bytes_consumed` (R199). -/
def State.bytesConsumed (s : State) : Nat := (s.ip - s.blkIp0).toNat

/-- `LengthCheck()` (R199): LZW/2 only. -/
def lengthCheck (s : State) : Res :=
  match s.variant with
  | .lzw1 => .ok s
  | .lzw2 =>
    if s.bytesConsumed + Config.lzw2Hdr = s.lzwLength.toNat then .ok s
    else raise .lengthMismatch ((s.bytesConsumed <<< 16) ||| s.lzwLength.toNat) s

/-- What follows the engine's normal end (R175, R197, R198): the length check, then the RLE expander, or the copy of
`SCR` to `BLK`. -/
def engineEnd (s : State) : Res :=
  (lengthCheck s).andThen fun s' =>
    if s'.rleUsed then .ok s'.rleStart else .ok (State.blockComplete { s' with blk := s'.scr })

/-- What follows the expander's end (R202, R197): on the RLE-only path `ip` moves by the whole `rle_len`. -/
def rleEnd (s : State) : State :=
  State.blockComplete (if s.lzwUsed then s else s.advance s.rleLen.toNat)

/-! ### Emission -/

/-- EMITBLK (R205), then the test of the block loop (R206, R190). -/
def execEmitblk (s : State) : Host.Outcome State Fault Refusal :=
  .next (State.headerDone
    { s with
      out := s.out ++ s.blkBytes s.writeLen.toNat
      uncompRemaining := s.uncompRemaining - s.writeLen.setWidth 32 })

end Sys2Proof.Machine
end

