-- ==== Sys2Proof/Machine/Dispatch.lean ====
section
/-! DEFINITION. The meaning of every stream operation: one arm per constructor of `Instr`. -/

namespace Sys2Proof.Machine

def exec (i : Instr) (s : State) : Host.Outcome State Fault Refusal :=
  match i with
  | .thdr1 hdrCrc volume escape => Sys2Proof.Machine.execThdr1 hdrCrc volume escape s
  | .thdr2 volume escape => Sys2Proof.Machine.execThdr2 volume escape s
  | .bhdr1 rleLen flag => Sys2Proof.Machine.execBhdr1 rleLen flag s
  | .bhdr2 word lzwLength => Sys2Proof.Machine.execBhdr2 word lzwLength s
  | .rawblk => Sys2Proof.Machine.execRawblk s
  | .lit0 code => Sys2Proof.Machine.execLit0 code s
  | .clr => Sys2Proof.Machine.execClr s
  | .rsv => Sys2Proof.Machine.execRsv s
  | .kwk code => Sys2Proof.Machine.execKwk code s
  | .bad code => Sys2Proof.Machine.execBad code s
  | .lit byte => Sys2Proof.Machine.execLit byte s
  | .ref code => Sys2Proof.Machine.execRef code s
  | .rlit u => Sys2Proof.Machine.execRlit u s
  | .rrun ch count => Sys2Proof.Machine.execRrun ch count s
  | .getcode => Sys2Proof.Machine.execGetcode s
  | .crcbyte b => Sys2Proof.Machine.execCrcbyte b s
  | .crcblk => Sys2Proof.Machine.execCrcblk s
  | .emitblk => Sys2Proof.Machine.execEmitblk s
  | .verify => Sys2Proof.Machine.execVerify s

end Sys2Proof.Machine
end

