-- ==== Sys2Proof/Machine/Fetch.lean ====
section
/-! DEFINITION. How the next operation is found and its operands fetched (R105, R113, R210), what the host's turn does
(R55, R190), and where a word of the opcode table is put so that the next step runs it. -/

namespace Sys2Proof.Machine

/-- What the machine does next. -/
inductive Fetched where
  /-- This operation, on the state whose position is past its operands. -/
  | run (i : Instr) (s : State)
  /-- A transition of R210 that is no operation of the table, or a fault of the fetch. -/
  | settled (o : Host.Outcome State Fault Refusal)
  deriving Repr

/-- A header whose bytes end early: the writes its pseudocode makes before the failing fetch (R191 to R194, R238), with
`ip` at the byte that does not exist (R226). -/
def State.partialHeader (s : State) (c : Ctx) : State :=
  let left := s.inputLeft
  let at' := s.advance left
  let word := BitVec.ofNat 16 (leBytes s.readIn s.ip.toNat 2)
  match c with
  | .thdr .lzw1 =>
    { at' with
      hdrCrc := if 2 ≤ left then word else s.hdrCrc
      volume := if 3 ≤ left then s.readIn (s.ip.toNat + 2) else s.volume }
  | .thdr .lzw2 => { at' with volume := if 1 ≤ left then s.readIn s.ip.toNat else s.volume }
  | .bhdr .lzw1 => { at' with rleLen := if 2 ≤ left then word else s.rleLen }
  | .bhdr .lzw2 =>
    { at' with
      lzwUsed := if 2 ≤ left then word.getLsbD 15 else s.lzwUsed
      rleLen := if 2 ≤ left then wordRleLen word else s.rleLen }
  | _ => at'

/-- The longest header has this many bytes (R91 to R94). -/
def headerBytes : Nat := 4

/-- Fetch a thread header or a block header at `ip`. -/
def fetchHeader (c : Ctx) (s : State) : Fetched :=
  match decode c (8 * s.inputLeft) (leBytes s.readIn s.ip.toNat (min headerBytes s.inputLeft)) with
  | .ok i n => .run i (s.advance (n / 8))
  | .short => .settled (underrun (s.partialHeader c)).outcome
  | .noWidth => .settled (.refused .widthIndexOutOfTable)

/-- Fetch a code by GETCODE and find its operation (R163, R105). -/
def fetchCode (op : State → Instr) (s : State) : Fetched :=
  match getcode s with
  | .ok s' => .run (op s') s'
  | .raised s' => .settled (.next s')
  | .fault f => .settled (.fault f)
  | .refused r => .settled (.refused r)

/-- The operation of a main-loop code (R163). -/
def State.mainOp (s : State) : Instr := classify s.variant s.entry s.code

/-- The longest RLE token has this many bytes (R97). -/
def tokenBytes : Nat := 3

/-- `RleRead()` past the end of the span (R146, R149): every byte of the span has been read. -/
def rleUnderrun (s : State) : Res :=
  raise .rleInputUnderrun s.rleLen.toNat { s with rleIn := s.rleIn + BitVec.ofNat 13 s.spanLeft }

/-- Fetch an RLE token from the span (R146). A span in `IN` that `IN` does not hold is an underrun of `IN` (R226); in a
thread it has been checked before (R202; log entry 13). -/
def fetchToken (s : State) : Fetched :=
  if !s.lzwUsed && !s.spanFits s.rleLen.toNat then .settled (underrun s).outcome
  else
    match decode (.rle s.escape) (8 * s.spanLeft)
        (leBytes s.spanByte s.rleIn.toNat (min tokenBytes s.spanLeft)) with
    | .ok i n => .run i { s with rleIn := s.rleIn + BitVec.ofNat 13 (n / 8) }
    | .short => .settled (rleUnderrun s).outcome
    | .noWidth => .settled (.refused .widthIndexOutOfTable)

/-- The path choice (R196, R210). -/
def choosePath (s : State) : Fetched :=
  if s.lzwUsed then .settled (.next (lzwStart s))
  else if s.rleUsed then .settled (rleOnlyStart s).outcome
  else .run .rawblk s

/-- What the machine does next, by R210. In IDLE, DONE and FAULT it does nothing (R251, R208, R242; log entry 9). -/
def fetch (s : State) : Fetched :=
  match s.phase with
  | .idle => .settled (.next s)
  | .done => .settled (.next s)
  | .fault => .settled (.next s)
  | .thdr => fetchHeader (.thdr s.variant) s
  | .bhdr => fetchHeader (.bhdr s.variant) s
  | .payload =>
    match s.stage with
    | .choose => choosePath s
    | .lzw0 => fetchCode (fun s' => .lit0 s'.code) s
    | .lzw => if s.outN.toNat < s.rleLen.toNat then fetchCode State.mainOp s else .settled (engineEnd s).outcome
    | .rle => if s.rleOut.toNat < Config.block then fetchToken s else .settled (.next (rleEnd s))
  | .crc => .run .crcblk s
  | .emit => .run .emitblk s
  | .verify => .run .verify s

/-- What the host's turn leaves to do. -/
inductive HostTurn where
  /-- The machine makes its step from this state. -/
  | go (s : State)
  /-- The host's event was the step. -/
  | settled (o : Host.Outcome State Fault Refusal)
  deriving Repr

/-- The host's turn before a step (R55, R190): nothing, START when not BUSY (R252; refused when BUSY, R264), or a
hardware reset at any time (R250). -/
def hostTurn (s : State) : HostTurn :=
  match s.inputs with
  | [] => .go s
  | .wait :: rest => .go { s with inputs := rest }
  | .start a :: rest =>
    if s.status = .busy then .settled (.refused .startWhileBusy)
    else .settled (.next (start a { s with inputs := rest }))
  | .hardReset :: rest => .settled (.next (hardReset { s with inputs := rest }))

/-- A thread's input space that holds the word's bytes from address 0, and zeros up to the length of the longest
element whose operands are fetched. -/
def State.withInput (s : State) (nbits w : Nat) : State :=
  { s with
    inputs := []
    ip := 0
    startBit := 0
    inLen := 8
    input := memOfBytes ((List.range (nbits / 8)).map fun k => BitVec.ofNat 8 (w >>> (8 * k))) }

/-- Put the machine where the decoder's position `c` is due: the registers that R105 and R113 say select it. -/
def State.atCtx (s : State) (c : Ctx) : State :=
  match c with
  | .thdr v => { s with phase := .thdr, variant := v }
  | .bhdr v => { s with phase := .bhdr, variant := v }
  | .first => { s.tableReset with
      phase := .payload, stage := .lzw0, outN := 0, rleLen := BitVec.ofNat 16 Config.block }
  | .code v entry => { s with
      phase := .payload, stage := .lzw, variant := v, entry := entry, outN := 0
      rleLen := BitVec.ofNat 16 Config.block }
  | .rle escape => { s with
      phase := .payload, stage := .rle, escape := escape, rleIn := 0, rleOut := 0, rleLen := 8
      lzwUsed := false }
  | .raw => { s with phase := .payload, stage := .choose, lzwUsed := false, rleUsed := false }
  | .crc => { s with phase := .crc }
  | .emit => { s with phase := .emit }
  | .verify => { s with phase := .verify }

/-- `s` with the table's word where the next step fetches (log entries 14, 15). -/
def State.loadWord (s : State) (nbits w : Nat) : State :=
  match tableCtx nbits w with
  | none => s.withInput nbits w
  | some c => (s.withInput nbits w).atCtx c

end Sys2Proof.Machine
end

