-- ==== Sys2Proof/Machine/Step.lean ====
section
/-! DEFINITION. One step: the host's turn, then one stream operation or one transition of the sequencer (R269, R210). -/

namespace Sys2Proof.Machine

/-- One step of SHKLZW. -/
def step (s : State) : Host.Outcome State Fault Refusal :=
  match hostTurn s with
  | .settled o => o
  | .go s1 =>
    match fetch s1 with
    | .settled o => o
    | .run i s2 => exec i s2

/-- `s` with the table's word of `nbits` bits where `step` fetches its next operation (log entries 14, 15). -/
def State.withFetchWord (s : State) (nbits w : Nat) : State := s.loadWord nbits w

end Sys2Proof.Machine
end

