-- ==== Sys2Proof/Safety.lean ====
section
/-! DEFINITION. The terms claims are stated in: the strings of the table (R179), the bits of `IN` (R61), the invariants
of a thread (R59), and the bound on what is left to do (R246). -/

namespace Sys2Proof.Machine

/-! ### Reading the state -/

/-- `str(c)` of R179 with fuel: `c` itself for a literal, else the string of its prefix followed by its terminal byte. -/
def State.strFuel (s : State) : Nat → Code → List Byte
  | 0, _ => []
  | n + 1, c =>
    if c.toNat ≤ 255 then [c.setWidth 8]
    else s.strFuel n (s.readTpr (c.toNat - 256)) ++ [s.readTch (c.toNat - 256)]

/-- `str(c)` (R179). A chain strictly decreases (R177), so 4096 links are enough. -/
def State.str (s : State) (c : Code) : List Byte := s.strFuel 4096 c

/-- The first byte of `str(c)`. -/
def State.strHead (s : State) (c : Code) : Byte := (s.str c).headD 0

/-- The contents of a register file after the bytes of a list are written from slot `i` up. -/
def slotPut (l : Slots w) (i : Nat) : List (BitVec w) → Slots w
  | [] => l
  | v :: rest => slotPut (slotSet l i v) (i + 1) rest

/-- Bit `q` of the input bit string (R61): bit `q mod 8` of the byte at address `q / 8`. -/
def State.inBit (s : State) (q : Nat) : Bool := (s.readIn (q / 8)).getLsbD (q % 8)

/-- The position in the input bit string where the next code begins (R34, R126). -/
def State.bitPos (s : State) : Nat :=
  if s.startBit.toNat = 0 then 8 * s.ip.toNat else 8 * (s.ip.toNat - 1) + s.startBit.toNat

/-- The number whose bits are the `w ≤ 16` bits of the input bit string from position `p` (R61, R126). -/
def State.inField (s : State) (p w : Nat) : Nat := field (leBytes s.readIn (p / 8) 3) (p % 8) w

/-- The address after the last byte that the bits before position `p` touch (R125, R126): `⌈p / 8⌉`. -/
def byteAfter (p : Nat) : Nat := (p + 7) / 8

/-- The 16-bit field of `IN` at an address (R60, R100): the byte there is the less significant. -/
def State.in16 (s : State) (a : Nat) : BitVec 16 := s.readIn (a + 1) ++ s.readIn a

/-- `l'` is `l` with the values `vs` stored from slot `i` up: every other slot is as before. -/
def Stored (l l' : Slots w) (i : Nat) (vs : List (BitVec w)) : Prop :=
  ∀ j, slotGet? l' j = if i ≤ j ∧ j < i + vs.length then vs[j - i]? else slotGet? l j

/-- A code whose string is defined (R179): a literal, or a recorded code. -/
def Known (s : State) (c : Code) : Prop := c.toNat < s.entry.toNat ∧ c.toNat ≠ Config.clearCode

/-- The state after the emission of a code's string and one pushed byte (R171, R172). -/
def State.spelled (s : State) (bytes : List Byte) (stk : Slots 8) : State :=
  { s with
    finalByte := bytes.headD 0
    scr := slotPut s.scr s.outN.toNat bytes
    outN := s.outN + BitVec.ofNat 13 bytes.length
    stk := stk
    sp := 0 }

/-- `n` steps, one after another: the state after them, where each answers a next state. -/
def stepsFrom : Nat → State → Option State
  | 0, s => some s
  | n + 1, s =>
    match step s with
    | .next t => stepsFrom n t
    | .fault _ => none
    | .refused _ => none

/-- The state the machine makes its own move from is `u`: the host's turn before this step (R55) left it to the
machine. -/
def Moves (s u : State) : Prop := hostTurn s = .go u

/-! ### Invariants of a thread -/

/-- Every slot below `n` has been written. -/
def Filled (l : Slots w) (n : Nat) : Prop := ∀ i, i < n → (slotGet? l i).isSome = true

/-- The input space is in canonical form and within `IN_LEN`. -/
def inputOk (m : Memory) (inLen : Addr) : Bool := Memory.wf m && Memory.below inLen.toNat m

/-- R59 items 1 and 2: `entry` in its range, and every code below it recorded, with a smaller prefix that is not
0x0100. -/
structure TableOk (s : State) : Prop where
  low   : Config.firstCode ≤ s.entry.toNat
  high  : s.entry.toNat ≤ Config.tableFull
  slots : ∀ c, Config.firstCode ≤ c → c < s.entry.toNat →
    ∃ b p, slotGet? s.tch (c - 256) = some b ∧ slotGet? s.tpr (c - 256) = some p ∧
      p.toNat < c ∧ p.toNat ≠ Config.clearCode

/-- R59 item 3: `old` names a string. -/
def OldOk (s : State) : Prop := s.old.toNat < s.entry.toNat ∧ s.old.toNat ≠ Config.clearCode

/-- A next code would go through the main loop and pair `old` with its string (R162, R163). -/
def EngineLive (s : State) : Prop :=
  s.entry.toNat ≠ Config.firstCode ∨ s.resetFix = true ∨ (s.phase = .payload ∧ s.stage = .lzw)

/-- R59 item 6 and R124: the residue byte is the last byte fetched. -/
def ResidueOk (s : State) : Prop :=
  s.startBit.toNat ≠ 0 → 0 < s.ip.toNat ∧ s.lastByte = s.readIn (s.ip.toNat - 1)

/-- What a block header that passed its checks leaves (R193 to R195, R30). -/
structure BlockOk (s : State) : Prop where
  len   : s.rleLen.toNat ≤ Config.block
  used  : s.rleUsed = rleUsedOf s.rleLen
  write : s.writeLen.toNat = min Config.block s.uncompRemaining.toNat
  left  : 0 < s.uncompRemaining.toNat

/-- What holds inside PAYLOAD (R59 item 7, R78, R145, R161, R162, R202). -/
def StageOk (s : State) : Prop :=
  match s.stage with
  | .choose => True
  | .lzw0 => s.lzwUsed = true ∧ s.outN.toNat = 0 ∧ s.entry.toNat = Config.firstCode ∧ s.startBit.toNat = 0 ∧
      s.blkIp0.toNat ≤ s.ip.toNat
  | .lzw => s.lzwUsed = true ∧ s.outN.toNat ≤ s.rleLen.toNat ∧ Filled s.scr s.outN.toNat ∧ ResidueOk s ∧
      s.blkIp0.toNat ≤ s.ip.toNat
  | .rle => s.rleUsed = true ∧ s.rleIn.toNat ≤ s.rleLen.toNat ∧ s.rleOut.toNat ≤ Config.block ∧
      Filled s.blk s.rleOut.toNat ∧
      (s.lzwUsed = true → Filled s.scr s.rleLen.toNat) ∧
      (s.lzwUsed = false → s.ip.toNat + s.rleLen.toNat ≤ s.inLen.toNat)

/-- What holds in each phase of a running thread (R190). -/
def PhaseOk (s : State) : Prop :=
  match s.phase with
  | .bhdr => 0 < s.uncompRemaining.toNat
  | .payload => BlockOk s ∧ StageOk s
  | .crc => BlockOk s ∧ s.variant = .lzw1 ∧ Filled s.blk Config.block
  | .emit => BlockOk s ∧ Filled s.blk Config.block
  | .verify => s.uncompRemaining.toNat = 0 ∧ s.variant = .lzw1
  | .idle | .thdr | .done | .fault => True

/-- What holds while `status` is BUSY (R59, R33, R37, R38). -/
structure Running (s : State) : Prop where
  table      : TableOk s
  stackEmpty : s.sp.toNat = 0
  noClear    : s.needClear = false
  lzw1Fix    : s.variant = .lzw1 → s.resetFix = false
  old        : EngineLive s → OldOk s
  lzw2Crc    : s.variant = .lzw2 → s.crcAcc = Config.crcInit
  phaseOk    : PhaseOk s

/-- The invariant of the machine: R59, with what R36, R46, R54, R208 and the canonical forms add. -/
structure Inv (s : State) : Prop where
  input   : inputOk s.input s.inLen = true
  coming  : ∀ a, HostEvent.start a ∈ s.inputs → inputOk a.input a.inLen = true
  ip      : s.ip.toNat ≤ s.inLen.toNat
  outLen  : s.out.length + s.uncompRemaining.toNat = s.usize.toNat
  tch     : slotsWf Config.tableCap s.tch = true
  tpr     : slotsWf Config.tableCap s.tpr = true
  stk     : slotsWf Config.stackCap s.stk = true
  scr     : slotsWf Config.scratchCap s.scr = true
  blk     : slotsWf Config.block s.blk = true
  cause   : s.phase = .fault ↔ s.cause.toNat ≠ 0
  running : s.status = .busy → Running s
  done    : s.phase = .done → s.uncompRemaining.toNat = 0 ∧ (s.variant = .lzw1 → s.crcAcc = s.hdrCrc)

/-- `final` is the first byte of the string of `old` (R24, R172). -/
def FinalOk (s : State) : Prop := s.status = .busy → EngineLive s → s.finalByte = s.strHead s.old

/-- LZW/1: `crc_acc` is the CRC of the blocks completed so far (R137, R138). All of them but the one in EMIT have been
emitted whole, for while a block is to come the ones before it were full (R206). -/
def CrcOk (s : State) : Prop :=
  s.variant = .lzw1 →
    match s.phase with
    | .thdr | .bhdr | .payload | .crc => s.crcAcc = crcBuf Config.crcInit s.out
    | .emit => s.crcAcc = crcBuf Config.crcInit (s.out ++ s.blkBytes Config.block)
    | .idle | .verify | .done | .fault => True

/-- While a block is being decoded, the blocks before it have been emitted whole (R240): `OUT` holds a whole number of
blocks. -/
def WholeBlocks (s : State) : Prop :=
  match s.phase with
  | .thdr | .bhdr | .payload | .crc | .emit => s.out.length % Config.block = 0
  | .idle | .verify | .done | .fault => True

/-! ### What is left to do -/

/-- A bound on the steps a running thread still makes, of the kind R246 gives: it falls with every step. -/
def State.work (s : State) : Nat :=
  let perBlock := 20000
  let rest := perBlock * s.uncompRemaining.toNat
  match s.phase with
  | .idle | .done | .fault => 0
  | .verify => 1
  | .emit => rest + 2
  | .crc => rest + 3
  | .payload =>
    match s.stage with
    | .rle => rest + 4 + (Config.block - s.rleOut.toNat)
    | .lzw => rest + 5000 + (s.rleLen.toNat - s.outN.toNat)
    | .lzw0 => rest + 10000
    | .choose => rest + 10001
  | .bhdr => rest + 10002
  | .thdr => rest + 10003

end Sys2Proof.Machine
end

