-- ==== Sys2Proof/Certificates/Slice0/Obligations.lean ====
section
/-! DEFINITION. The statements for the provers. Each docstring names the rules of spec/ it comes from. `{ s with … }`
on the right of an equation is the instruction's frame: every field that is not listed is unchanged. -/

open Sys2Proof Sys2Proof.Machine

/-! ### Encoding -/

/-- Words written out from R91 to R97 and R61 decode to the operations the spec says they are: the examples of R191
(`92 4C 00 DB`), R192 (`01 DB`), R193 (`35 00 01`), R194 (`30 80 16 00` and `00 10`), R122 (`41 84`), R183 (the codes
042, 101, 103 and 100), R147 (`48`) and R148 (`DB 00 FF`). -/
def Obligations.SpecWordsDecode : Prop :=
  decode (.thdr .lzw1) 32 0xDB004C92 = .ok (.thdr1 0x4C92 0x00 0xDB) 32 ∧
  decode (.thdr .lzw2) 16 0xDB01 = .ok (.thdr2 0x01 0xDB) 16 ∧
  decode (.bhdr .lzw1) 24 0x010035 = .ok (.bhdr1 53 1) 24 ∧
  decode (.bhdr .lzw2) 32 0x00168030 = .ok (.bhdr2 0x8030 (some 22)) 32 ∧
  decode (.bhdr .lzw2) 16 0x1000 = .ok (.bhdr2 0x1000 none) 16 ∧
  decode .first 16 0x8441 = .ok (.lit0 0x041) 9 ∧
  decode (.code .lzw1 0x0101) 9 0x042 = .ok (.lit 0x42) 9 ∧
  decode (.code .lzw1 0x0102) 9 0x101 = .ok (.ref 0x101) 9 ∧
  decode (.code .lzw1 0x0103) 9 0x103 = .ok (.kwk 0x103) 9 ∧
  decode (.code .lzw1 0x0102) 9 0x103 = .ok (.bad 0x103) 9 ∧
  decode (.code .lzw1 0x0101) 9 0x100 = .ok .rsv 9 ∧
  decode (.code .lzw2 0x0103) 9 0x100 = .ok .clr 9 ∧
  decode (.rle 0xDB) 8 0x48 = .ok (.rlit 0x48) 8 ∧
  decode (.rle 0xDB) 24 0xFF00DB = .ok (.rrun 0x00 0xFF) 24

/-- Decode of encode (R91 to R98, R105): an operation that can stand at a position, encoded there, with any further
bits of the stream behind it, is what the decoder reads, and it takes exactly the encoding's bits. -/
def Obligations.DecodeOfEncode : Prop :=
  ∀ (c : Ctx) (i : Instr) (rest avail : Nat), wellFormed c i = true → (encode c i).1 ≤ avail →
    decode c avail ((encode c i).2 + 2 ^ (encode c i).1 * rest) = .ok i (encode c i).1

/-- Encode of decode: what the decoder reads at a position can stand there, lies within the bits that are there, and
its encoding is the bits it was read from. The premise is R59 item 1. -/
def Obligations.EncodeOfDecode : Prop :=
  ∀ (c : Ctx) (avail w : Nat) (i : Instr) (n : Nat), (∀ v e, c = .code v e → entryInRange e = true) →
    decode c avail w = .ok i n → wellFormed c i = true ∧ n ≤ avail ∧ encode c i = (n, w % 2 ^ n)

/-- The width and the mask of the next code (R112, R121), for every `entry` of R22, and R127: every value up to `entry`
fits the width, and at 0x1000 every code lies below `entry`, so that neither KWK nor BAD can occur. -/
def Obligations.CodeWidths : Prop :=
  ∀ entry : Count, 0x0101 ≤ entry.toNat → entry.toNat ≤ 0x1000 →
    ∃ w, codeWidth entry = some w ∧ codeMask entry = some (2 ^ w - 1) ∧
      (entry.toNat ≤ 0x01FE → w = 9) ∧
      (0x01FF ≤ entry.toNat ∧ entry.toNat ≤ 0x03FE → w = 10) ∧
      (0x03FF ≤ entry.toNat ∧ entry.toNat ≤ 0x07FE → w = 11) ∧
      (0x07FF ≤ entry.toNat → w = 12) ∧
      (entry.toNat ≤ 0x0FFF → entry.toNat < 2 ^ w) ∧
      (entry.toNat = 0x1000 → ∀ code : Code, code.toNat < 2 ^ w → code.toNat < entry.toNat)

/-- The class of a main-loop code (R105), by its value alone, in no order. -/
def Obligations.CodeClasses : Prop :=
  ∀ (v : Variant) (entry : Count) (code : Code), 0x0101 ≤ entry.toNat → entry.toNat ≤ 0x1000 →
    (v = .lzw2 → code = 0x100#12 → classify v entry code = .clr) ∧
    (v = .lzw1 → code = 0x100#12 → classify v entry code = .rsv) ∧
    (code.toNat ≤ 0x0FF → classify v entry code = .lit (code.setWidth 8)) ∧
    (0x0101 ≤ code.toNat → code.toNat < entry.toNat → classify v entry code = .ref code) ∧
    (code.toNat = entry.toNat → classify v entry code = .kwk code) ∧
    (entry.toNat < code.toNat → classify v entry code = .bad code)

/-! ### A step runs the decoded operation -/

/-- The host's turn before a step (R55, R190): nothing, or a wait, leaves the step to the machine. -/
def Obligations.HostTurnLeavesTheStep : Prop :=
  (∀ s : State, s.inputs = [] → Moves s s) ∧
  (∀ (s : State) (rest : List HostEvent), s.inputs = .wait :: rest → Moves s { s with inputs := rest })

/-- A step in THDR or BHDR (R105, R190) runs the header the decoder reads from the bytes at `ip`, with `ip` moved past
them. That a step fetches an operation's operands before it runs it is the model's reading (log entry 18). -/
def Obligations.StepRunsHeader : Prop :=
  ∀ (s u : State) (c : Ctx) (i : Instr) (n : Nat), Moves s u →
    (u.phase = .thdr ∧ c = .thdr u.variant ∨ u.phase = .bhdr ∧ c = .bhdr u.variant) →
    decode c (8 * (u.inLen.toNat - u.ip.toNat))
      (leBytes u.readIn u.ip.toNat (min 4 (u.inLen.toNat - u.ip.toNat))) = .ok i n →
    step s = exec i { u with ip := u.ip + BitVec.ofNat 32 (n / 8) }

/-- A step in the engine (R163, R126) runs the code the decoder reads from the input bit string at the position of the
next code, with the position moved past it and the code in `code` (log entries 6, 18). -/
def Obligations.StepRunsCode : Prop :=
  ∀ (s u : State) (c : Ctx) (i : Instr) (n : Nat), Moves s u → u.phase = .payload →
    (u.stage = .lzw0 ∧ u.entry.toNat = 0x0101 ∧ c = .first ∨
      u.stage = .lzw ∧ u.outN.toNat < u.rleLen.toNat ∧ c = .code u.variant u.entry) →
    0x0101 ≤ u.entry.toNat → u.entry.toNat ≤ 0x1000 → ResidueOk u → u.ip.toNat ≤ u.inLen.toNat →
    decode c (8 * u.inLen.toNat - u.bitPos) (u.inField u.bitPos 16) = .ok i n →
    step s = exec i { u with
      code := BitVec.ofNat 12 (u.inField u.bitPos n)
      startBit := BitVec.ofNat 3 ((u.bitPos + n) % 8)
      ip := BitVec.ofNat 32 (byteAfter (u.bitPos + n))
      lastByte := u.readIn (byteAfter (u.bitPos + n) - 1) }

/-- A step in the RLE expander (R146) runs the token the decoder reads from the span at `rle_in`, with `rle_in` moved
past it (log entries 13, 18). -/
def Obligations.StepRunsToken : Prop :=
  ∀ (s u : State) (i : Instr) (n : Nat), Moves s u → u.phase = .payload → u.stage = .rle → u.rleOut.toNat < 4096 →
    (u.lzwUsed = false → u.ip.toNat + u.rleLen.toNat ≤ u.inLen.toNat) →
    decode (.rle u.escape) (8 * (u.rleLen.toNat - u.rleIn.toNat))
      (leBytes u.spanByte u.rleIn.toNat (min 3 (u.rleLen.toNat - u.rleIn.toNat))) = .ok i n →
    step s = exec i { u with rleIn := u.rleIn + BitVec.ofNat 13 (n / 8) }

/-- A step where an operation with no bits of its own is due runs it (R105, R190, R196). -/
def Obligations.StepRunsInternal : Prop :=
  ∀ s u : State, Moves s u →
    (u.phase = .payload → u.stage = .choose → u.lzwUsed = false → u.rleUsed = false → step s = exec .rawblk u) ∧
    (u.phase = .crc → step s = exec .crcblk u) ∧
    (u.phase = .emit → step s = exec .emitblk u) ∧
    (u.phase = .verify → step s = exec .verify u)

/-! ### Headers -/

/-- THDR1 and THDR2 (R191, R192, R190): the registers they load, and the phase that follows. -/
def Obligations.ThreadHeaders : Prop :=
  ∀ (s : State) (crc : BitVec 16) (volume escape : Byte),
    (s.variant = .lzw1 → exec (.thdr1 crc volume escape) s = .next { s with
      hdrCrc := crc, volume := volume, escape := escape
      phase := if s.uncompRemaining = 0 then .verify else .bhdr }) ∧
    (s.variant = .lzw2 → exec (.thdr2 volume escape) s = .next { s with
      volume := volume, escape := escape
      phase := if s.uncompRemaining = 0 then .done else .bhdr })

/-- The bytes of the four headers (R91 to R94, R60, R35): where they are there, the step runs the header with the fields
of its format. -/
def Obligations.HeaderFields : Prop :=
  ∀ s u : State, Moves s u →
    (u.phase = .thdr → u.variant = .lzw1 → u.ip.toNat + 4 ≤ u.inLen.toNat →
      step s = exec (.thdr1 (u.in16 u.ip.toNat) (u.readIn (u.ip.toNat + 2)) (u.readIn (u.ip.toNat + 3)))
        { u with ip := u.ip + 4 }) ∧
    (u.phase = .thdr → u.variant = .lzw2 → u.ip.toNat + 2 ≤ u.inLen.toNat →
      step s = exec (.thdr2 (u.readIn u.ip.toNat) (u.readIn (u.ip.toNat + 1))) { u with ip := u.ip + 2 }) ∧
    (u.phase = .bhdr → u.variant = .lzw1 → u.ip.toNat + 3 ≤ u.inLen.toNat →
      step s = exec (.bhdr1 (u.in16 u.ip.toNat) (u.readIn (u.ip.toNat + 2))) { u with ip := u.ip + 3 }) ∧
    (u.phase = .bhdr → u.variant = .lzw2 → u.ip.toNat + 2 ≤ u.inLen.toNat →
      (u.in16 u.ip.toNat).getLsbD 15 = false →
      step s = exec (.bhdr2 (u.in16 u.ip.toNat) none) { u with ip := u.ip + 2 }) ∧
    (u.phase = .bhdr → u.variant = .lzw2 → u.ip.toNat + 4 ≤ u.inLen.toNat →
      (u.in16 u.ip.toNat).getLsbD 15 = true →
      step s = exec (.bhdr2 (u.in16 u.ip.toNat) (some (u.in16 (u.ip.toNat + 2)))) { u with ip := u.ip + 4 })

/-- A header that `IN` does not hold whole (R226, R236, R238): `InputUnderrun(IN_LEN)`, with `ip` at the byte that does
not exist and with the writes made before it. -/
def Obligations.HeaderUnderrun : Prop :=
  ∀ s u : State, Moves s u → u.ip.toNat ≤ u.inLen.toNat →
    (u.phase = .thdr → u.variant = .lzw1 → u.inLen.toNat < u.ip.toNat + 4 →
      step s = .next { u with
        hdrCrc := if u.ip.toNat + 2 ≤ u.inLen.toNat then u.in16 u.ip.toNat else u.hdrCrc
        volume := if u.ip.toNat + 3 ≤ u.inLen.toNat then u.readIn (u.ip.toNat + 2) else u.volume
        ip := u.inLen, cause := 6, info := u.inLen, phase := .fault }) ∧
    (u.phase = .thdr → u.variant = .lzw2 → u.inLen.toNat < u.ip.toNat + 2 →
      step s = .next { u with
        volume := if u.ip.toNat + 1 ≤ u.inLen.toNat then u.readIn u.ip.toNat else u.volume
        ip := u.inLen, cause := 6, info := u.inLen, phase := .fault }) ∧
    (u.phase = .bhdr → u.variant = .lzw1 → u.inLen.toNat < u.ip.toNat + 3 →
      step s = .next { u with
        rleLen := if u.ip.toNat + 2 ≤ u.inLen.toNat then u.in16 u.ip.toNat else u.rleLen
        ip := u.inLen, cause := 6, info := u.inLen, phase := .fault }) ∧
    (u.phase = .bhdr → u.variant = .lzw2 → u.inLen.toNat < u.ip.toNat + 2 →
      step s = .next { u with ip := u.inLen, cause := 6, info := u.inLen, phase := .fault }) ∧
    (u.phase = .bhdr → u.variant = .lzw2 → u.ip.toNat + 2 ≤ u.inLen.toNat → u.inLen.toNat < u.ip.toNat + 4 →
      (u.in16 u.ip.toNat).getLsbD 15 = true →
      step s = .next { u with
        lzwUsed := true, rleLen := u.in16 u.ip.toNat &&& 0x1FFF
        ip := u.inLen, cause := 6, info := u.inLen, phase := .fault })

/-- BHDR1 (R193, R195, R236): the flag is checked before the length. `lzw_length` becomes a free value (log entry 2). -/
def Obligations.BlockHeader1 : Prop :=
  ∀ (s : State) (rleLen : BitVec 16) (flag : Byte),
    (1 < flag.toNat → exec (.bhdr1 rleLen flag) s = .next { s with
      rleLen := rleLen, cause := 5, info := flag.setWidth 32, phase := .fault }) ∧
    (flag.toNat ≤ 1 → 4096 < rleLen.toNat → ∃ v, exec (.bhdr1 rleLen flag) s = .next { s with
      rleLen := rleLen, lzwUsed := flag == 1, lzwLength := v, freeCount := s.freeCount + 1
      cause := 7, info := rleLen.setWidth 32, phase := .fault }) ∧
    (flag.toNat ≤ 1 → rleLen.toNat ≤ 4096 → ∃ v, exec (.bhdr1 rleLen flag) s = .next { s with
      rleLen := rleLen, lzwUsed := flag == 1, lzwLength := v, freeCount := s.freeCount + 1
      rleUsed := rleLen != 4096, writeLen := BitVec.ofNat 13 (min 4096 s.uncompRemaining.toNat)
      phase := .payload, stage := .choose })

/-- BHDR2 (R194, R195, R101, R109): bits 14 and 13 of the word have no effect. Without LZW `lzw_length` becomes a free
value (log entry 2). -/
def Obligations.BlockHeader2 : Prop :=
  ∀ (s : State) (word len : BitVec 16),
    (word.getLsbD 15 = true → 4096 < word.toNat % 8192 → exec (.bhdr2 word (some len)) s = .next { s with
      rleLen := word &&& 0x1FFF, lzwUsed := true, lzwLength := len
      cause := 7, info := BitVec.ofNat 32 (word.toNat % 8192), phase := .fault }) ∧
    (word.getLsbD 15 = true → word.toNat % 8192 ≤ 4096 → exec (.bhdr2 word (some len)) s = .next { s with
      rleLen := word &&& 0x1FFF, lzwUsed := true, lzwLength := len
      rleUsed := word.toNat % 8192 != 4096, writeLen := BitVec.ofNat 13 (min 4096 s.uncompRemaining.toNat)
      phase := .payload, stage := .choose }) ∧
    (word.getLsbD 15 = false → 4096 < word.toNat % 8192 → ∃ v, exec (.bhdr2 word none) s = .next { s with
      rleLen := word &&& 0x1FFF, lzwUsed := false, lzwLength := v, freeCount := s.freeCount + 1
      cause := 7, info := BitVec.ofNat 32 (word.toNat % 8192), phase := .fault }) ∧
    (word.getLsbD 15 = false → word.toNat % 8192 ≤ 4096 → ∃ v, exec (.bhdr2 word none) s = .next { s with
      rleLen := word &&& 0x1FFF, lzwUsed := false, lzwLength := v, freeCount := s.freeCount + 1
      rleUsed := word.toNat % 8192 != 4096, writeLen := BitVec.ofNat 13 (min 4096 s.uncompRemaining.toNat)
      phase := .payload, stage := .choose })

/-! ### Payload paths -/

/-- RAWBLK (R203, R201): the next 4096 bytes of `IN` become the block, or `InputUnderrun`; in LZW/2 the table is reset
first in both. -/
def Obligations.RawBlock : Prop :=
  ∀ s : State,
    let entry := if s.variant = .lzw2 then 0x0101 else s.entry
    let fix := if s.variant = .lzw2 then false else s.resetFix
    (s.ip.toNat + 4096 ≤ s.inLen.toNat → ∃ m, exec .rawblk s = .next { s with
        entry := entry, resetFix := fix, blk := m, ip := s.ip + 4096
        phase := if s.variant = .lzw1 then .crc else .emit } ∧
      ∀ j < 4096, slotGet? m j = some (s.readIn (s.ip.toNat + j))) ∧
    (s.inLen.toNat < s.ip.toNat + 4096 → exec .rawblk s = .next { s with
      entry := entry, resetFix := fix, cause := 6, info := s.inLen, phase := .fault })

/-- The start of an engine invocation (R200, R161, R162): LZW/1 always begins with a first literal; LZW/2 does exactly on
a clearing entry, and forgets `resetFix`. The model's own choices in it: `last_byte`, which the rules make `undef`, becomes
a free value (log entry 2), drawn by the counter `freeCount` (log entry 3), and `stage` is the model's place inside PAYLOAD
(log entry 5). -/
def Obligations.EngineStart : Prop :=
  ∀ s u : State, Moves s u → u.phase = .payload → u.stage = .choose → u.lzwUsed = true →
    (u.variant = .lzw1 → ∃ v, step s = .next { u with
      blkIp0 := u.ip, startBit := 0, lastByte := v, freeCount := u.freeCount + 1, outN := 0, sp := 0
      entry := 0x0101, stage := .lzw0 }) ∧
    (u.variant = .lzw2 → ∃ v, step s = .next { u with
      blkIp0 := u.ip, startBit := 0, lastByte := v, freeCount := u.freeCount + 1, outN := 0, sp := 0
      resetFix := false, stage := if u.entry = 0x0101 ∧ u.resetFix = false then .lzw0 else .lzw })

/-- The RLE-only path (R202, R201): the bound check for the whole span comes before the expander starts.
`stage` is the model's place inside PAYLOAD (log entry 5). -/
def Obligations.RleOnlyStart : Prop :=
  ∀ s u : State, Moves s u → u.phase = .payload → u.stage = .choose → u.lzwUsed = false → u.rleUsed = true →
    let entry := if u.variant = .lzw2 then 0x0101 else u.entry
    let fix := if u.variant = .lzw2 then false else u.resetFix
    (u.ip.toNat + u.rleLen.toNat ≤ u.inLen.toNat → step s = .next { u with
      entry := entry, resetFix := fix, rleIn := 0, rleOut := 0, stage := .rle }) ∧
    (u.inLen.toNat < u.ip.toNat + u.rleLen.toNat → step s = .next { u with
      entry := entry, resetFix := fix, cause := 6, info := u.inLen, phase := .fault })

/-- The engine's normal end (R175, R199, R197, R198): in LZW/2 the bytes consumed plus 4 must be `lzw_length`; then the
RLE expander starts, or `SCR` becomes the block. `stage` is the model's place inside PAYLOAD (log entry 5). -/
def Obligations.EngineEnd : Prop :=
  ∀ s u : State, Moves s u → u.phase = .payload → u.stage = .lzw → u.rleLen.toNat ≤ u.outN.toNat →
    (u.variant = .lzw2 → (u.ip - u.blkIp0).toNat + 4 ≠ u.lzwLength.toNat → step s = .next { u with
      cause := 3, info := ((u.ip - u.blkIp0) <<< 16) ||| u.lzwLength.setWidth 32, phase := .fault }) ∧
    ((u.variant = .lzw2 → (u.ip - u.blkIp0).toNat + 4 = u.lzwLength.toNat) → u.rleUsed = true →
      step s = .next { u with rleIn := 0, rleOut := 0, stage := .rle }) ∧
    ((u.variant = .lzw2 → (u.ip - u.blkIp0).toNat + 4 = u.lzwLength.toNat) → u.rleUsed = false →
      ∃ m, step s = .next { u with blk := m, phase := if u.variant = .lzw1 then .crc else .emit } ∧
        ∀ j, slotGet? m j = slotGet? u.scr j)

/-! ### The bit reader -/

/-- GETCODE where the code is there (R122, R124, R125, R126): bit `j` of the code is bit `j` of the input bit string from
the position of the next code on, and the position moves by the width. That the code is kept in a register
`code` is the model's choice (log entry 6). -/
def Obligations.GetcodeReadsTheBits : Prop :=
  ∀ (s : State) (w : Nat), 0x0101 ≤ s.entry.toNat → s.entry.toNat ≤ 0x1000 → codeWidth s.entry = some w →
    ResidueOk s → s.bitPos + w ≤ 8 * s.inLen.toNat →
    ∃ ip sb lb code, exec .getcode s = .next { s with ip := ip, startBit := sb, lastByte := lb, code := code } ∧
      (∀ j < 12, code.getLsbD j = (decide (j < w) && s.inBit (s.bitPos + j))) ∧
      State.bitPos { s with ip := ip, startBit := sb } = s.bitPos + w ∧
      ip.toNat = byteAfter (s.bitPos + w) ∧
      sb.toNat = (s.startBit.toNat + w) % 8 ∧
      ip.toNat = s.ip.toNat + (if s.startBit.toNat = 0 ∨ 16 < s.startBit.toNat + w then 2 else 1) ∧
      lb = s.readIn (ip.toNat - 1)

/-- GETCODE where `IN` ends inside the code (R128, R226). -/
def Obligations.GetcodeUnderrun : Prop :=
  ∀ (s : State) (w : Nat), 0x0101 ≤ s.entry.toNat → s.entry.toNat ≤ 0x1000 → codeWidth s.entry = some w →
    ResidueOk s → s.ip.toNat ≤ s.inLen.toNat → 8 * s.inLen.toNat < s.bitPos + w →
    exec .getcode s = .next { s with ip := s.inLen, cause := 6, info := s.inLen, phase := .fault }

/-! ### The LZW engine -/

/-- LIT0 (R164, R221): a first literal is emitted and becomes `old` and `final`; nothing is recorded. `stage` is
the model's place inside PAYLOAD (log entry 5). -/
def Obligations.FirstLiteral : Prop :=
  ∀ (s : State) (code : Code),
    (255 < code.toNat → exec (.lit0 code) s = .next { s with
      cause := 1, info := code.setWidth 32, phase := .fault }) ∧
    (code.toNat ≤ 255 → s.rleLen.toNat ≤ s.outN.toNat → exec (.lit0 code) s = .next { s with
      finalByte := code.setWidth 8, old := code, cause := 9, info := s.outN.setWidth 32, phase := .fault }) ∧
    (code.toNat ≤ 255 → s.outN.toNat < s.rleLen.toNat → s.rleLen.toNat ≤ 4096 →
      ∃ m, exec (.lit0 code) s = .next { s with
          finalByte := code.setWidth 8, old := code, scr := m, outN := s.outN + 1, stage := .lzw } ∧
        Stored s.scr m s.outN.toNat [code.setWidth 8])

/-- LIT (R165, R171, R173, R174, R176). -/
def Obligations.MainLoopLiteral : Prop :=
  ∀ (s : State) (b : Byte), s.sp = 0 → s.rleLen.toNat ≤ 4096 → 0x0101 ≤ s.entry.toNat → s.entry.toNat ≤ 0x1000 →
    (s.outN.toNat < s.rleLen.toNat → s.entry.toNat < 0x1000 →
      ∃ m c p, exec (.lit b) s = .next { s with
          finalByte := b, scr := m, outN := s.outN + 1, tch := c, tpr := p, entry := s.entry + 1
          old := b.setWidth 12 } ∧
        Stored s.scr m s.outN.toNat [b] ∧ Stored s.tch c (s.entry.toNat - 256) [b] ∧
        Stored s.tpr p (s.entry.toNat - 256) [s.old]) ∧
    (s.outN.toNat < s.rleLen.toNat → s.entry.toNat = 0x1000 →
      ∃ m, exec (.lit b) s = .next { s with
          finalByte := b, scr := m, outN := s.outN + 1, cause := 10, info := 0x1000, phase := .fault } ∧
        Stored s.scr m s.outN.toNat [b]) ∧
    (s.rleLen.toNat ≤ s.outN.toNat → exec (.lit b) s = .next { s with
      finalByte := b, cause := 9, info := s.outN.setWidth 32, phase := .fault })

/-- REF (R166, R179, R173, R174, R176): the string of the code goes to `SCR`, and the next table slot gets `old` and the
string's first byte. Where there is room only the work stack's contents, which no rule reads afterwards, are left open.
Where the string overruns the block, `SCR`, `out_n` and `sp` are left open too: how much of the string was emitted before
the fault is not said. -/
def Obligations.TableReference : Prop :=
  ∀ (s : State) (code : Code), TableOk s → 0x0101 ≤ code.toNat → code.toNat < s.entry.toNat → s.sp = 0 →
    s.outN.toNat ≤ s.rleLen.toNat → s.rleLen.toNat ≤ 4096 →
    (s.outN.toNat + (s.str code).length ≤ s.rleLen.toNat → s.entry.toNat < 0x1000 →
      ∃ m d c p, exec (.ref code) s = .next { s with
          finalByte := s.strHead code, scr := m, outN := s.outN + BitVec.ofNat 13 (s.str code).length
          stk := d, tch := c, tpr := p, entry := s.entry + 1, old := code } ∧
        Stored s.scr m s.outN.toNat (s.str code) ∧ Stored s.tch c (s.entry.toNat - 256) [s.strHead code] ∧
        Stored s.tpr p (s.entry.toNat - 256) [s.old]) ∧
    (s.outN.toNat + (s.str code).length ≤ s.rleLen.toNat → s.entry.toNat = 0x1000 →
      ∃ m d, exec (.ref code) s = .next { s with
          finalByte := s.strHead code, scr := m, outN := s.outN + BitVec.ofNat 13 (s.str code).length
          stk := d, cause := 10, info := 0x1000, phase := .fault } ∧
        Stored s.scr m s.outN.toNat (s.str code)) ∧
    (s.rleLen.toNat < s.outN.toNat + (s.str code).length →
      ∃ m n d k, exec (.ref code) s = .next { s with
        finalByte := s.strHead code, scr := m, outN := n, stk := d, sp := k
        cause := 9, info := s.rleLen.setWidth 32, phase := .fault })

/-- KWK (R172): the string of `old` and then its first byte go to `SCR`, the same string becomes code `entry`, and
`old` becomes the code. Where there is room only the work stack's contents are left open; where the string overruns the
block, `SCR`, `out_n` and `sp` are left open too. -/
def Obligations.KwKwK : Prop :=
  ∀ (s : State) (code : Code), TableOk s → OldOk s → s.finalByte = s.strHead s.old → code.toNat = s.entry.toNat →
    s.sp = 0 → s.outN.toNat ≤ s.rleLen.toNat → s.rleLen.toNat ≤ 4096 →
    (s.outN.toNat + (s.str s.old).length + 1 ≤ s.rleLen.toNat →
      ∃ m d c p, exec (.kwk code) s = .next { s with
          scr := m, outN := s.outN + BitVec.ofNat 13 ((s.str s.old).length + 1)
          stk := d, tch := c, tpr := p, entry := s.entry + 1, old := code } ∧
        Stored s.scr m s.outN.toNat (s.str s.old ++ [s.strHead s.old]) ∧
        Stored s.tch c (s.entry.toNat - 256) [s.strHead s.old] ∧
        Stored s.tpr p (s.entry.toNat - 256) [s.old] ∧
        State.str { s with tch := c, tpr := p } code = s.str s.old ++ [s.strHead s.old]) ∧
    (s.rleLen.toNat < s.outN.toNat + (s.str s.old).length + 1 →
      ∃ m n d k, exec (.kwk code) s = .next { s with
        scr := m, outN := n, stk := d, sp := k
        cause := 9, info := s.rleLen.setWidth 32, phase := .fault })

/-- CLR (R168, R169, R38): the table is reset, the next nine bits are the literal, and `resetFix` is set where that literal
fills the block. The model's own choices in it: `need_clear` is kept, and stays true where CLR faults (R38 lets a model
keep it; log entry 7), and `code` holds the literal's code (log entry 6). -/
def Obligations.ClearCode : Prop :=
  ∀ s : State, ResidueOk s → s.ip.toNat ≤ s.inLen.toNat → s.outN.toNat < s.rleLen.toNat → s.rleLen.toNat ≤ 4096 →
    let v := s.inField s.bitPos 9
    let sb := BitVec.ofNat 3 ((s.bitPos + 9) % 8)
    let ip := BitVec.ofNat 32 (byteAfter (s.bitPos + 9))
    let lb := s.readIn (byteAfter (s.bitPos + 9) - 1)
    (s.bitPos + 9 ≤ 8 * s.inLen.toNat → v ≤ 255 →
      ∃ m, exec .clr s = .next { s with
          entry := 0x0101, code := BitVec.ofNat 12 v, startBit := sb, ip := ip, lastByte := lb
          old := BitVec.ofNat 12 v, finalByte := BitVec.ofNat 8 v, scr := m, outN := s.outN + 1, needClear := false
          resetFix := if s.outN.toNat + 1 = s.rleLen.toNat then true else s.resetFix } ∧
        Stored s.scr m s.outN.toNat [BitVec.ofNat 8 v]) ∧
    (s.bitPos + 9 ≤ 8 * s.inLen.toNat → 255 < v → exec .clr s = .next { s with
      entry := 0x0101, code := BitVec.ofNat 12 v, startBit := sb, ip := ip, lastByte := lb, needClear := true
      cause := 1, info := BitVec.ofNat 32 v, phase := .fault }) ∧
    (8 * s.inLen.toNat < s.bitPos + 9 → exec .clr s = .next { s with
      entry := 0x0101, needClear := true, ip := s.inLen, cause := 6, info := s.inLen, phase := .fault })

/-- BAD (R170): a main-loop code above `entry` is BAD, and BAD raises `BadCode(code)`; nothing is emitted or recorded,
and `entry` is still readable. -/
def Obligations.BadCode : Prop :=
  ∀ (s : State) (code : Code),
    (0x0101 ≤ s.entry.toNat → s.entry.toNat < code.toNat → classify s.variant s.entry code = .bad code) ∧
    exec (.bad code) s = .next { s with cause := 2, info := code.setWidth 32, phase := .fault }

/-- RSV (R167): code 0x0100 in the main loop of LZW/1 raises `ReservedCode(0x0100)`. -/
def Obligations.ReservedCode : Prop :=
  ∀ s : State,
    (s.variant = .lzw1 → classify s.variant s.entry 0x100#12 = .rsv) ∧
    exec .rsv s = .next { s with cause := 11, info := 0x0100, phase := .fault }

/-- The frame of the code operations (R160, R40): whether they run to their end or raise, they leave every register but
those listed as it was, every slot of `SCR` outside the bytes they emitted, and every slot of the table but that of
`entry`. LIT0 and CLR write no table slot at all. -/
def Obligations.CodeFrame : Prop :=
  ∀ (s t : State) (i : Instr), (∃ c, i = .lit0 c) ∨ (∃ b, i = .lit b) ∨ (∃ c, i = .ref c) ∨ (∃ c, i = .kwk c) ∨
      i = .clr ∨ (∃ c, i = .bad c) ∨ i = .rsv →
    exec i s = .next t →
    t = { s with
      phase := t.phase, stage := t.stage, cause := t.cause, info := t.info, ip := t.ip, startBit := t.startBit
      lastByte := t.lastByte, entry := t.entry, old := t.old, finalByte := t.finalByte, code := t.code
      resetFix := t.resetFix, needClear := t.needClear, outN := t.outN, sp := t.sp, tch := t.tch, tpr := t.tpr
      stk := t.stk, scr := t.scr } ∧
    s.outN.toNat ≤ t.outN.toNat ∧
    (∀ j, j < s.outN.toNat ∨ t.outN.toNat ≤ j → slotGet? t.scr j = slotGet? s.scr j) ∧
    (∀ j, j ≠ s.entry.toNat - 256 → slotGet? t.tch j = slotGet? s.tch j ∧ slotGet? t.tpr j = slotGet? s.tpr j) ∧
    ((∃ c, i = .lit0 c) ∨ i = .clr → t.tch = s.tch ∧ t.tpr = s.tpr) ∧
    (i ≠ .clr → t.ip = s.ip ∧ t.startBit = s.startBit ∧ t.lastByte = s.lastByte ∧ t.resetFix = s.resetFix)

/-- The length of a recorded string (R179): at least 2 and at most `c - 0x00FF`. -/
def Obligations.StringLength : Prop :=
  ∀ (s : State) (c : Code), TableOk s → 0x0101 ≤ c.toNat → c.toNat < s.entry.toNat →
    2 ≤ (s.str c).length ∧ (s.str c).length ≤ c.toNat - 0x00FF

/-- What `Record` defines (R179): after LIT or REF the string of the new code is the string of `old` and then the first
byte of the string just emitted, and every code known before keeps its string. -/
def Obligations.RecordDefinesTheString : Prop :=
  ∀ (s t : State) (i : Instr) (code : Code), TableOk s → OldOk s → s.sp = 0 → s.rleLen.toNat ≤ 4096 →
    s.outN.toNat ≤ s.rleLen.toNat →
    (code.toNat ≤ 255 ∧ i = .lit (code.setWidth 8) ∨
      0x0101 ≤ code.toNat ∧ code.toNat < s.entry.toNat ∧ i = .ref code) →
    exec i s = .next t → t.phase ≠ .fault →
    TableOk t ∧ t.entry.toNat = s.entry.toNat + 1 ∧
      t.str (s.entry.setWidth 12) = s.str s.old ++ [s.strHead code] ∧
      ∀ c, Known s c → t.str c = s.str c

/-! ### The RLE expander -/

/-- RLIT (the write and the increment of R147): with `rle_out` below 4096, as the loop of R146 leaves it, the byte goes to
`BLK[rle_out]`, and `rle_out` moves by one. -/
def Obligations.RleLiteral : Prop :=
  ∀ (s : State) (u : Byte), s.rleOut.toNat < 4096 →
    ∃ m, exec (.rlit u) s = .next { s with blk := m, rleOut := s.rleOut + 1 } ∧ Stored s.blk m s.rleOut.toNat [u]

/-- RRUN (R148, R103, R118): `count + 1` copies of `ch`, truncated at the end of the block. -/
def Obligations.RleRun : Prop :=
  ∀ (s : State) (ch count : Byte), s.rleOut.toNat < 4096 →
    let n := min (count.toNat + 1) (4096 - s.rleOut.toNat)
    ∃ m r, exec (.rrun ch count) s = .next { s with blk := m, rleOut := r } ∧
      Stored s.blk m s.rleOut.toNat (List.replicate n ch) ∧ r.toNat = s.rleOut.toNat + n

/-- The reads of the expander (R146, R149): the byte that is not the escape byte is a literal, the escape byte takes two
more, and a token the span does not hold whole raises `RleInputUnderrun(rle_len)`. -/
def Obligations.RleTokens : Prop :=
  ∀ s u : State, Moves s u → u.phase = .payload → u.stage = .rle → u.rleOut.toNat < 4096 →
    u.rleIn.toNat ≤ u.rleLen.toNat → u.rleLen.toNat ≤ 4096 →
    (u.lzwUsed = false → u.ip.toNat + u.rleLen.toNat ≤ u.inLen.toNat) →
    let b := u.spanByte u.rleIn.toNat
    (u.rleIn.toNat + 1 ≤ u.rleLen.toNat → b ≠ u.escape →
      step s = exec (.rlit b) { u with rleIn := u.rleIn + 1 }) ∧
    (u.rleIn.toNat + 3 ≤ u.rleLen.toNat → b = u.escape →
      step s = exec (.rrun (u.spanByte (u.rleIn.toNat + 1)) (u.spanByte (u.rleIn.toNat + 2)))
        { u with rleIn := u.rleIn + 3 }) ∧
    (u.rleIn.toNat = u.rleLen.toNat ∨ (b = u.escape ∧ u.rleLen.toNat < u.rleIn.toNat + 3) →
      step s = .next { u with
        rleIn := u.rleLen.setWidth 13, cause := 8, info := u.rleLen.setWidth 32, phase := .fault })

/-- The expander's end (R146, R150, R202, R35): at 4096 bytes the block is complete, whatever is left of the span, and on
the RLE-only path `ip` moves by the whole `rle_len`. -/
def Obligations.RleEnd : Prop :=
  ∀ s u : State, Moves s u → u.phase = .payload → u.stage = .rle → u.rleOut.toNat = 4096 →
    step s = .next { u with
      ip := if u.lzwUsed then u.ip else u.ip + u.rleLen.setWidth 32
      phase := if u.variant = .lzw1 then .crc else .emit }

/-! ### CRC, emission, verification -/

/-- CRCBYTE (R136): it changes the accumulator alone, and the loop gives what the table form the rule names gives. -/
def Obligations.CrcByteTableForm : Prop :=
  (∀ (s : State) (b : Byte), exec (.crcbyte b) s = .next { s with crcAcc := crcByte s.crcAcc b }) ∧
  ∀ (crc : BitVec 16) (b : Byte),
    crcByte crc b = (crc <<< 8) ^^^ crcByte 0 ((crc >>> 8).setWidth 8 ^^^ b)

/-- CRCBYTE takes a byte's bits most significant first (R62, R135): it is the bit-serial division by the polynomial, one
bit after another from bit 7 down. -/
def Obligations.CrcByteIsBitSerial : Prop :=
  ∀ (crc : BitVec 16) (b : Byte),
    crcByte crc b = [7, 6, 5, 4, 3, 2, 1, 0].foldl
      (fun (c : BitVec 16) (k : Nat) => (c <<< 1) ^^^ (if c.getLsbD 15 != b.getLsbD k then 0x1021 else 0)) crc

/-- CRCBYTE is linear over exclusive or (R139 (b)). -/
def Obligations.CrcByteIsLinear : Prop :=
  ∀ (c1 c2 : BitVec 16) (b1 b2 : Byte), crcByte (c1 ^^^ c2) (b1 ^^^ b2) = crcByte c1 b1 ^^^ crcByte c2 b2

/-- CRCBLK (R204, R137, R138, R190): all 4096 bytes of the block, in index order, whatever `write_len` is. -/
def Obligations.CrcBlock : Prop :=
  ∀ s : State, exec .crcblk s = .next { s with
    crcAcc := (List.range 4096).foldl (fun crc i => crcByte crc (s.readBlk i)) s.crcAcc
    phase := .emit }

/-- EMITBLK (R205, R206, R190): `write_len` bytes are appended to `OUT` and counted, and the next phase is decided. -/
def Obligations.EmitBlock : Prop :=
  ∀ s : State, s.writeLen.toNat ≤ s.uncompRemaining.toNat →
    ∃ r, exec .emitblk s = .next { s with
        out := s.out ++ (List.range s.writeLen.toNat).map s.readBlk, uncompRemaining := r
        phase := if s.writeLen.toNat < s.uncompRemaining.toNat then .bhdr
          else if s.variant = .lzw1 then .verify else .done } ∧
      r.toNat = s.uncompRemaining.toNat - s.writeLen.toNat

/-- VERIFY (R207, R140, R208): DONE where the accumulator is the header's CRC, else `CrcMismatch`. -/
def Obligations.VerifyCrc : Prop :=
  ∀ s : State,
    (s.crcAcc = s.hdrCrc → exec .verify s = .next { s with phase := .done }) ∧
    (s.crcAcc ≠ s.hdrCrc → exec .verify s = .next { s with
      cause := 4, info := s.crcAcc ++ s.hdrCrc, phase := .fault })

/-! ### The sequencer, faults, START and reset -/

/-- The transitions of R190, with the conditions on the state that decide them: no step of the machine makes another. -/
def Obligations.PhaseTransitions : Prop :=
  ∀ s u t : State, Moves s u → step s = .next t →
    match u.phase, t.phase with
    | .idle, p => p = .idle
    | .done, p => p = .done
    | .fault, p => p = .fault
    | .thdr, .bhdr => u.uncompRemaining ≠ 0
    | .thdr, .verify => u.uncompRemaining = 0 ∧ u.variant = .lzw1
    | .thdr, .done => u.uncompRemaining = 0 ∧ u.variant = .lzw2
    | .bhdr, .payload => t.rleLen.toNat ≤ 4096
    | .payload, .payload => True
    | .payload, .crc => u.variant = .lzw1
    | .payload, .emit => u.variant = .lzw2
    | .crc, .emit => True
    | .emit, .bhdr => t.uncompRemaining ≠ 0
    | .emit, .verify => t.uncompRemaining = 0 ∧ u.variant = .lzw1
    | .emit, .done => t.uncompRemaining = 0 ∧ u.variant = .lzw2
    | .verify, .done => u.crcAcc = u.hdrCrc
    | .thdr, .fault => True
    | .bhdr, .fault => True
    | .payload, .fault => True
    | .verify, .fault => u.crcAcc ≠ u.hdrCrc
    | _, _ => False

/-- What a fault leaves (R238, R220, R226, R240): a cause of the table, raised where the table says, and `OUT`, what
is left to emit and the thread's arguments as they were. -/
def Obligations.FaultEntry : Prop :=
  ∀ s u t : State, Moves s u → step s = .next t → u.phase ≠ .fault → t.phase = .fault →
    t.status = .fault ∧ 1 ≤ t.cause.toNat ∧ t.cause.toNat ≤ 11 ∧
    t.out = u.out ∧ t.uncompRemaining = u.uncompRemaining ∧
    t.variant = u.variant ∧ t.usize = u.usize ∧ t.inLen = u.inLen ∧ t.input = u.input ∧
    (t.cause.toNat = 6 → t.info = t.inLen ∧ u.phase ≠ .verify) ∧
    (t.cause.toNat = 5 → u.phase = .bhdr ∧ u.variant = .lzw1) ∧
    (t.cause.toNat = 7 → u.phase = .bhdr ∧ 4096 < t.rleLen.toNat) ∧
    (t.cause.toNat = 4 → u.phase = .verify) ∧
    (t.cause.toNat ∈ [1, 2, 3, 8, 9, 10, 11] → u.phase = .payload) ∧
    (t.cause.toNat = 3 → u.variant = .lzw2) ∧ (t.cause.toNat = 11 → u.variant = .lzw1)

/-- What a fault leaves in `OUT` (R240): the bytes of the blocks before the faulting one, and after a `CrcMismatch` all
of them. -/
def Obligations.FaultKeepsWholeBlocks : Prop :=
  ∀ s u t : State, Inv s → WholeBlocks s → Moves s u → step s = .next t → u.status = .busy → t.phase = .fault →
    t.out = s.out ∧
    (t.cause.toNat ≠ 4 → ∃ k, t.out.length = 4096 * k) ∧
    (t.cause.toNat = 4 → t.out.length = t.usize.toNat)

/-- `cause` and `info` are written by a `raise` of a running thread, and by START and hardware reset, by nothing else
(R241, R242): in FAULT, as in IDLE and DONE, a step that is left to the machine changes nothing. -/
def Obligations.CauseIsSticky : Prop :=
  (∀ s u : State, Moves s u → u.status ≠ .busy → step s = .next u) ∧
  (∀ s u t : State, Moves s u → step s = .next t → t.cause ≠ u.cause ∨ t.info ≠ u.info →
    u.status = .busy ∧ t.phase = .fault)

/-- START (R252): accepted in IDLE, DONE and FAULT. What the rule calls `undef` is a free value (log entry 2), of which
nothing is said; every slot of the register files is unwritten. That START is the head of the list `inputs`, and that the
rest of the list goes on (`t.inputs = rest`), is the model's choice (log entry 8). -/
def Obligations.StartOfAThread : Prop :=
  ∀ (s : State) (a : StartArgs) (rest : List HostEvent), s.inputs = .start a :: rest → s.status ≠ .busy →
    ∃ t, step s = .next t ∧ t.phase = .thdr ∧ t.cause = 0 ∧
      t.variant = a.variant ∧ t.usize = a.usize ∧ t.inLen = a.inLen ∧ t.input = a.input ∧
      t.ip = 0 ∧ t.startBit = 0 ∧ t.entry = 0x0101 ∧ t.resetFix = false ∧ t.needClear = false ∧ t.sp = 0 ∧
      t.crcAcc = 0x0000 ∧ t.uncompRemaining = a.usize ∧ t.out = [] ∧ t.inputs = rest ∧
      ∀ j, slotGet? t.tch j = none ∧ slotGet? t.tpr j = none ∧ slotGet? t.stk j = none ∧ slotGet? t.scr j = none ∧
        slotGet? t.blk j = none

/-- START while BUSY is not defined (R264): the model refuses it. -/
def Obligations.StartWhileBusyRefused : Prop :=
  ∀ (s : State) (a : StartArgs) (rest : List HostEvent), s.inputs = .start a :: rest → s.status = .busy →
    step s = .refused .startWhileBusy

/-- Hardware reset, in any phase (R250, R190). -/
def Obligations.HardwareReset : Prop :=
  ∀ (s : State) (rest : List HostEvent), s.inputs = .hardReset :: rest →
    ∃ t, step s = .next t ∧ t.phase = .idle ∧ t.cause = 0 ∧ t.sp = 0 ∧ t.needClear = false ∧ t.out = [] ∧
      t.inputs = rest ∧
      ∀ j, slotGet? t.tch j = none ∧ slotGet? t.tpr j = none ∧ slotGet? t.stk j = none ∧ slotGet? t.scr j = none ∧
        slotGet? t.blk j = none

/-- The machine right after reset (R250): the values the rule gives, `status` IDLE, and no slot written. -/
def Obligations.ResetState : Prop :=
  State.reset.phase = .idle ∧ State.reset.status = .idle ∧ State.reset.cause = 0 ∧ State.reset.sp = 0 ∧
  State.reset.needClear = false ∧ State.reset.out = [] ∧ State.reset.tch = [] ∧ State.reset.tpr = [] ∧
  State.reset.stk = [] ∧ State.reset.scr = [] ∧ State.reset.blk = []

/-! ### The whole machine -/

/-- What no step of the machine writes (R20, R81, R69, R43 to R44, R54, R33): the thread's arguments; the thread-header
registers outside THDR; `OUT` and what is left to emit outside EMIT; `crc_acc` outside CRC. -/
def Obligations.WholeMachineFrame : Prop :=
  ∀ s u t : State, Moves s u → step s = .next t →
    t.variant = u.variant ∧ t.usize = u.usize ∧ t.inLen = u.inLen ∧ (∀ a, t.readIn a = u.readIn a) ∧
    (u.phase ≠ .thdr → t.volume = u.volume ∧ t.escape = u.escape ∧ t.hdrCrc = u.hdrCrc) ∧
    (u.variant = .lzw2 → t.hdrCrc = u.hdrCrc) ∧
    (u.phase ≠ .emit → t.out = u.out ∧ t.uncompRemaining = u.uncompRemaining) ∧
    (∃ more, t.out = u.out ++ more) ∧
    (u.phase ≠ .crc → t.crcAcc = u.crcAcc) ∧
    (u.phase ≠ .payload → t.entry = u.entry ∧ t.old = u.old ∧ t.finalByte = u.finalByte ∧ t.tch = u.tch ∧
      t.tpr = u.tpr ∧ t.resetFix = u.resetFix ∧ t.scr = u.scr ∧ t.blk = u.blk)

/-- `ip` only increases, and never passes `IN_LEN` (R35, R36). -/
def Obligations.InputPositionRises : Prop :=
  ∀ s u t : State, Inv s → Moves s u → step s = .next t → u.ip.toNat ≤ t.ip.toNat ∧ t.ip.toNat ≤ t.inLen.toNat

/-- The invariant of the machine (R59) holds in the model's state after reset. Of the registers it speaks of, R250 leaves
`ip`, `IN_LEN`, `USIZE`, `uncomp_remaining` and others `undef`: that they meet it rests on the zeros the model gives them
(DESIGN CHOICE, unsafe, log entry 1). -/
def Obligations.ResetMeetsInv : Prop := Inv State.reset

/-- R59, with what R36, R46, R54 and R208 add: every step, the host's included, keeps the invariant. -/
def Obligations.StepKeepsInv : Prop := ∀ s t : State, Inv s → step s = .next t → Inv t

/-- `final` is the first byte of the string of `old` wherever a main-loop code can come next (R24, R172). -/
def Obligations.StepKeepsFinal : Prop := ∀ s t : State, Inv s → FinalOk s → step s = .next t → FinalOk t

/-- In LZW/1 the accumulator is the CRC of the blocks completed so far, from the initial value 0 (R137, R138). -/
def Obligations.StepKeepsCrc : Prop := ∀ s t : State, Inv s → CrcOk s → step s = .next t → CrcOk t

/-- `OUT` holds whole blocks while a block is being decoded (R205, R206, R240). -/
def Obligations.StepKeepsWholeBlocks : Prop :=
  ∀ s t : State, Inv s → WholeBlocks s → step s = .next t → WholeBlocks t

/-- A running thread never stops short (R178, R59, R110): from a state that meets the invariant a step that is left to
the machine answers a next state. None of the model's own stops is reached. -/
def Obligations.RunningThreadNeverStops : Prop :=
  ∀ s u : State, Inv s → Moves s u → ∃ t, step s = .next t

/-- The work bound falls with every step of a running thread (R246, R180, R151). -/
def Obligations.WorkFalls : Prop :=
  ∀ s u t : State, Inv s → Moves s u → u.status = .busy → step s = .next t → t.work < u.work

/-- Every thread ends (R246, R208): from START in a state that meets the invariant, with nothing further from the host,
the thread reaches DONE or FAULT within a number of steps bounded by a function of `USIZE` alone; in DONE it has
emitted `USIZE` bytes, nothing is left, and in LZW/1 the accumulator equals the header's CRC. -/
def Obligations.EveryThreadEnds : Prop :=
  ∀ (s : State) (a : StartArgs), Inv s → s.status ≠ .busy → s.inputs = [.start a] →
    ∃ n t, n ≤ 20000 * a.usize.toNat + 10004 ∧ stepsFrom n s = some t ∧
      (t.status = .done ∧ t.cause = 0 ∧ t.out.length = a.usize.toNat ∧ t.uncompRemaining = 0 ∧
          (a.variant = .lzw1 → t.crcAcc = t.hdrCrc) ∧ t.ip.toNat ≤ t.inLen.toNat ∨
        t.status = .fault ∧ 1 ≤ t.cause.toNat ∧ t.cause.toNat ≤ 11)

/-- No step reads a slot that nothing has written (R21, R57, R258, R268): whatever the free values are that unwritten
slots read as (they depend on `freeCount`), a step does the same, but for the registers it makes `undef` itself. -/
def Obligations.UnwrittenSlotsAreNeverRead : Prop :=
  ∀ (s u t : State) (n : Nat), Inv s → Moves s u → step s = .next t →
    ∃ m lb len, step { s with freeCount := n } = .next { t with freeCount := m, lastByte := lb, lzwLength := len } ∧
      (t.startBit ≠ 0 → lb = t.lastByte) ∧
      (u.status = .busy → t.phase ≠ .fault → t.lzwUsed = true → t.variant = .lzw2 → len = t.lzwLength)
end

