-- ==== Sys2Proof/Laws/State.lean ====
section
/-! SUPPORT. What each named update of State leaves in each field: one lemma a field, so that no later proof unfolds
a record update. -/

namespace Sys2Proof.Machine

variable (s : State)

/-! ### `raise` (R238) -/

@[simp] theorem State.raised_stage (c : Cause) (v : Nat) : (s.raised c v).stage = s.stage := rfl
@[simp] theorem State.raised_variant (c : Cause) (v : Nat) : (s.raised c v).variant = s.variant := rfl
@[simp] theorem State.raised_usize (c : Cause) (v : Nat) : (s.raised c v).usize = s.usize := rfl
@[simp] theorem State.raised_inLen (c : Cause) (v : Nat) : (s.raised c v).inLen = s.inLen := rfl
@[simp] theorem State.raised_input (c : Cause) (v : Nat) : (s.raised c v).input = s.input := rfl
@[simp] theorem State.raised_ip (c : Cause) (v : Nat) : (s.raised c v).ip = s.ip := rfl
@[simp] theorem State.raised_startBit (c : Cause) (v : Nat) : (s.raised c v).startBit = s.startBit := rfl
@[simp] theorem State.raised_lastByte (c : Cause) (v : Nat) : (s.raised c v).lastByte = s.lastByte := rfl
@[simp] theorem State.raised_entry (c : Cause) (v : Nat) : (s.raised c v).entry = s.entry := rfl
@[simp] theorem State.raised_old (c : Cause) (v : Nat) : (s.raised c v).old = s.old := rfl
@[simp] theorem State.raised_finalByte (c : Cause) (v : Nat) : (s.raised c v).finalByte = s.finalByte := rfl
@[simp] theorem State.raised_code (c : Cause) (v : Nat) : (s.raised c v).code = s.code := rfl
@[simp] theorem State.raised_resetFix (c : Cause) (v : Nat) : (s.raised c v).resetFix = s.resetFix := rfl
@[simp] theorem State.raised_needClear (c : Cause) (v : Nat) : (s.raised c v).needClear = s.needClear := rfl
@[simp] theorem State.raised_outN (c : Cause) (v : Nat) : (s.raised c v).outN = s.outN := rfl
@[simp] theorem State.raised_blkIp0 (c : Cause) (v : Nat) : (s.raised c v).blkIp0 = s.blkIp0 := rfl
@[simp] theorem State.raised_rleLen (c : Cause) (v : Nat) : (s.raised c v).rleLen = s.rleLen := rfl
@[simp] theorem State.raised_lzwLength (c : Cause) (v : Nat) : (s.raised c v).lzwLength = s.lzwLength := rfl
@[simp] theorem State.raised_lzwUsed (c : Cause) (v : Nat) : (s.raised c v).lzwUsed = s.lzwUsed := rfl
@[simp] theorem State.raised_rleUsed (c : Cause) (v : Nat) : (s.raised c v).rleUsed = s.rleUsed := rfl
@[simp] theorem State.raised_rleIn (c : Cause) (v : Nat) : (s.raised c v).rleIn = s.rleIn := rfl
@[simp] theorem State.raised_rleOut (c : Cause) (v : Nat) : (s.raised c v).rleOut = s.rleOut := rfl
@[simp] theorem State.raised_uncompRemaining (c : Cause) (v : Nat) : (s.raised c v).uncompRemaining = s.uncompRemaining := rfl
@[simp] theorem State.raised_writeLen (c : Cause) (v : Nat) : (s.raised c v).writeLen = s.writeLen := rfl
@[simp] theorem State.raised_sp (c : Cause) (v : Nat) : (s.raised c v).sp = s.sp := rfl
@[simp] theorem State.raised_crcAcc (c : Cause) (v : Nat) : (s.raised c v).crcAcc = s.crcAcc := rfl
@[simp] theorem State.raised_escape (c : Cause) (v : Nat) : (s.raised c v).escape = s.escape := rfl
@[simp] theorem State.raised_volume (c : Cause) (v : Nat) : (s.raised c v).volume = s.volume := rfl
@[simp] theorem State.raised_hdrCrc (c : Cause) (v : Nat) : (s.raised c v).hdrCrc = s.hdrCrc := rfl
@[simp] theorem State.raised_tch (c : Cause) (v : Nat) : (s.raised c v).tch = s.tch := rfl
@[simp] theorem State.raised_tpr (c : Cause) (v : Nat) : (s.raised c v).tpr = s.tpr := rfl
@[simp] theorem State.raised_stk (c : Cause) (v : Nat) : (s.raised c v).stk = s.stk := rfl
@[simp] theorem State.raised_scr (c : Cause) (v : Nat) : (s.raised c v).scr = s.scr := rfl
@[simp] theorem State.raised_blk (c : Cause) (v : Nat) : (s.raised c v).blk = s.blk := rfl
@[simp] theorem State.raised_out (c : Cause) (v : Nat) : (s.raised c v).out = s.out := rfl
@[simp] theorem State.raised_inputs (c : Cause) (v : Nat) : (s.raised c v).inputs = s.inputs := rfl
@[simp] theorem State.raised_freeCount (c : Cause) (v : Nat) : (s.raised c v).freeCount = s.freeCount := rfl

/-! ### `Push` (R49) -/

@[simp] theorem State.pushed_phase (b : Byte) : (s.pushed b).phase = s.phase := rfl
@[simp] theorem State.pushed_stage (b : Byte) : (s.pushed b).stage = s.stage := rfl
@[simp] theorem State.pushed_cause (b : Byte) : (s.pushed b).cause = s.cause := rfl
@[simp] theorem State.pushed_info (b : Byte) : (s.pushed b).info = s.info := rfl
@[simp] theorem State.pushed_variant (b : Byte) : (s.pushed b).variant = s.variant := rfl
@[simp] theorem State.pushed_usize (b : Byte) : (s.pushed b).usize = s.usize := rfl
@[simp] theorem State.pushed_inLen (b : Byte) : (s.pushed b).inLen = s.inLen := rfl
@[simp] theorem State.pushed_input (b : Byte) : (s.pushed b).input = s.input := rfl
@[simp] theorem State.pushed_ip (b : Byte) : (s.pushed b).ip = s.ip := rfl
@[simp] theorem State.pushed_startBit (b : Byte) : (s.pushed b).startBit = s.startBit := rfl
@[simp] theorem State.pushed_lastByte (b : Byte) : (s.pushed b).lastByte = s.lastByte := rfl
@[simp] theorem State.pushed_entry (b : Byte) : (s.pushed b).entry = s.entry := rfl
@[simp] theorem State.pushed_old (b : Byte) : (s.pushed b).old = s.old := rfl
@[simp] theorem State.pushed_finalByte (b : Byte) : (s.pushed b).finalByte = s.finalByte := rfl
@[simp] theorem State.pushed_code (b : Byte) : (s.pushed b).code = s.code := rfl
@[simp] theorem State.pushed_resetFix (b : Byte) : (s.pushed b).resetFix = s.resetFix := rfl
@[simp] theorem State.pushed_needClear (b : Byte) : (s.pushed b).needClear = s.needClear := rfl
@[simp] theorem State.pushed_outN (b : Byte) : (s.pushed b).outN = s.outN := rfl
@[simp] theorem State.pushed_blkIp0 (b : Byte) : (s.pushed b).blkIp0 = s.blkIp0 := rfl
@[simp] theorem State.pushed_rleLen (b : Byte) : (s.pushed b).rleLen = s.rleLen := rfl
@[simp] theorem State.pushed_lzwLength (b : Byte) : (s.pushed b).lzwLength = s.lzwLength := rfl
@[simp] theorem State.pushed_lzwUsed (b : Byte) : (s.pushed b).lzwUsed = s.lzwUsed := rfl
@[simp] theorem State.pushed_rleUsed (b : Byte) : (s.pushed b).rleUsed = s.rleUsed := rfl
@[simp] theorem State.pushed_rleIn (b : Byte) : (s.pushed b).rleIn = s.rleIn := rfl
@[simp] theorem State.pushed_rleOut (b : Byte) : (s.pushed b).rleOut = s.rleOut := rfl
@[simp] theorem State.pushed_uncompRemaining (b : Byte) : (s.pushed b).uncompRemaining = s.uncompRemaining := rfl
@[simp] theorem State.pushed_writeLen (b : Byte) : (s.pushed b).writeLen = s.writeLen := rfl
@[simp] theorem State.pushed_crcAcc (b : Byte) : (s.pushed b).crcAcc = s.crcAcc := rfl
@[simp] theorem State.pushed_escape (b : Byte) : (s.pushed b).escape = s.escape := rfl
@[simp] theorem State.pushed_volume (b : Byte) : (s.pushed b).volume = s.volume := rfl
@[simp] theorem State.pushed_hdrCrc (b : Byte) : (s.pushed b).hdrCrc = s.hdrCrc := rfl
@[simp] theorem State.pushed_tch (b : Byte) : (s.pushed b).tch = s.tch := rfl
@[simp] theorem State.pushed_tpr (b : Byte) : (s.pushed b).tpr = s.tpr := rfl
@[simp] theorem State.pushed_scr (b : Byte) : (s.pushed b).scr = s.scr := rfl
@[simp] theorem State.pushed_blk (b : Byte) : (s.pushed b).blk = s.blk := rfl
@[simp] theorem State.pushed_out (b : Byte) : (s.pushed b).out = s.out := rfl
@[simp] theorem State.pushed_inputs (b : Byte) : (s.pushed b).inputs = s.inputs := rfl
@[simp] theorem State.pushed_freeCount (b : Byte) : (s.pushed b).freeCount = s.freeCount := rfl

/-! ### `LzwEmit` (R176) -/

@[simp] theorem State.emitted_phase (b : Byte) : (s.emitted b).phase = s.phase := rfl
@[simp] theorem State.emitted_stage (b : Byte) : (s.emitted b).stage = s.stage := rfl
@[simp] theorem State.emitted_cause (b : Byte) : (s.emitted b).cause = s.cause := rfl
@[simp] theorem State.emitted_info (b : Byte) : (s.emitted b).info = s.info := rfl
@[simp] theorem State.emitted_variant (b : Byte) : (s.emitted b).variant = s.variant := rfl
@[simp] theorem State.emitted_usize (b : Byte) : (s.emitted b).usize = s.usize := rfl
@[simp] theorem State.emitted_inLen (b : Byte) : (s.emitted b).inLen = s.inLen := rfl
@[simp] theorem State.emitted_input (b : Byte) : (s.emitted b).input = s.input := rfl
@[simp] theorem State.emitted_ip (b : Byte) : (s.emitted b).ip = s.ip := rfl
@[simp] theorem State.emitted_startBit (b : Byte) : (s.emitted b).startBit = s.startBit := rfl
@[simp] theorem State.emitted_lastByte (b : Byte) : (s.emitted b).lastByte = s.lastByte := rfl
@[simp] theorem State.emitted_entry (b : Byte) : (s.emitted b).entry = s.entry := rfl
@[simp] theorem State.emitted_old (b : Byte) : (s.emitted b).old = s.old := rfl
@[simp] theorem State.emitted_finalByte (b : Byte) : (s.emitted b).finalByte = s.finalByte := rfl
@[simp] theorem State.emitted_code (b : Byte) : (s.emitted b).code = s.code := rfl
@[simp] theorem State.emitted_resetFix (b : Byte) : (s.emitted b).resetFix = s.resetFix := rfl
@[simp] theorem State.emitted_needClear (b : Byte) : (s.emitted b).needClear = s.needClear := rfl
@[simp] theorem State.emitted_blkIp0 (b : Byte) : (s.emitted b).blkIp0 = s.blkIp0 := rfl
@[simp] theorem State.emitted_rleLen (b : Byte) : (s.emitted b).rleLen = s.rleLen := rfl
@[simp] theorem State.emitted_lzwLength (b : Byte) : (s.emitted b).lzwLength = s.lzwLength := rfl
@[simp] theorem State.emitted_lzwUsed (b : Byte) : (s.emitted b).lzwUsed = s.lzwUsed := rfl
@[simp] theorem State.emitted_rleUsed (b : Byte) : (s.emitted b).rleUsed = s.rleUsed := rfl
@[simp] theorem State.emitted_rleIn (b : Byte) : (s.emitted b).rleIn = s.rleIn := rfl
@[simp] theorem State.emitted_rleOut (b : Byte) : (s.emitted b).rleOut = s.rleOut := rfl
@[simp] theorem State.emitted_uncompRemaining (b : Byte) : (s.emitted b).uncompRemaining = s.uncompRemaining := rfl
@[simp] theorem State.emitted_writeLen (b : Byte) : (s.emitted b).writeLen = s.writeLen := rfl
@[simp] theorem State.emitted_sp (b : Byte) : (s.emitted b).sp = s.sp := rfl
@[simp] theorem State.emitted_crcAcc (b : Byte) : (s.emitted b).crcAcc = s.crcAcc := rfl
@[simp] theorem State.emitted_escape (b : Byte) : (s.emitted b).escape = s.escape := rfl
@[simp] theorem State.emitted_volume (b : Byte) : (s.emitted b).volume = s.volume := rfl
@[simp] theorem State.emitted_hdrCrc (b : Byte) : (s.emitted b).hdrCrc = s.hdrCrc := rfl
@[simp] theorem State.emitted_tch (b : Byte) : (s.emitted b).tch = s.tch := rfl
@[simp] theorem State.emitted_tpr (b : Byte) : (s.emitted b).tpr = s.tpr := rfl
@[simp] theorem State.emitted_stk (b : Byte) : (s.emitted b).stk = s.stk := rfl
@[simp] theorem State.emitted_blk (b : Byte) : (s.emitted b).blk = s.blk := rfl
@[simp] theorem State.emitted_out (b : Byte) : (s.emitted b).out = s.out := rfl
@[simp] theorem State.emitted_inputs (b : Byte) : (s.emitted b).inputs = s.inputs := rfl
@[simp] theorem State.emitted_freeCount (b : Byte) : (s.emitted b).freeCount = s.freeCount := rfl

/-! ### `Record` (R173) -/

@[simp] theorem State.recorded_phase (code : Code) : (s.recorded code).phase = s.phase := rfl
@[simp] theorem State.recorded_stage (code : Code) : (s.recorded code).stage = s.stage := rfl
@[simp] theorem State.recorded_cause (code : Code) : (s.recorded code).cause = s.cause := rfl
@[simp] theorem State.recorded_info (code : Code) : (s.recorded code).info = s.info := rfl
@[simp] theorem State.recorded_variant (code : Code) : (s.recorded code).variant = s.variant := rfl
@[simp] theorem State.recorded_usize (code : Code) : (s.recorded code).usize = s.usize := rfl
@[simp] theorem State.recorded_inLen (code : Code) : (s.recorded code).inLen = s.inLen := rfl
@[simp] theorem State.recorded_input (code : Code) : (s.recorded code).input = s.input := rfl
@[simp] theorem State.recorded_ip (code : Code) : (s.recorded code).ip = s.ip := rfl
@[simp] theorem State.recorded_startBit (code : Code) : (s.recorded code).startBit = s.startBit := rfl
@[simp] theorem State.recorded_lastByte (code : Code) : (s.recorded code).lastByte = s.lastByte := rfl
@[simp] theorem State.recorded_finalByte (code : Code) : (s.recorded code).finalByte = s.finalByte := rfl
@[simp] theorem State.recorded_code (code : Code) : (s.recorded code).code = s.code := rfl
@[simp] theorem State.recorded_resetFix (code : Code) : (s.recorded code).resetFix = s.resetFix := rfl
@[simp] theorem State.recorded_needClear (code : Code) : (s.recorded code).needClear = s.needClear := rfl
@[simp] theorem State.recorded_outN (code : Code) : (s.recorded code).outN = s.outN := rfl
@[simp] theorem State.recorded_blkIp0 (code : Code) : (s.recorded code).blkIp0 = s.blkIp0 := rfl
@[simp] theorem State.recorded_rleLen (code : Code) : (s.recorded code).rleLen = s.rleLen := rfl
@[simp] theorem State.recorded_lzwLength (code : Code) : (s.recorded code).lzwLength = s.lzwLength := rfl
@[simp] theorem State.recorded_lzwUsed (code : Code) : (s.recorded code).lzwUsed = s.lzwUsed := rfl
@[simp] theorem State.recorded_rleUsed (code : Code) : (s.recorded code).rleUsed = s.rleUsed := rfl
@[simp] theorem State.recorded_rleIn (code : Code) : (s.recorded code).rleIn = s.rleIn := rfl
@[simp] theorem State.recorded_rleOut (code : Code) : (s.recorded code).rleOut = s.rleOut := rfl
@[simp] theorem State.recorded_uncompRemaining (code : Code) : (s.recorded code).uncompRemaining = s.uncompRemaining := rfl
@[simp] theorem State.recorded_writeLen (code : Code) : (s.recorded code).writeLen = s.writeLen := rfl
@[simp] theorem State.recorded_sp (code : Code) : (s.recorded code).sp = s.sp := rfl
@[simp] theorem State.recorded_crcAcc (code : Code) : (s.recorded code).crcAcc = s.crcAcc := rfl
@[simp] theorem State.recorded_escape (code : Code) : (s.recorded code).escape = s.escape := rfl
@[simp] theorem State.recorded_volume (code : Code) : (s.recorded code).volume = s.volume := rfl
@[simp] theorem State.recorded_hdrCrc (code : Code) : (s.recorded code).hdrCrc = s.hdrCrc := rfl
@[simp] theorem State.recorded_stk (code : Code) : (s.recorded code).stk = s.stk := rfl
@[simp] theorem State.recorded_scr (code : Code) : (s.recorded code).scr = s.scr := rfl
@[simp] theorem State.recorded_blk (code : Code) : (s.recorded code).blk = s.blk := rfl
@[simp] theorem State.recorded_out (code : Code) : (s.recorded code).out = s.out := rfl
@[simp] theorem State.recorded_inputs (code : Code) : (s.recorded code).inputs = s.inputs := rfl
@[simp] theorem State.recorded_freeCount (code : Code) : (s.recorded code).freeCount = s.freeCount := rfl

/-! ### `entry <- 0x0101` (R255) -/

@[simp] theorem State.tableReset_phase : (s.tableReset).phase = s.phase := rfl
@[simp] theorem State.tableReset_stage : (s.tableReset).stage = s.stage := rfl
@[simp] theorem State.tableReset_cause : (s.tableReset).cause = s.cause := rfl
@[simp] theorem State.tableReset_info : (s.tableReset).info = s.info := rfl
@[simp] theorem State.tableReset_variant : (s.tableReset).variant = s.variant := rfl
@[simp] theorem State.tableReset_usize : (s.tableReset).usize = s.usize := rfl
@[simp] theorem State.tableReset_inLen : (s.tableReset).inLen = s.inLen := rfl
@[simp] theorem State.tableReset_input : (s.tableReset).input = s.input := rfl
@[simp] theorem State.tableReset_ip : (s.tableReset).ip = s.ip := rfl
@[simp] theorem State.tableReset_startBit : (s.tableReset).startBit = s.startBit := rfl
@[simp] theorem State.tableReset_lastByte : (s.tableReset).lastByte = s.lastByte := rfl
@[simp] theorem State.tableReset_old : (s.tableReset).old = s.old := rfl
@[simp] theorem State.tableReset_finalByte : (s.tableReset).finalByte = s.finalByte := rfl
@[simp] theorem State.tableReset_code : (s.tableReset).code = s.code := rfl
@[simp] theorem State.tableReset_resetFix : (s.tableReset).resetFix = s.resetFix := rfl
@[simp] theorem State.tableReset_needClear : (s.tableReset).needClear = s.needClear := rfl
@[simp] theorem State.tableReset_outN : (s.tableReset).outN = s.outN := rfl
@[simp] theorem State.tableReset_blkIp0 : (s.tableReset).blkIp0 = s.blkIp0 := rfl
@[simp] theorem State.tableReset_rleLen : (s.tableReset).rleLen = s.rleLen := rfl
@[simp] theorem State.tableReset_lzwLength : (s.tableReset).lzwLength = s.lzwLength := rfl
@[simp] theorem State.tableReset_lzwUsed : (s.tableReset).lzwUsed = s.lzwUsed := rfl
@[simp] theorem State.tableReset_rleUsed : (s.tableReset).rleUsed = s.rleUsed := rfl
@[simp] theorem State.tableReset_rleIn : (s.tableReset).rleIn = s.rleIn := rfl
@[simp] theorem State.tableReset_rleOut : (s.tableReset).rleOut = s.rleOut := rfl
@[simp] theorem State.tableReset_uncompRemaining : (s.tableReset).uncompRemaining = s.uncompRemaining := rfl
@[simp] theorem State.tableReset_writeLen : (s.tableReset).writeLen = s.writeLen := rfl
@[simp] theorem State.tableReset_sp : (s.tableReset).sp = s.sp := rfl
@[simp] theorem State.tableReset_crcAcc : (s.tableReset).crcAcc = s.crcAcc := rfl
@[simp] theorem State.tableReset_escape : (s.tableReset).escape = s.escape := rfl
@[simp] theorem State.tableReset_volume : (s.tableReset).volume = s.volume := rfl
@[simp] theorem State.tableReset_hdrCrc : (s.tableReset).hdrCrc = s.hdrCrc := rfl
@[simp] theorem State.tableReset_tch : (s.tableReset).tch = s.tch := rfl
@[simp] theorem State.tableReset_tpr : (s.tableReset).tpr = s.tpr := rfl
@[simp] theorem State.tableReset_stk : (s.tableReset).stk = s.stk := rfl
@[simp] theorem State.tableReset_scr : (s.tableReset).scr = s.scr := rfl
@[simp] theorem State.tableReset_blk : (s.tableReset).blk = s.blk := rfl
@[simp] theorem State.tableReset_out : (s.tableReset).out = s.out := rfl
@[simp] theorem State.tableReset_inputs : (s.tableReset).inputs = s.inputs := rfl
@[simp] theorem State.tableReset_freeCount : (s.tableReset).freeCount = s.freeCount := rfl

/-! ### `ip <- ip + n` (R35) -/

@[simp] theorem State.advance_phase (n : Nat) : (s.advance n).phase = s.phase := rfl
@[simp] theorem State.advance_stage (n : Nat) : (s.advance n).stage = s.stage := rfl
@[simp] theorem State.advance_cause (n : Nat) : (s.advance n).cause = s.cause := rfl
@[simp] theorem State.advance_info (n : Nat) : (s.advance n).info = s.info := rfl
@[simp] theorem State.advance_variant (n : Nat) : (s.advance n).variant = s.variant := rfl
@[simp] theorem State.advance_usize (n : Nat) : (s.advance n).usize = s.usize := rfl
@[simp] theorem State.advance_inLen (n : Nat) : (s.advance n).inLen = s.inLen := rfl
@[simp] theorem State.advance_input (n : Nat) : (s.advance n).input = s.input := rfl
@[simp] theorem State.advance_startBit (n : Nat) : (s.advance n).startBit = s.startBit := rfl
@[simp] theorem State.advance_lastByte (n : Nat) : (s.advance n).lastByte = s.lastByte := rfl
@[simp] theorem State.advance_entry (n : Nat) : (s.advance n).entry = s.entry := rfl
@[simp] theorem State.advance_old (n : Nat) : (s.advance n).old = s.old := rfl
@[simp] theorem State.advance_finalByte (n : Nat) : (s.advance n).finalByte = s.finalByte := rfl
@[simp] theorem State.advance_code (n : Nat) : (s.advance n).code = s.code := rfl
@[simp] theorem State.advance_resetFix (n : Nat) : (s.advance n).resetFix = s.resetFix := rfl
@[simp] theorem State.advance_needClear (n : Nat) : (s.advance n).needClear = s.needClear := rfl
@[simp] theorem State.advance_outN (n : Nat) : (s.advance n).outN = s.outN := rfl
@[simp] theorem State.advance_blkIp0 (n : Nat) : (s.advance n).blkIp0 = s.blkIp0 := rfl
@[simp] theorem State.advance_rleLen (n : Nat) : (s.advance n).rleLen = s.rleLen := rfl
@[simp] theorem State.advance_lzwLength (n : Nat) : (s.advance n).lzwLength = s.lzwLength := rfl
@[simp] theorem State.advance_lzwUsed (n : Nat) : (s.advance n).lzwUsed = s.lzwUsed := rfl
@[simp] theorem State.advance_rleUsed (n : Nat) : (s.advance n).rleUsed = s.rleUsed := rfl
@[simp] theorem State.advance_rleIn (n : Nat) : (s.advance n).rleIn = s.rleIn := rfl
@[simp] theorem State.advance_rleOut (n : Nat) : (s.advance n).rleOut = s.rleOut := rfl
@[simp] theorem State.advance_uncompRemaining (n : Nat) : (s.advance n).uncompRemaining = s.uncompRemaining := rfl
@[simp] theorem State.advance_writeLen (n : Nat) : (s.advance n).writeLen = s.writeLen := rfl
@[simp] theorem State.advance_sp (n : Nat) : (s.advance n).sp = s.sp := rfl
@[simp] theorem State.advance_crcAcc (n : Nat) : (s.advance n).crcAcc = s.crcAcc := rfl
@[simp] theorem State.advance_escape (n : Nat) : (s.advance n).escape = s.escape := rfl
@[simp] theorem State.advance_volume (n : Nat) : (s.advance n).volume = s.volume := rfl
@[simp] theorem State.advance_hdrCrc (n : Nat) : (s.advance n).hdrCrc = s.hdrCrc := rfl
@[simp] theorem State.advance_tch (n : Nat) : (s.advance n).tch = s.tch := rfl
@[simp] theorem State.advance_tpr (n : Nat) : (s.advance n).tpr = s.tpr := rfl
@[simp] theorem State.advance_stk (n : Nat) : (s.advance n).stk = s.stk := rfl
@[simp] theorem State.advance_scr (n : Nat) : (s.advance n).scr = s.scr := rfl
@[simp] theorem State.advance_blk (n : Nat) : (s.advance n).blk = s.blk := rfl
@[simp] theorem State.advance_out (n : Nat) : (s.advance n).out = s.out := rfl
@[simp] theorem State.advance_inputs (n : Nat) : (s.advance n).inputs = s.inputs := rfl
@[simp] theorem State.advance_freeCount (n : Nat) : (s.advance n).freeCount = s.freeCount := rfl

/-! ### `GETCODE`, its last writes (R122) -/

@[simp] theorem State.codeCut_phase (v sb w m : Nat) (b : Byte) : (s.codeCut v sb w m b).phase = s.phase := rfl
@[simp] theorem State.codeCut_stage (v sb w m : Nat) (b : Byte) : (s.codeCut v sb w m b).stage = s.stage := rfl
@[simp] theorem State.codeCut_cause (v sb w m : Nat) (b : Byte) : (s.codeCut v sb w m b).cause = s.cause := rfl
@[simp] theorem State.codeCut_info (v sb w m : Nat) (b : Byte) : (s.codeCut v sb w m b).info = s.info := rfl
@[simp] theorem State.codeCut_variant (v sb w m : Nat) (b : Byte) : (s.codeCut v sb w m b).variant = s.variant := rfl
@[simp] theorem State.codeCut_usize (v sb w m : Nat) (b : Byte) : (s.codeCut v sb w m b).usize = s.usize := rfl
@[simp] theorem State.codeCut_inLen (v sb w m : Nat) (b : Byte) : (s.codeCut v sb w m b).inLen = s.inLen := rfl
@[simp] theorem State.codeCut_input (v sb w m : Nat) (b : Byte) : (s.codeCut v sb w m b).input = s.input := rfl
@[simp] theorem State.codeCut_ip (v sb w m : Nat) (b : Byte) : (s.codeCut v sb w m b).ip = s.ip := rfl
@[simp] theorem State.codeCut_entry (v sb w m : Nat) (b : Byte) : (s.codeCut v sb w m b).entry = s.entry := rfl
@[simp] theorem State.codeCut_old (v sb w m : Nat) (b : Byte) : (s.codeCut v sb w m b).old = s.old := rfl
@[simp] theorem State.codeCut_finalByte (v sb w m : Nat) (b : Byte) : (s.codeCut v sb w m b).finalByte = s.finalByte := rfl
@[simp] theorem State.codeCut_resetFix (v sb w m : Nat) (b : Byte) : (s.codeCut v sb w m b).resetFix = s.resetFix := rfl
@[simp] theorem State.codeCut_needClear (v sb w m : Nat) (b : Byte) : (s.codeCut v sb w m b).needClear = s.needClear := rfl
@[simp] theorem State.codeCut_outN (v sb w m : Nat) (b : Byte) : (s.codeCut v sb w m b).outN = s.outN := rfl
@[simp] theorem State.codeCut_blkIp0 (v sb w m : Nat) (b : Byte) : (s.codeCut v sb w m b).blkIp0 = s.blkIp0 := rfl
@[simp] theorem State.codeCut_rleLen (v sb w m : Nat) (b : Byte) : (s.codeCut v sb w m b).rleLen = s.rleLen := rfl
@[simp] theorem State.codeCut_lzwLength (v sb w m : Nat) (b : Byte) : (s.codeCut v sb w m b).lzwLength = s.lzwLength := rfl
@[simp] theorem State.codeCut_lzwUsed (v sb w m : Nat) (b : Byte) : (s.codeCut v sb w m b).lzwUsed = s.lzwUsed := rfl
@[simp] theorem State.codeCut_rleUsed (v sb w m : Nat) (b : Byte) : (s.codeCut v sb w m b).rleUsed = s.rleUsed := rfl
@[simp] theorem State.codeCut_rleIn (v sb w m : Nat) (b : Byte) : (s.codeCut v sb w m b).rleIn = s.rleIn := rfl
@[simp] theorem State.codeCut_rleOut (v sb w m : Nat) (b : Byte) : (s.codeCut v sb w m b).rleOut = s.rleOut := rfl
@[simp] theorem State.codeCut_uncompRemaining (v sb w m : Nat) (b : Byte) : (s.codeCut v sb w m b).uncompRemaining = s.uncompRemaining := rfl
@[simp] theorem State.codeCut_writeLen (v sb w m : Nat) (b : Byte) : (s.codeCut v sb w m b).writeLen = s.writeLen := rfl
@[simp] theorem State.codeCut_sp (v sb w m : Nat) (b : Byte) : (s.codeCut v sb w m b).sp = s.sp := rfl
@[simp] theorem State.codeCut_crcAcc (v sb w m : Nat) (b : Byte) : (s.codeCut v sb w m b).crcAcc = s.crcAcc := rfl
@[simp] theorem State.codeCut_escape (v sb w m : Nat) (b : Byte) : (s.codeCut v sb w m b).escape = s.escape := rfl
@[simp] theorem State.codeCut_volume (v sb w m : Nat) (b : Byte) : (s.codeCut v sb w m b).volume = s.volume := rfl
@[simp] theorem State.codeCut_hdrCrc (v sb w m : Nat) (b : Byte) : (s.codeCut v sb w m b).hdrCrc = s.hdrCrc := rfl
@[simp] theorem State.codeCut_tch (v sb w m : Nat) (b : Byte) : (s.codeCut v sb w m b).tch = s.tch := rfl
@[simp] theorem State.codeCut_tpr (v sb w m : Nat) (b : Byte) : (s.codeCut v sb w m b).tpr = s.tpr := rfl
@[simp] theorem State.codeCut_stk (v sb w m : Nat) (b : Byte) : (s.codeCut v sb w m b).stk = s.stk := rfl
@[simp] theorem State.codeCut_scr (v sb w m : Nat) (b : Byte) : (s.codeCut v sb w m b).scr = s.scr := rfl
@[simp] theorem State.codeCut_blk (v sb w m : Nat) (b : Byte) : (s.codeCut v sb w m b).blk = s.blk := rfl
@[simp] theorem State.codeCut_out (v sb w m : Nat) (b : Byte) : (s.codeCut v sb w m b).out = s.out := rfl
@[simp] theorem State.codeCut_inputs (v sb w m : Nat) (b : Byte) : (s.codeCut v sb w m b).inputs = s.inputs := rfl
@[simp] theorem State.codeCut_freeCount (v sb w m : Nat) (b : Byte) : (s.codeCut v sb w m b).freeCount = s.freeCount := rfl

/-! ### `entry <- 0x0101; resetFix <- 0` in LZW/2 (R201) -/

@[simp] theorem State.resetWithoutLzw_phase : (s.resetWithoutLzw).phase = s.phase := by unfold State.resetWithoutLzw; split <;> rfl
@[simp] theorem State.resetWithoutLzw_stage : (s.resetWithoutLzw).stage = s.stage := by unfold State.resetWithoutLzw; split <;> rfl
@[simp] theorem State.resetWithoutLzw_cause : (s.resetWithoutLzw).cause = s.cause := by unfold State.resetWithoutLzw; split <;> rfl
@[simp] theorem State.resetWithoutLzw_info : (s.resetWithoutLzw).info = s.info := by unfold State.resetWithoutLzw; split <;> rfl
@[simp] theorem State.resetWithoutLzw_variant : (s.resetWithoutLzw).variant = s.variant := by unfold State.resetWithoutLzw; split <;> rfl
@[simp] theorem State.resetWithoutLzw_usize : (s.resetWithoutLzw).usize = s.usize := by unfold State.resetWithoutLzw; split <;> rfl
@[simp] theorem State.resetWithoutLzw_inLen : (s.resetWithoutLzw).inLen = s.inLen := by unfold State.resetWithoutLzw; split <;> rfl
@[simp] theorem State.resetWithoutLzw_input : (s.resetWithoutLzw).input = s.input := by unfold State.resetWithoutLzw; split <;> rfl
@[simp] theorem State.resetWithoutLzw_ip : (s.resetWithoutLzw).ip = s.ip := by unfold State.resetWithoutLzw; split <;> rfl
@[simp] theorem State.resetWithoutLzw_startBit : (s.resetWithoutLzw).startBit = s.startBit := by unfold State.resetWithoutLzw; split <;> rfl
@[simp] theorem State.resetWithoutLzw_lastByte : (s.resetWithoutLzw).lastByte = s.lastByte := by unfold State.resetWithoutLzw; split <;> rfl
@[simp] theorem State.resetWithoutLzw_old : (s.resetWithoutLzw).old = s.old := by unfold State.resetWithoutLzw; split <;> rfl
@[simp] theorem State.resetWithoutLzw_finalByte : (s.resetWithoutLzw).finalByte = s.finalByte := by unfold State.resetWithoutLzw; split <;> rfl
@[simp] theorem State.resetWithoutLzw_code : (s.resetWithoutLzw).code = s.code := by unfold State.resetWithoutLzw; split <;> rfl
@[simp] theorem State.resetWithoutLzw_needClear : (s.resetWithoutLzw).needClear = s.needClear := by unfold State.resetWithoutLzw; split <;> rfl
@[simp] theorem State.resetWithoutLzw_outN : (s.resetWithoutLzw).outN = s.outN := by unfold State.resetWithoutLzw; split <;> rfl
@[simp] theorem State.resetWithoutLzw_blkIp0 : (s.resetWithoutLzw).blkIp0 = s.blkIp0 := by unfold State.resetWithoutLzw; split <;> rfl
@[simp] theorem State.resetWithoutLzw_rleLen : (s.resetWithoutLzw).rleLen = s.rleLen := by unfold State.resetWithoutLzw; split <;> rfl
@[simp] theorem State.resetWithoutLzw_lzwLength : (s.resetWithoutLzw).lzwLength = s.lzwLength := by unfold State.resetWithoutLzw; split <;> rfl
@[simp] theorem State.resetWithoutLzw_lzwUsed : (s.resetWithoutLzw).lzwUsed = s.lzwUsed := by unfold State.resetWithoutLzw; split <;> rfl
@[simp] theorem State.resetWithoutLzw_rleUsed : (s.resetWithoutLzw).rleUsed = s.rleUsed := by unfold State.resetWithoutLzw; split <;> rfl
@[simp] theorem State.resetWithoutLzw_rleIn : (s.resetWithoutLzw).rleIn = s.rleIn := by unfold State.resetWithoutLzw; split <;> rfl
@[simp] theorem State.resetWithoutLzw_rleOut : (s.resetWithoutLzw).rleOut = s.rleOut := by unfold State.resetWithoutLzw; split <;> rfl
@[simp] theorem State.resetWithoutLzw_uncompRemaining : (s.resetWithoutLzw).uncompRemaining = s.uncompRemaining := by unfold State.resetWithoutLzw; split <;> rfl
@[simp] theorem State.resetWithoutLzw_writeLen : (s.resetWithoutLzw).writeLen = s.writeLen := by unfold State.resetWithoutLzw; split <;> rfl
@[simp] theorem State.resetWithoutLzw_sp : (s.resetWithoutLzw).sp = s.sp := by unfold State.resetWithoutLzw; split <;> rfl
@[simp] theorem State.resetWithoutLzw_crcAcc : (s.resetWithoutLzw).crcAcc = s.crcAcc := by unfold State.resetWithoutLzw; split <;> rfl
@[simp] theorem State.resetWithoutLzw_escape : (s.resetWithoutLzw).escape = s.escape := by unfold State.resetWithoutLzw; split <;> rfl
@[simp] theorem State.resetWithoutLzw_volume : (s.resetWithoutLzw).volume = s.volume := by unfold State.resetWithoutLzw; split <;> rfl
@[simp] theorem State.resetWithoutLzw_hdrCrc : (s.resetWithoutLzw).hdrCrc = s.hdrCrc := by unfold State.resetWithoutLzw; split <;> rfl
@[simp] theorem State.resetWithoutLzw_tch : (s.resetWithoutLzw).tch = s.tch := by unfold State.resetWithoutLzw; split <;> rfl
@[simp] theorem State.resetWithoutLzw_tpr : (s.resetWithoutLzw).tpr = s.tpr := by unfold State.resetWithoutLzw; split <;> rfl
@[simp] theorem State.resetWithoutLzw_stk : (s.resetWithoutLzw).stk = s.stk := by unfold State.resetWithoutLzw; split <;> rfl
@[simp] theorem State.resetWithoutLzw_scr : (s.resetWithoutLzw).scr = s.scr := by unfold State.resetWithoutLzw; split <;> rfl
@[simp] theorem State.resetWithoutLzw_blk : (s.resetWithoutLzw).blk = s.blk := by unfold State.resetWithoutLzw; split <;> rfl
@[simp] theorem State.resetWithoutLzw_out : (s.resetWithoutLzw).out = s.out := by unfold State.resetWithoutLzw; split <;> rfl
@[simp] theorem State.resetWithoutLzw_inputs : (s.resetWithoutLzw).inputs = s.inputs := by unfold State.resetWithoutLzw; split <;> rfl
@[simp] theorem State.resetWithoutLzw_freeCount : (s.resetWithoutLzw).freeCount = s.freeCount := by unfold State.resetWithoutLzw; split <;> rfl

/-! ### `phase` after PAYLOAD (R190) -/

@[simp] theorem State.blockComplete_stage : (s.blockComplete).stage = s.stage := rfl
@[simp] theorem State.blockComplete_cause : (s.blockComplete).cause = s.cause := rfl
@[simp] theorem State.blockComplete_info : (s.blockComplete).info = s.info := rfl
@[simp] theorem State.blockComplete_variant : (s.blockComplete).variant = s.variant := rfl
@[simp] theorem State.blockComplete_usize : (s.blockComplete).usize = s.usize := rfl
@[simp] theorem State.blockComplete_inLen : (s.blockComplete).inLen = s.inLen := rfl
@[simp] theorem State.blockComplete_input : (s.blockComplete).input = s.input := rfl
@[simp] theorem State.blockComplete_ip : (s.blockComplete).ip = s.ip := rfl
@[simp] theorem State.blockComplete_startBit : (s.blockComplete).startBit = s.startBit := rfl
@[simp] theorem State.blockComplete_lastByte : (s.blockComplete).lastByte = s.lastByte := rfl
@[simp] theorem State.blockComplete_entry : (s.blockComplete).entry = s.entry := rfl
@[simp] theorem State.blockComplete_old : (s.blockComplete).old = s.old := rfl
@[simp] theorem State.blockComplete_finalByte : (s.blockComplete).finalByte = s.finalByte := rfl
@[simp] theorem State.blockComplete_code : (s.blockComplete).code = s.code := rfl
@[simp] theorem State.blockComplete_resetFix : (s.blockComplete).resetFix = s.resetFix := rfl
@[simp] theorem State.blockComplete_needClear : (s.blockComplete).needClear = s.needClear := rfl
@[simp] theorem State.blockComplete_outN : (s.blockComplete).outN = s.outN := rfl
@[simp] theorem State.blockComplete_blkIp0 : (s.blockComplete).blkIp0 = s.blkIp0 := rfl
@[simp] theorem State.blockComplete_rleLen : (s.blockComplete).rleLen = s.rleLen := rfl
@[simp] theorem State.blockComplete_lzwLength : (s.blockComplete).lzwLength = s.lzwLength := rfl
@[simp] theorem State.blockComplete_lzwUsed : (s.blockComplete).lzwUsed = s.lzwUsed := rfl
@[simp] theorem State.blockComplete_rleUsed : (s.blockComplete).rleUsed = s.rleUsed := rfl
@[simp] theorem State.blockComplete_rleIn : (s.blockComplete).rleIn = s.rleIn := rfl
@[simp] theorem State.blockComplete_rleOut : (s.blockComplete).rleOut = s.rleOut := rfl
@[simp] theorem State.blockComplete_uncompRemaining : (s.blockComplete).uncompRemaining = s.uncompRemaining := rfl
@[simp] theorem State.blockComplete_writeLen : (s.blockComplete).writeLen = s.writeLen := rfl
@[simp] theorem State.blockComplete_sp : (s.blockComplete).sp = s.sp := rfl
@[simp] theorem State.blockComplete_crcAcc : (s.blockComplete).crcAcc = s.crcAcc := rfl
@[simp] theorem State.blockComplete_escape : (s.blockComplete).escape = s.escape := rfl
@[simp] theorem State.blockComplete_volume : (s.blockComplete).volume = s.volume := rfl
@[simp] theorem State.blockComplete_hdrCrc : (s.blockComplete).hdrCrc = s.hdrCrc := rfl
@[simp] theorem State.blockComplete_tch : (s.blockComplete).tch = s.tch := rfl
@[simp] theorem State.blockComplete_tpr : (s.blockComplete).tpr = s.tpr := rfl
@[simp] theorem State.blockComplete_stk : (s.blockComplete).stk = s.stk := rfl
@[simp] theorem State.blockComplete_scr : (s.blockComplete).scr = s.scr := rfl
@[simp] theorem State.blockComplete_blk : (s.blockComplete).blk = s.blk := rfl
@[simp] theorem State.blockComplete_out : (s.blockComplete).out = s.out := rfl
@[simp] theorem State.blockComplete_inputs : (s.blockComplete).inputs = s.inputs := rfl
@[simp] theorem State.blockComplete_freeCount : (s.blockComplete).freeCount = s.freeCount := rfl

/-! ### `phase` after THDR and EMIT (R190) -/

@[simp] theorem State.headerDone_stage : (s.headerDone).stage = s.stage := rfl
@[simp] theorem State.headerDone_cause : (s.headerDone).cause = s.cause := rfl
@[simp] theorem State.headerDone_info : (s.headerDone).info = s.info := rfl
@[simp] theorem State.headerDone_variant : (s.headerDone).variant = s.variant := rfl
@[simp] theorem State.headerDone_usize : (s.headerDone).usize = s.usize := rfl
@[simp] theorem State.headerDone_inLen : (s.headerDone).inLen = s.inLen := rfl
@[simp] theorem State.headerDone_input : (s.headerDone).input = s.input := rfl
@[simp] theorem State.headerDone_ip : (s.headerDone).ip = s.ip := rfl
@[simp] theorem State.headerDone_startBit : (s.headerDone).startBit = s.startBit := rfl
@[simp] theorem State.headerDone_lastByte : (s.headerDone).lastByte = s.lastByte := rfl
@[simp] theorem State.headerDone_entry : (s.headerDone).entry = s.entry := rfl
@[simp] theorem State.headerDone_old : (s.headerDone).old = s.old := rfl
@[simp] theorem State.headerDone_finalByte : (s.headerDone).finalByte = s.finalByte := rfl
@[simp] theorem State.headerDone_code : (s.headerDone).code = s.code := rfl
@[simp] theorem State.headerDone_resetFix : (s.headerDone).resetFix = s.resetFix := rfl
@[simp] theorem State.headerDone_needClear : (s.headerDone).needClear = s.needClear := rfl
@[simp] theorem State.headerDone_outN : (s.headerDone).outN = s.outN := rfl
@[simp] theorem State.headerDone_blkIp0 : (s.headerDone).blkIp0 = s.blkIp0 := rfl
@[simp] theorem State.headerDone_rleLen : (s.headerDone).rleLen = s.rleLen := rfl
@[simp] theorem State.headerDone_lzwLength : (s.headerDone).lzwLength = s.lzwLength := rfl
@[simp] theorem State.headerDone_lzwUsed : (s.headerDone).lzwUsed = s.lzwUsed := rfl
@[simp] theorem State.headerDone_rleUsed : (s.headerDone).rleUsed = s.rleUsed := rfl
@[simp] theorem State.headerDone_rleIn : (s.headerDone).rleIn = s.rleIn := rfl
@[simp] theorem State.headerDone_rleOut : (s.headerDone).rleOut = s.rleOut := rfl
@[simp] theorem State.headerDone_uncompRemaining : (s.headerDone).uncompRemaining = s.uncompRemaining := rfl
@[simp] theorem State.headerDone_writeLen : (s.headerDone).writeLen = s.writeLen := rfl
@[simp] theorem State.headerDone_sp : (s.headerDone).sp = s.sp := rfl
@[simp] theorem State.headerDone_crcAcc : (s.headerDone).crcAcc = s.crcAcc := rfl
@[simp] theorem State.headerDone_escape : (s.headerDone).escape = s.escape := rfl
@[simp] theorem State.headerDone_volume : (s.headerDone).volume = s.volume := rfl
@[simp] theorem State.headerDone_hdrCrc : (s.headerDone).hdrCrc = s.hdrCrc := rfl
@[simp] theorem State.headerDone_tch : (s.headerDone).tch = s.tch := rfl
@[simp] theorem State.headerDone_tpr : (s.headerDone).tpr = s.tpr := rfl
@[simp] theorem State.headerDone_stk : (s.headerDone).stk = s.stk := rfl
@[simp] theorem State.headerDone_scr : (s.headerDone).scr = s.scr := rfl
@[simp] theorem State.headerDone_blk : (s.headerDone).blk = s.blk := rfl
@[simp] theorem State.headerDone_out : (s.headerDone).out = s.out := rfl
@[simp] theorem State.headerDone_inputs : (s.headerDone).inputs = s.inputs := rfl
@[simp] theorem State.headerDone_freeCount : (s.headerDone).freeCount = s.freeCount := rfl

/-! ### `lzw_length <- undef` (R193) -/

@[simp] theorem State.lzwLengthUndef_phase : (s.lzwLengthUndef).phase = s.phase := rfl
@[simp] theorem State.lzwLengthUndef_stage : (s.lzwLengthUndef).stage = s.stage := rfl
@[simp] theorem State.lzwLengthUndef_cause : (s.lzwLengthUndef).cause = s.cause := rfl
@[simp] theorem State.lzwLengthUndef_info : (s.lzwLengthUndef).info = s.info := rfl
@[simp] theorem State.lzwLengthUndef_variant : (s.lzwLengthUndef).variant = s.variant := rfl
@[simp] theorem State.lzwLengthUndef_usize : (s.lzwLengthUndef).usize = s.usize := rfl
@[simp] theorem State.lzwLengthUndef_inLen : (s.lzwLengthUndef).inLen = s.inLen := rfl
@[simp] theorem State.lzwLengthUndef_input : (s.lzwLengthUndef).input = s.input := rfl
@[simp] theorem State.lzwLengthUndef_ip : (s.lzwLengthUndef).ip = s.ip := rfl
@[simp] theorem State.lzwLengthUndef_startBit : (s.lzwLengthUndef).startBit = s.startBit := rfl
@[simp] theorem State.lzwLengthUndef_lastByte : (s.lzwLengthUndef).lastByte = s.lastByte := rfl
@[simp] theorem State.lzwLengthUndef_entry : (s.lzwLengthUndef).entry = s.entry := rfl
@[simp] theorem State.lzwLengthUndef_old : (s.lzwLengthUndef).old = s.old := rfl
@[simp] theorem State.lzwLengthUndef_finalByte : (s.lzwLengthUndef).finalByte = s.finalByte := rfl
@[simp] theorem State.lzwLengthUndef_code : (s.lzwLengthUndef).code = s.code := rfl
@[simp] theorem State.lzwLengthUndef_resetFix : (s.lzwLengthUndef).resetFix = s.resetFix := rfl
@[simp] theorem State.lzwLengthUndef_needClear : (s.lzwLengthUndef).needClear = s.needClear := rfl
@[simp] theorem State.lzwLengthUndef_outN : (s.lzwLengthUndef).outN = s.outN := rfl
@[simp] theorem State.lzwLengthUndef_blkIp0 : (s.lzwLengthUndef).blkIp0 = s.blkIp0 := rfl
@[simp] theorem State.lzwLengthUndef_rleLen : (s.lzwLengthUndef).rleLen = s.rleLen := rfl
@[simp] theorem State.lzwLengthUndef_lzwUsed : (s.lzwLengthUndef).lzwUsed = s.lzwUsed := rfl
@[simp] theorem State.lzwLengthUndef_rleUsed : (s.lzwLengthUndef).rleUsed = s.rleUsed := rfl
@[simp] theorem State.lzwLengthUndef_rleIn : (s.lzwLengthUndef).rleIn = s.rleIn := rfl
@[simp] theorem State.lzwLengthUndef_rleOut : (s.lzwLengthUndef).rleOut = s.rleOut := rfl
@[simp] theorem State.lzwLengthUndef_uncompRemaining : (s.lzwLengthUndef).uncompRemaining = s.uncompRemaining := rfl
@[simp] theorem State.lzwLengthUndef_writeLen : (s.lzwLengthUndef).writeLen = s.writeLen := rfl
@[simp] theorem State.lzwLengthUndef_sp : (s.lzwLengthUndef).sp = s.sp := rfl
@[simp] theorem State.lzwLengthUndef_crcAcc : (s.lzwLengthUndef).crcAcc = s.crcAcc := rfl
@[simp] theorem State.lzwLengthUndef_escape : (s.lzwLengthUndef).escape = s.escape := rfl
@[simp] theorem State.lzwLengthUndef_volume : (s.lzwLengthUndef).volume = s.volume := rfl
@[simp] theorem State.lzwLengthUndef_hdrCrc : (s.lzwLengthUndef).hdrCrc = s.hdrCrc := rfl
@[simp] theorem State.lzwLengthUndef_tch : (s.lzwLengthUndef).tch = s.tch := rfl
@[simp] theorem State.lzwLengthUndef_tpr : (s.lzwLengthUndef).tpr = s.tpr := rfl
@[simp] theorem State.lzwLengthUndef_stk : (s.lzwLengthUndef).stk = s.stk := rfl
@[simp] theorem State.lzwLengthUndef_scr : (s.lzwLengthUndef).scr = s.scr := rfl
@[simp] theorem State.lzwLengthUndef_blk : (s.lzwLengthUndef).blk = s.blk := rfl
@[simp] theorem State.lzwLengthUndef_out : (s.lzwLengthUndef).out = s.out := rfl
@[simp] theorem State.lzwLengthUndef_inputs : (s.lzwLengthUndef).inputs = s.inputs := rfl

/-! ### `LZW_START`, what both variants do (R161) -/

@[simp] theorem State.invocation_phase : (s.invocation).phase = s.phase := rfl
@[simp] theorem State.invocation_stage : (s.invocation).stage = s.stage := rfl
@[simp] theorem State.invocation_cause : (s.invocation).cause = s.cause := rfl
@[simp] theorem State.invocation_info : (s.invocation).info = s.info := rfl
@[simp] theorem State.invocation_variant : (s.invocation).variant = s.variant := rfl
@[simp] theorem State.invocation_usize : (s.invocation).usize = s.usize := rfl
@[simp] theorem State.invocation_inLen : (s.invocation).inLen = s.inLen := rfl
@[simp] theorem State.invocation_input : (s.invocation).input = s.input := rfl
@[simp] theorem State.invocation_ip : (s.invocation).ip = s.ip := rfl
@[simp] theorem State.invocation_entry : (s.invocation).entry = s.entry := rfl
@[simp] theorem State.invocation_old : (s.invocation).old = s.old := rfl
@[simp] theorem State.invocation_finalByte : (s.invocation).finalByte = s.finalByte := rfl
@[simp] theorem State.invocation_code : (s.invocation).code = s.code := rfl
@[simp] theorem State.invocation_resetFix : (s.invocation).resetFix = s.resetFix := rfl
@[simp] theorem State.invocation_needClear : (s.invocation).needClear = s.needClear := rfl
@[simp] theorem State.invocation_rleLen : (s.invocation).rleLen = s.rleLen := rfl
@[simp] theorem State.invocation_lzwLength : (s.invocation).lzwLength = s.lzwLength := rfl
@[simp] theorem State.invocation_lzwUsed : (s.invocation).lzwUsed = s.lzwUsed := rfl
@[simp] theorem State.invocation_rleUsed : (s.invocation).rleUsed = s.rleUsed := rfl
@[simp] theorem State.invocation_rleIn : (s.invocation).rleIn = s.rleIn := rfl
@[simp] theorem State.invocation_rleOut : (s.invocation).rleOut = s.rleOut := rfl
@[simp] theorem State.invocation_uncompRemaining : (s.invocation).uncompRemaining = s.uncompRemaining := rfl
@[simp] theorem State.invocation_writeLen : (s.invocation).writeLen = s.writeLen := rfl
@[simp] theorem State.invocation_crcAcc : (s.invocation).crcAcc = s.crcAcc := rfl
@[simp] theorem State.invocation_escape : (s.invocation).escape = s.escape := rfl
@[simp] theorem State.invocation_volume : (s.invocation).volume = s.volume := rfl
@[simp] theorem State.invocation_hdrCrc : (s.invocation).hdrCrc = s.hdrCrc := rfl
@[simp] theorem State.invocation_tch : (s.invocation).tch = s.tch := rfl
@[simp] theorem State.invocation_tpr : (s.invocation).tpr = s.tpr := rfl
@[simp] theorem State.invocation_stk : (s.invocation).stk = s.stk := rfl
@[simp] theorem State.invocation_scr : (s.invocation).scr = s.scr := rfl
@[simp] theorem State.invocation_blk : (s.invocation).blk = s.blk := rfl
@[simp] theorem State.invocation_out : (s.invocation).out = s.out := rfl
@[simp] theorem State.invocation_inputs : (s.invocation).inputs = s.inputs := rfl

/-! ### `WalkEmit` (R171) -/

@[simp] theorem State.spelled_phase (bytes : List Byte) (d : Slots 8) : (s.spelled bytes d).phase = s.phase := rfl
@[simp] theorem State.spelled_stage (bytes : List Byte) (d : Slots 8) : (s.spelled bytes d).stage = s.stage := rfl
@[simp] theorem State.spelled_cause (bytes : List Byte) (d : Slots 8) : (s.spelled bytes d).cause = s.cause := rfl
@[simp] theorem State.spelled_info (bytes : List Byte) (d : Slots 8) : (s.spelled bytes d).info = s.info := rfl
@[simp] theorem State.spelled_variant (bytes : List Byte) (d : Slots 8) : (s.spelled bytes d).variant = s.variant := rfl
@[simp] theorem State.spelled_usize (bytes : List Byte) (d : Slots 8) : (s.spelled bytes d).usize = s.usize := rfl
@[simp] theorem State.spelled_inLen (bytes : List Byte) (d : Slots 8) : (s.spelled bytes d).inLen = s.inLen := rfl
@[simp] theorem State.spelled_input (bytes : List Byte) (d : Slots 8) : (s.spelled bytes d).input = s.input := rfl
@[simp] theorem State.spelled_ip (bytes : List Byte) (d : Slots 8) : (s.spelled bytes d).ip = s.ip := rfl
@[simp] theorem State.spelled_startBit (bytes : List Byte) (d : Slots 8) : (s.spelled bytes d).startBit = s.startBit := rfl
@[simp] theorem State.spelled_lastByte (bytes : List Byte) (d : Slots 8) : (s.spelled bytes d).lastByte = s.lastByte := rfl
@[simp] theorem State.spelled_entry (bytes : List Byte) (d : Slots 8) : (s.spelled bytes d).entry = s.entry := rfl
@[simp] theorem State.spelled_old (bytes : List Byte) (d : Slots 8) : (s.spelled bytes d).old = s.old := rfl
@[simp] theorem State.spelled_code (bytes : List Byte) (d : Slots 8) : (s.spelled bytes d).code = s.code := rfl
@[simp] theorem State.spelled_resetFix (bytes : List Byte) (d : Slots 8) : (s.spelled bytes d).resetFix = s.resetFix := rfl
@[simp] theorem State.spelled_needClear (bytes : List Byte) (d : Slots 8) : (s.spelled bytes d).needClear = s.needClear := rfl
@[simp] theorem State.spelled_blkIp0 (bytes : List Byte) (d : Slots 8) : (s.spelled bytes d).blkIp0 = s.blkIp0 := rfl
@[simp] theorem State.spelled_rleLen (bytes : List Byte) (d : Slots 8) : (s.spelled bytes d).rleLen = s.rleLen := rfl
@[simp] theorem State.spelled_lzwLength (bytes : List Byte) (d : Slots 8) : (s.spelled bytes d).lzwLength = s.lzwLength := rfl
@[simp] theorem State.spelled_lzwUsed (bytes : List Byte) (d : Slots 8) : (s.spelled bytes d).lzwUsed = s.lzwUsed := rfl
@[simp] theorem State.spelled_rleUsed (bytes : List Byte) (d : Slots 8) : (s.spelled bytes d).rleUsed = s.rleUsed := rfl
@[simp] theorem State.spelled_rleIn (bytes : List Byte) (d : Slots 8) : (s.spelled bytes d).rleIn = s.rleIn := rfl
@[simp] theorem State.spelled_rleOut (bytes : List Byte) (d : Slots 8) : (s.spelled bytes d).rleOut = s.rleOut := rfl
@[simp] theorem State.spelled_uncompRemaining (bytes : List Byte) (d : Slots 8) : (s.spelled bytes d).uncompRemaining = s.uncompRemaining := rfl
@[simp] theorem State.spelled_writeLen (bytes : List Byte) (d : Slots 8) : (s.spelled bytes d).writeLen = s.writeLen := rfl
@[simp] theorem State.spelled_crcAcc (bytes : List Byte) (d : Slots 8) : (s.spelled bytes d).crcAcc = s.crcAcc := rfl
@[simp] theorem State.spelled_escape (bytes : List Byte) (d : Slots 8) : (s.spelled bytes d).escape = s.escape := rfl
@[simp] theorem State.spelled_volume (bytes : List Byte) (d : Slots 8) : (s.spelled bytes d).volume = s.volume := rfl
@[simp] theorem State.spelled_hdrCrc (bytes : List Byte) (d : Slots 8) : (s.spelled bytes d).hdrCrc = s.hdrCrc := rfl
@[simp] theorem State.spelled_tch (bytes : List Byte) (d : Slots 8) : (s.spelled bytes d).tch = s.tch := rfl
@[simp] theorem State.spelled_tpr (bytes : List Byte) (d : Slots 8) : (s.spelled bytes d).tpr = s.tpr := rfl
@[simp] theorem State.spelled_blk (bytes : List Byte) (d : Slots 8) : (s.spelled bytes d).blk = s.blk := rfl
@[simp] theorem State.spelled_out (bytes : List Byte) (d : Slots 8) : (s.spelled bytes d).out = s.out := rfl
@[simp] theorem State.spelled_inputs (bytes : List Byte) (d : Slots 8) : (s.spelled bytes d).inputs = s.inputs := rfl
@[simp] theorem State.spelled_freeCount (bytes : List Byte) (d : Slots 8) : (s.spelled bytes d).freeCount = s.freeCount := rfl

/-! ### `a header that ends early` (R238) -/

@[simp] theorem State.partialHeader_phase (c : Ctx) : (s.partialHeader c).phase = s.phase := by unfold State.partialHeader; dsimp only; split <;> rfl
@[simp] theorem State.partialHeader_stage (c : Ctx) : (s.partialHeader c).stage = s.stage := by unfold State.partialHeader; dsimp only; split <;> rfl
@[simp] theorem State.partialHeader_cause (c : Ctx) : (s.partialHeader c).cause = s.cause := by unfold State.partialHeader; dsimp only; split <;> rfl
@[simp] theorem State.partialHeader_info (c : Ctx) : (s.partialHeader c).info = s.info := by unfold State.partialHeader; dsimp only; split <;> rfl
@[simp] theorem State.partialHeader_variant (c : Ctx) : (s.partialHeader c).variant = s.variant := by unfold State.partialHeader; dsimp only; split <;> rfl
@[simp] theorem State.partialHeader_usize (c : Ctx) : (s.partialHeader c).usize = s.usize := by unfold State.partialHeader; dsimp only; split <;> rfl
@[simp] theorem State.partialHeader_inLen (c : Ctx) : (s.partialHeader c).inLen = s.inLen := by unfold State.partialHeader; dsimp only; split <;> rfl
@[simp] theorem State.partialHeader_input (c : Ctx) : (s.partialHeader c).input = s.input := by unfold State.partialHeader; dsimp only; split <;> rfl
@[simp] theorem State.partialHeader_startBit (c : Ctx) : (s.partialHeader c).startBit = s.startBit := by unfold State.partialHeader; dsimp only; split <;> rfl
@[simp] theorem State.partialHeader_lastByte (c : Ctx) : (s.partialHeader c).lastByte = s.lastByte := by unfold State.partialHeader; dsimp only; split <;> rfl
@[simp] theorem State.partialHeader_entry (c : Ctx) : (s.partialHeader c).entry = s.entry := by unfold State.partialHeader; dsimp only; split <;> rfl
@[simp] theorem State.partialHeader_old (c : Ctx) : (s.partialHeader c).old = s.old := by unfold State.partialHeader; dsimp only; split <;> rfl
@[simp] theorem State.partialHeader_finalByte (c : Ctx) : (s.partialHeader c).finalByte = s.finalByte := by unfold State.partialHeader; dsimp only; split <;> rfl
@[simp] theorem State.partialHeader_code (c : Ctx) : (s.partialHeader c).code = s.code := by unfold State.partialHeader; dsimp only; split <;> rfl
@[simp] theorem State.partialHeader_resetFix (c : Ctx) : (s.partialHeader c).resetFix = s.resetFix := by unfold State.partialHeader; dsimp only; split <;> rfl
@[simp] theorem State.partialHeader_needClear (c : Ctx) : (s.partialHeader c).needClear = s.needClear := by unfold State.partialHeader; dsimp only; split <;> rfl
@[simp] theorem State.partialHeader_outN (c : Ctx) : (s.partialHeader c).outN = s.outN := by unfold State.partialHeader; dsimp only; split <;> rfl
@[simp] theorem State.partialHeader_blkIp0 (c : Ctx) : (s.partialHeader c).blkIp0 = s.blkIp0 := by unfold State.partialHeader; dsimp only; split <;> rfl
@[simp] theorem State.partialHeader_lzwLength (c : Ctx) : (s.partialHeader c).lzwLength = s.lzwLength := by unfold State.partialHeader; dsimp only; split <;> rfl
@[simp] theorem State.partialHeader_rleUsed (c : Ctx) : (s.partialHeader c).rleUsed = s.rleUsed := by unfold State.partialHeader; dsimp only; split <;> rfl
@[simp] theorem State.partialHeader_rleIn (c : Ctx) : (s.partialHeader c).rleIn = s.rleIn := by unfold State.partialHeader; dsimp only; split <;> rfl
@[simp] theorem State.partialHeader_rleOut (c : Ctx) : (s.partialHeader c).rleOut = s.rleOut := by unfold State.partialHeader; dsimp only; split <;> rfl
@[simp] theorem State.partialHeader_uncompRemaining (c : Ctx) : (s.partialHeader c).uncompRemaining = s.uncompRemaining := by unfold State.partialHeader; dsimp only; split <;> rfl
@[simp] theorem State.partialHeader_writeLen (c : Ctx) : (s.partialHeader c).writeLen = s.writeLen := by unfold State.partialHeader; dsimp only; split <;> rfl
@[simp] theorem State.partialHeader_sp (c : Ctx) : (s.partialHeader c).sp = s.sp := by unfold State.partialHeader; dsimp only; split <;> rfl
@[simp] theorem State.partialHeader_crcAcc (c : Ctx) : (s.partialHeader c).crcAcc = s.crcAcc := by unfold State.partialHeader; dsimp only; split <;> rfl
@[simp] theorem State.partialHeader_escape (c : Ctx) : (s.partialHeader c).escape = s.escape := by unfold State.partialHeader; dsimp only; split <;> rfl
@[simp] theorem State.partialHeader_tch (c : Ctx) : (s.partialHeader c).tch = s.tch := by unfold State.partialHeader; dsimp only; split <;> rfl
@[simp] theorem State.partialHeader_tpr (c : Ctx) : (s.partialHeader c).tpr = s.tpr := by unfold State.partialHeader; dsimp only; split <;> rfl
@[simp] theorem State.partialHeader_stk (c : Ctx) : (s.partialHeader c).stk = s.stk := by unfold State.partialHeader; dsimp only; split <;> rfl
@[simp] theorem State.partialHeader_scr (c : Ctx) : (s.partialHeader c).scr = s.scr := by unfold State.partialHeader; dsimp only; split <;> rfl
@[simp] theorem State.partialHeader_blk (c : Ctx) : (s.partialHeader c).blk = s.blk := by unfold State.partialHeader; dsimp only; split <;> rfl
@[simp] theorem State.partialHeader_out (c : Ctx) : (s.partialHeader c).out = s.out := by unfold State.partialHeader; dsimp only; split <;> rfl
@[simp] theorem State.partialHeader_inputs (c : Ctx) : (s.partialHeader c).inputs = s.inputs := by unfold State.partialHeader; dsimp only; split <;> rfl
@[simp] theorem State.partialHeader_freeCount (c : Ctx) : (s.partialHeader c).freeCount = s.freeCount := by unfold State.partialHeader; dsimp only; split <;> rfl

/-! ### `RLE_EXPAND`, its start (R146) -/

@[simp] theorem State.rleStart_phase : (s.rleStart).phase = s.phase := rfl
@[simp] theorem State.rleStart_cause : (s.rleStart).cause = s.cause := rfl
@[simp] theorem State.rleStart_info : (s.rleStart).info = s.info := rfl
@[simp] theorem State.rleStart_variant : (s.rleStart).variant = s.variant := rfl
@[simp] theorem State.rleStart_usize : (s.rleStart).usize = s.usize := rfl
@[simp] theorem State.rleStart_inLen : (s.rleStart).inLen = s.inLen := rfl
@[simp] theorem State.rleStart_input : (s.rleStart).input = s.input := rfl
@[simp] theorem State.rleStart_ip : (s.rleStart).ip = s.ip := rfl
@[simp] theorem State.rleStart_startBit : (s.rleStart).startBit = s.startBit := rfl
@[simp] theorem State.rleStart_lastByte : (s.rleStart).lastByte = s.lastByte := rfl
@[simp] theorem State.rleStart_entry : (s.rleStart).entry = s.entry := rfl
@[simp] theorem State.rleStart_old : (s.rleStart).old = s.old := rfl
@[simp] theorem State.rleStart_finalByte : (s.rleStart).finalByte = s.finalByte := rfl
@[simp] theorem State.rleStart_code : (s.rleStart).code = s.code := rfl
@[simp] theorem State.rleStart_resetFix : (s.rleStart).resetFix = s.resetFix := rfl
@[simp] theorem State.rleStart_needClear : (s.rleStart).needClear = s.needClear := rfl
@[simp] theorem State.rleStart_outN : (s.rleStart).outN = s.outN := rfl
@[simp] theorem State.rleStart_blkIp0 : (s.rleStart).blkIp0 = s.blkIp0 := rfl
@[simp] theorem State.rleStart_rleLen : (s.rleStart).rleLen = s.rleLen := rfl
@[simp] theorem State.rleStart_lzwLength : (s.rleStart).lzwLength = s.lzwLength := rfl
@[simp] theorem State.rleStart_lzwUsed : (s.rleStart).lzwUsed = s.lzwUsed := rfl
@[simp] theorem State.rleStart_rleUsed : (s.rleStart).rleUsed = s.rleUsed := rfl
@[simp] theorem State.rleStart_uncompRemaining : (s.rleStart).uncompRemaining = s.uncompRemaining := rfl
@[simp] theorem State.rleStart_writeLen : (s.rleStart).writeLen = s.writeLen := rfl
@[simp] theorem State.rleStart_sp : (s.rleStart).sp = s.sp := rfl
@[simp] theorem State.rleStart_crcAcc : (s.rleStart).crcAcc = s.crcAcc := rfl
@[simp] theorem State.rleStart_escape : (s.rleStart).escape = s.escape := rfl
@[simp] theorem State.rleStart_volume : (s.rleStart).volume = s.volume := rfl
@[simp] theorem State.rleStart_hdrCrc : (s.rleStart).hdrCrc = s.hdrCrc := rfl
@[simp] theorem State.rleStart_tch : (s.rleStart).tch = s.tch := rfl
@[simp] theorem State.rleStart_tpr : (s.rleStart).tpr = s.tpr := rfl
@[simp] theorem State.rleStart_stk : (s.rleStart).stk = s.stk := rfl
@[simp] theorem State.rleStart_scr : (s.rleStart).scr = s.scr := rfl
@[simp] theorem State.rleStart_blk : (s.rleStart).blk = s.blk := rfl
@[simp] theorem State.rleStart_out : (s.rleStart).out = s.out := rfl
@[simp] theorem State.rleStart_inputs : (s.rleStart).inputs = s.inputs := rfl
@[simp] theorem State.rleStart_freeCount : (s.rleStart).freeCount = s.freeCount := rfl

/-! ### What the updates write -/

@[simp] theorem State.raised_phase (c : Cause) (v : Nat) : (s.raised c v).phase = .fault := rfl
@[simp] theorem State.raised_cause (c : Cause) (v : Nat) : (s.raised c v).cause = c.number := rfl
@[simp] theorem State.raised_info (c : Cause) (v : Nat) : (s.raised c v).info = BitVec.ofNat 32 v := rfl
@[simp] theorem State.pushed_stk (b : Byte) : (s.pushed b).stk = slotSet s.stk s.sp.toNat b := rfl
@[simp] theorem State.pushed_sp (b : Byte) : (s.pushed b).sp = s.sp + 1 := rfl
@[simp] theorem State.emitted_scr (b : Byte) : (s.emitted b).scr = slotSet s.scr s.outN.toNat b := rfl
@[simp] theorem State.emitted_outN (b : Byte) : (s.emitted b).outN = s.outN + 1 := rfl
@[simp] theorem State.recorded_tch (code : Code) :
    (s.recorded code).tch = slotSet s.tch (s.entry.toNat - 256) s.finalByte := rfl
@[simp] theorem State.recorded_tpr (code : Code) :
    (s.recorded code).tpr = slotSet s.tpr (s.entry.toNat - 256) s.old := rfl
@[simp] theorem State.recorded_entry (code : Code) : (s.recorded code).entry = s.entry + 1 := rfl
@[simp] theorem State.recorded_old (code : Code) : (s.recorded code).old = code := rfl
@[simp] theorem State.tableReset_entry : s.tableReset.entry = BitVec.ofNat 13 Config.firstCode := rfl
@[simp] theorem State.advance_ip (n : Nat) : (s.advance n).ip = s.ip + BitVec.ofNat 32 n := rfl
@[simp] theorem State.codeCut_lastByte (v sb w m : Nat) (b : Byte) : (s.codeCut v sb w m b).lastByte = b := rfl
@[simp] theorem State.codeCut_startBit (v sb w m : Nat) (b : Byte) :
    (s.codeCut v sb w m b).startBit = BitVec.ofNat 3 ((sb + w) % 8) := rfl
@[simp] theorem State.codeCut_code (v sb w m : Nat) (b : Byte) :
    (s.codeCut v sb w m b).code = BitVec.ofNat 12 ((v >>> sb) &&& m) := rfl
@[simp] theorem State.blockComplete_phase : s.blockComplete.phase = s.afterPayload := rfl
@[simp] theorem State.headerDone_phase : s.headerDone.phase = s.afterBlock := rfl
@[simp] theorem State.invocation_outN : s.invocation.outN = 0 := rfl
@[simp] theorem State.invocation_sp : s.invocation.sp = 0 := rfl
@[simp] theorem State.invocation_startBit : s.invocation.startBit = 0 := rfl
@[simp] theorem State.invocation_blkIp0 : s.invocation.blkIp0 = s.ip := rfl
@[simp] theorem State.spelled_finalByte (bytes : List Byte) (d : Slots 8) :
    (s.spelled bytes d).finalByte = bytes.headD 0 := rfl
@[simp] theorem State.spelled_scr (bytes : List Byte) (d : Slots 8) :
    (s.spelled bytes d).scr = slotPut s.scr s.outN.toNat bytes := rfl
@[simp] theorem State.spelled_outN (bytes : List Byte) (d : Slots 8) :
    (s.spelled bytes d).outN = s.outN + BitVec.ofNat 13 bytes.length := rfl
@[simp] theorem State.spelled_stk (bytes : List Byte) (d : Slots 8) : (s.spelled bytes d).stk = d := rfl
@[simp] theorem State.spelled_sp (bytes : List Byte) (d : Slots 8) : (s.spelled bytes d).sp = 0 := rfl
@[simp] theorem State.partialHeader_ip (c : Ctx) : (s.partialHeader c).ip = s.ip + BitVec.ofNat 32 s.inputLeft := by
  unfold State.partialHeader; dsimp only; split <;> rfl
@[simp] theorem State.rleStart_rleIn : s.rleStart.rleIn = 0 := rfl
@[simp] theorem State.rleStart_rleOut : s.rleStart.rleOut = 0 := rfl
@[simp] theorem State.rleStart_stage : s.rleStart.stage = .rle := rfl

/-- R201: in LZW/1 nothing is done. -/
theorem State.resetWithoutLzw_lzw1 (h : s.variant = .lzw1) : s.resetWithoutLzw = s := by
  simp [State.resetWithoutLzw, h]

/-- R201: in LZW/2 the table and the flag are reset. -/
theorem State.resetWithoutLzw_lzw2 (h : s.variant = .lzw2) :
    s.resetWithoutLzw = { s with entry := BitVec.ofNat 13 Config.firstCode, resetFix := false } := by
  simp [State.resetWithoutLzw, h, State.tableReset]

end Sys2Proof.Machine
end

