-- ==== Sys2Proof/Laws/Memory.lean ====
section
/-! SUPPORT. The laws of the input space and of the register files: read after write, what a write leaves alone, and
that every operation keeps the canonical form. -/

namespace Sys2Proof.Machine

/-! ### The input space -/

@[simp] theorem memRead_nil (a : Nat) : memRead [] a = memUnlisted := rfl

theorem memRead_cons (k : Nat) (b : Byte) (m : Memory) (a : Nat) :
    memRead ((k, b) :: m) a = if k = a then b else memRead m a := rfl

/-- An address below every listed one is unlisted. -/
theorem memRead_of_risesFrom {lo a : Nat} {m : Memory} (h : Memory.risesFrom lo m = true) (ha : a < lo) :
    memRead m a = memUnlisted := by
  induction m generalizing lo with
  | nil => rfl
  | cons c m ih =>
    obtain ⟨k, b⟩ := c
    simp only [Memory.risesFrom, Bool.and_eq_true, decide_eq_true_eq] at h
    rw [memRead_cons, if_neg (by omega), ih h.2 (by omega)]

theorem Memory.risesFrom_mono {lo lo' : Nat} {m : Memory} (h : Memory.risesFrom lo m = true) (hl : lo' ≤ lo) :
    Memory.risesFrom lo' m = true := by
  cases m with
  | nil => rfl
  | cons c m =>
    simp only [Memory.risesFrom, Bool.and_eq_true, decide_eq_true_eq] at h ⊢
    exact ⟨⟨by omega, h.1.2⟩, h.2⟩

/-- A byte that was written is read back. -/
theorem memRead_memWrite_same {lo : Nat} {m : Memory} (h : Memory.risesFrom lo m = true) (a : Nat) (b : Byte) :
    memRead (memWrite m a b) a = b := by
  induction m generalizing lo with
  | nil => by_cases hb : b = memUnlisted <;> simp [memWrite, memRead, hb]
  | cons c m ih =>
    obtain ⟨k, v⟩ := c
    simp only [Memory.risesFrom, Bool.and_eq_true, decide_eq_true_eq] at h
    rcases Nat.lt_trichotomy a k with hk | rfl | hk
    · by_cases hb : b = memUnlisted
      · rw [memWrite, if_pos hk, if_pos hb, memRead_cons, if_neg (by omega), hb]
        exact memRead_of_risesFrom h.2 (by omega)
      · rw [memWrite, if_pos hk, if_neg hb, memRead_cons, if_pos rfl]
    · by_cases hb : b = memUnlisted
      · rw [memWrite, if_neg (Nat.lt_irrefl _), if_pos rfl, if_pos hb, hb]
        exact memRead_of_risesFrom h.2 (Nat.lt_succ_self _)
      · rw [memWrite, if_neg (Nat.lt_irrefl _), if_pos rfl, if_neg hb, memRead_cons, if_pos rfl]
    · rw [memWrite, if_neg (by omega), if_neg (by omega), memRead_cons, if_neg (by omega)]
      exact ih h.2

/-- A write leaves every other address alone. -/
theorem memRead_memWrite_other {m : Memory} {a a' : Nat} (b : Byte) (hne : a' ≠ a) {lo : Nat}
    (h : Memory.risesFrom lo m = true) : memRead (memWrite m a b) a' = memRead m a' := by
  induction m generalizing lo with
  | nil => by_cases hb : b = memUnlisted <;> simp [memWrite, memRead, hb, Ne.symm hne]
  | cons c m ih =>
    obtain ⟨k, v⟩ := c
    simp only [Memory.risesFrom, Bool.and_eq_true, decide_eq_true_eq] at h
    rcases Nat.lt_trichotomy a k with hk | rfl | hk
    · by_cases hb : b = memUnlisted
      · rw [memWrite, if_pos hk, if_pos hb]
      · rw [memWrite, if_pos hk, if_neg hb, memRead_cons a, if_neg (Ne.symm hne)]
    · by_cases hb : b = memUnlisted
      · rw [memWrite, if_neg (Nat.lt_irrefl _), if_pos rfl, if_pos hb, memRead_cons, if_neg (Ne.symm hne)]
      · rw [memWrite, if_neg (Nat.lt_irrefl _), if_pos rfl, if_neg hb, memRead_cons, memRead_cons]
        simp [Ne.symm hne]
    · rw [memWrite, if_neg (by omega), if_neg (by omega), memRead_cons, memRead_cons, ih h.2]

theorem memWrite_risesFrom {lo a : Nat} {m : Memory} (h : Memory.risesFrom lo m = true) (ha : lo ≤ a) (b : Byte) :
    Memory.risesFrom lo (memWrite m a b) = true := by
  induction m generalizing lo with
  | nil => by_cases hb : b = memUnlisted <;> simp [memWrite, Memory.risesFrom, hb, ha]
  | cons c m ih =>
    obtain ⟨k, v⟩ := c
    simp only [Memory.risesFrom, Bool.and_eq_true, decide_eq_true_eq] at h
    rcases Nat.lt_trichotomy a k with hk | rfl | hk
    · by_cases hb : b = memUnlisted
      · simp [memWrite, hk, hb, Memory.risesFrom, h]
      · simp [memWrite, hk, hb, Memory.risesFrom, ha, h.1.2, h.2, Nat.succ_le_of_lt hk]
    · by_cases hb : b = memUnlisted
      · simpa [memWrite, hb] using Memory.risesFrom_mono h.2 (by omega)
      · simp [memWrite, hb, Memory.risesFrom, ha, h.2]
    · simp [memWrite, show ¬ a < k by omega, show a ≠ k by omega, Memory.risesFrom, h.1, ih h.2 (by omega)]

/-- A write keeps the canonical form of the memory. -/
theorem memWrite_wf {m : Memory} (h : Memory.wf m = true) (a : Nat) (b : Byte) : Memory.wf (memWrite m a b) = true :=
  memWrite_risesFrom h (Nat.zero_le _) b

/-- Loading bytes keeps the canonical form of the memory. -/
theorem memLoad_wf {m : Memory} (h : Memory.wf m = true) (a : Nat) (bytes : List Byte) :
    Memory.wf (memLoad m a bytes) = true := by
  induction bytes generalizing m a with
  | nil => exact h
  | cons b rest ih => exact ih (memWrite_wf h a b) (a + 1)

/-- The input space built from a list of bytes is in canonical form. -/
theorem memOfBytes_wf (bytes : List Byte) : Memory.wf (memOfBytes bytes) = true := memLoad_wf rfl 0 bytes

/-- A step reads the input space through `memRead` alone, and reset lists nothing. -/
theorem reset_input_wf : Memory.wf State.reset.input = true := rfl

/-! ### Register files -/

variable {w : Nat}

theorem slotGet?_cons (k : Nat) (u : BitVec w) (l : Slots w) (i : Nat) :
    slotGet? ((k, u) :: l) i = if k = i then some u else slotGet? l i := rfl

/-- A slot that was written holds what was written. -/
@[simp] theorem slotGet?_slotSet_same (l : Slots w) (i : Nat) (v : BitVec w) : slotGet? (slotSet l i v) i = some v := by
  induction l with
  | nil => simp [slotSet, slotGet?]
  | cons c l ih =>
    obtain ⟨k, u⟩ := c
    rw [slotSet]
    split
    · rw [slotGet?_cons, if_pos rfl]
    · split
      · rw [slotGet?_cons, if_pos rfl]
      · rw [slotGet?_cons, if_neg (by omega), ih]

/-- A write leaves every other slot alone. -/
theorem slotGet?_slotSet_other (l : Slots w) {i j : Nat} (v : BitVec w) (h : j ≠ i) :
    slotGet? (slotSet l i v) j = slotGet? l j := by
  induction l with
  | nil => simp [slotSet, slotGet?, Ne.symm h]
  | cons c l ih =>
    obtain ⟨k, u⟩ := c
    rw [slotSet]
    split
    · rw [slotGet?_cons, if_neg (Ne.symm h)]
    · split
      · next hk => rw [slotGet?_cons, slotGet?_cons, if_neg (Ne.symm h), if_neg (by omega)]
      · rw [slotGet?_cons, slotGet?_cons, ih]

theorem slotGet?_slotSet (l : Slots w) (i j : Nat) (v : BitVec w) :
    slotGet? (slotSet l i v) j = if j = i then some v else slotGet? l j := by
  split
  · next h => rw [h, slotGet?_slotSet_same]
  · next h => exact slotGet?_slotSet_other l v h

theorem slotSet_slotsRise {cap lo i : Nat} {l : Slots w} (h : slotsRise cap lo l = true) (hlo : lo ≤ i) (hi : i < cap)
    (v : BitVec w) : slotsRise cap lo (slotSet l i v) = true := by
  induction l generalizing lo with
  | nil => simp [slotSet, slotsRise, hlo, hi]
  | cons c l ih =>
    obtain ⟨k, u⟩ := c
    simp only [slotsRise, Bool.and_eq_true, decide_eq_true_eq] at h
    rcases Nat.lt_trichotomy i k with hk | rfl | hk
    · simp [slotSet, hk, slotsRise, hlo, hi, h.1.2, h.2, Nat.succ_le_of_lt hk]
    · simp [slotSet, slotsRise, hlo, hi, h.2]
    · simp [slotSet, show ¬ i < k by omega, show i ≠ k by omega, slotsRise, h.1, ih h.2 (by omega)]

/-- A write to a slot the file has keeps its canonical form. -/
theorem slotSet_wf {cap i : Nat} {l : Slots w} (h : slotsWf cap l = true) (hi : i < cap) (v : BitVec w) :
    slotsWf cap (slotSet l i v) = true :=
  slotSet_slotsRise h (Nat.zero_le _) hi v

/-- What a run of writes leaves in a slot (R148). -/
theorem slotGet?_slotFill (l : Slots w) (start n j : Nat) (v : BitVec w) :
    slotGet? (slotFill l start v n) j = if start ≤ j ∧ j < start + n then some v else slotGet? l j := by
  induction n generalizing l start with
  | zero => simp [slotFill]
  | succ n ih =>
    rw [slotFill, ih, slotGet?_slotSet]
    by_cases h1 : start + 1 ≤ j ∧ j < start + 1 + n
    · rw [if_pos h1, if_pos (by omega)]
    · rw [if_neg h1]
      by_cases h2 : j = start
      · rw [if_pos h2, if_pos (by omega)]
      · rw [if_neg h2, if_neg (by omega)]

/-- A run of writes within the file keeps its canonical form. -/
theorem slotFill_wf {cap : Nat} {l : Slots w} (h : slotsWf cap l = true) (start n : Nat) (v : BitVec w)
    (hn : start + n ≤ cap) : slotsWf cap (slotFill l start v n) = true := by
  induction n generalizing l start with
  | zero => exact h
  | succ n ih => exact ih (slotSet_wf h (by omega) v) (start + 1) (by omega)

/-- What writing a list of values leaves in a slot. -/
theorem slotGet?_slotPut (l : Slots w) (i j : Nat) (vs : List (BitVec w)) :
    slotGet? (slotPut l i vs) j = if i ≤ j ∧ j < i + vs.length then vs[j - i]? else slotGet? l j := by
  induction vs generalizing l i with
  | nil => simp [slotPut]
  | cons v vs ih =>
    rw [slotPut, ih, slotGet?_slotSet]
    by_cases h1 : i + 1 ≤ j ∧ j < i + 1 + vs.length
    · rw [if_pos h1, if_pos (by simp only [List.length_cons]; omega), show j - i = (j - (i + 1)) + 1 by omega,
        List.getElem?_cons_succ]
    · rw [if_neg h1]
      by_cases h2 : j = i
      · rw [if_pos h2, if_pos (by simp only [List.length_cons]; omega), h2, Nat.sub_self, List.getElem?_cons_zero]
      · rw [if_neg h2, if_neg (by simp only [List.length_cons]; omega)]

/-- Writing a list of values within the file keeps its canonical form. -/
theorem slotPut_wf {cap : Nat} {l : Slots w} (h : slotsWf cap l = true) (i : Nat) (vs : List (BitVec w))
    (hn : i + vs.length ≤ cap) : slotsWf cap (slotPut l i vs) = true := by
  induction vs generalizing l i with
  | nil => exact h
  | cons v vs ih =>
    simp only [List.length_cons] at hn
    exact ih (slotSet_wf h (by omega) v) (i + 1) (by omega)

theorem slotPut_append (l : Slots w) (i : Nat) (xs ys : List (BitVec w)) :
    slotPut l i (xs ++ ys) = slotPut (slotPut l i xs) (i + xs.length) ys := by
  induction xs generalizing l i with
  | nil => rfl
  | cons x xs ih =>
    simp only [List.cons_append, slotPut, List.length_cons, ih]
    congr 1; omega

theorem slotGet?_of_rises {cap lo i : Nat} {l : Slots w} (h : slotsRise cap lo l = true) (hi : i < lo) :
    slotGet? l i = none := by
  induction l generalizing lo with
  | nil => rfl
  | cons c l ih =>
    obtain ⟨k, u⟩ := c
    simp only [slotsRise, Bool.and_eq_true, decide_eq_true_eq] at h
    rw [slotGet?_cons, if_neg (by omega), ih h.2 (by omega)]

theorem slotsRise_map_range' (cap lo n : Nat) (f : Nat → BitVec w) (h : lo + n ≤ cap) :
    slotsRise cap lo ((List.range' lo n).map fun i => (i, f i)) = true := by
  induction n generalizing lo with
  | zero => rfl
  | succ n ih =>
    simp only [List.range'_succ, List.map_cons, slotsRise, Nat.le_refl, decide_true, Bool.true_and,
      Bool.and_eq_true, decide_eq_true_eq]
    exact ⟨by omega, ih (lo + 1) (by omega)⟩

/-- The slots a function gives are in canonical form. -/
theorem slotsOfFn_wf (n : Nat) (f : Nat → BitVec w) : slotsWf n (slotsOfFn n f) = true := by
  rw [slotsWf, slotsOfFn, List.range_eq_range']
  exact slotsRise_map_range' n 0 n f (by omega)

theorem slotGet?_map_range' (lo n i : Nat) (f : Nat → BitVec w) :
    slotGet? ((List.range' lo n).map fun i => (i, f i)) i = if lo ≤ i ∧ i < lo + n then some (f i) else none := by
  induction n generalizing lo with
  | zero => simp [slotGet?]
  | succ n ih =>
    rw [List.range'_succ, List.map_cons, slotGet?_cons, ih]
    by_cases h : lo = i
    · subst h; rw [if_pos rfl, if_pos (by omega)]
    · rw [if_neg h]
      by_cases h2 : lo + 1 ≤ i ∧ i < lo + 1 + n
      · rw [if_pos h2, if_pos (by omega)]
      · rw [if_neg h2, if_neg (by omega)]

/-- The slots a function gives hold its values. -/
theorem slotGet?_slotsOfFn (n i : Nat) (f : Nat → BitVec w) :
    slotGet? (slotsOfFn n f) i = if i < n then some (f i) else none := by
  rw [slotsOfFn, List.range_eq_range', slotGet?_map_range']
  simp

/-- A slot that has been written is read as what was written: no free value. -/
theorem slotRead_of_get {f : Config.SlotFile} {l : Slots w} {i draw : Nat} {v : BitVec w} (h : slotGet? l i = some v) :
    slotRead f l i draw = v := by
  simp [slotRead, h]

/-- Writing the next slot extends what is filled. -/
theorem Filled.set {l : Slots w} {n : Nat} (h : Filled l n) (v : BitVec w) : Filled (slotSet l n v) (n + 1) := by
  intro i hi
  rw [slotGet?_slotSet]
  split
  · rfl
  · exact h i (by omega)

theorem stored_slotPut (l : Slots w) (i : Nat) (vs : List (BitVec w)) : Stored l (slotPut l i vs) i vs :=
  fun j => slotGet?_slotPut l i j vs

theorem stored_slotSet (l : Slots w) (i : Nat) (v : BitVec w) : Stored l (slotSet l i v) i [v] :=
  stored_slotPut l i [v]

theorem slotFill_eq_slotPut (l : Slots w) (start n : Nat) (v : BitVec w) :
    slotFill l start v n = slotPut l start (List.replicate n v) := by
  induction n generalizing l start with
  | zero => rfl
  | succ n ih => rw [slotFill, ih, List.replicate_succ, slotPut]

theorem stored_slotFill (l : Slots w) (start n : Nat) (v : BitVec w) :
    Stored l (slotFill l start v n) start (List.replicate n v) :=
  slotFill_eq_slotPut l start n v ▸ stored_slotPut l start _

/-- Writing at the end of what is filled extends it. -/
theorem Filled.put {l : Slots w} {n : Nat} (h : Filled l n) (vs : List (BitVec w)) :
    Filled (slotPut l n vs) (n + vs.length) := by
  intro i hi
  rw [slotGet?_slotPut]
  split
  · rw [List.getElem?_eq_getElem (by omega)]; rfl
  · exact h i (by omega)

end Sys2Proof.Machine
end

