-- ==== Sys2Proof/Laws/Ops.lean ====
section
/-! SUPPORT. For each shared operation, what it can do, said once: the lemmas later proofs cite instead of unfolding it. -/

namespace Sys2Proof.Machine

variable {s t : State}

/-! ### Counters -/

theorem count_succ {n : Count} (h : n.toNat < 8191) : (n + 1).toNat = n.toNat + 1 := by
  have h1 : (1 : Count).toNat = 1 := rfl
  rw [BitVec.toNat_add, h1]; omega

theorem count_add {n : Count} {k : Nat} (h : n.toNat + k < 8192) : (n + BitVec.ofNat 13 k).toNat = n.toNat + k := by
  rw [BitVec.toNat_add, BitVec.toNat_ofNat]; omega

theorem addr_add {a : Addr} {k : Nat} (h : a.toNat + k < 2 ^ 32) : (a + BitVec.ofNat 32 k).toNat = a.toNat + k := by
  rw [BitVec.toNat_add, BitVec.toNat_ofNat]; omega

theorem firstCode_toNat : (BitVec.ofNat 13 Config.firstCode).toNat = Config.firstCode := rfl

/-! ### Results -/

@[simp] theorem Res.ok_andThen (k : State → Res) : (Res.ok s).andThen k = k s := rfl
@[simp] theorem Res.raised_andThen (k : State → Res) : (Res.raised s).andThen k = .raised s := rfl
@[simp] theorem Res.fault_andThen (f : Fault) (k : State → Res) : (Res.fault f).andThen k = .fault f := rfl
@[simp] theorem Res.refused_andThen (r : Refusal) (k : State → Res) : (Res.refused r).andThen k = .refused r := rfl
@[simp] theorem Res.ok_outcome : (Res.ok s).outcome = .next s := rfl
@[simp] theorem Res.raised_outcome : (Res.raised s).outcome = .next s := rfl
@[simp] theorem Res.fault_outcome (f : Fault) : (Res.fault f).outcome = .fault f := rfl
@[simp] theorem Res.refused_outcome (r : Refusal) : (Res.refused r).outcome = .refused r := rfl

/-- A sequence runs to its end when both parts do. -/
theorem Res.andThen_ok {r : Res} {k : State → Res} : r.andThen k = .ok t ↔ ∃ u, r = .ok u ∧ k u = .ok t := by
  cases r <;> simp [Res.andThen]

/-- A sequence raises where its first part does, or where it runs to its end and the second part raises. -/
theorem Res.andThen_raised {r : Res} {k : State → Res} :
    r.andThen k = .raised t ↔ r = .raised t ∨ ∃ u, r = .ok u ∧ k u = .raised t := by
  cases r <;> simp [Res.andThen]

/-- An operation answers a next state when it runs to its end or raises (R238). -/
theorem Res.outcome_next {r : Res} : r.outcome = .next t ↔ r = .ok t ∨ r = .raised t := by
  cases r <;> simp [Res.outcome]

/-! ### Emission and recording -/

/-- `LzwEmit` (R176): it emits where there is room, raises where the block is full, and stops outside `SCR`. -/
theorem emitByte_cases (b : Byte) (s : State) :
    (s.outN.toNat < s.rleLen.toNat ∧ s.outN.toNat < Config.scratchCap ∧ emitByte b s = .ok (s.emitted b)) ∨
    (s.rleLen.toNat ≤ s.outN.toNat ∧ emitByte b s = .raised (s.raised .outputOverrun s.outN.toNat)) ∨
    (s.outN.toNat < s.rleLen.toNat ∧ Config.scratchCap ≤ s.outN.toNat ∧ emitByte b s = .fault .slotOutOfRange) := by
  by_cases h1 : s.rleLen.toNat ≤ s.outN.toNat
  · simp [emitByte, h1, raise]
  · by_cases h2 : Config.scratchCap ≤ s.outN.toNat
    · simp [emitByte, h1, h2, Nat.lt_of_not_le]
    · simp [emitByte, h1, h2, Nat.lt_of_not_le]

theorem emitByte_room (b : Byte) (h : s.outN.toNat < s.rleLen.toNat) (hcap : s.rleLen.toNat ≤ Config.scratchCap) :
    emitByte b s = .ok (s.emitted b) := by
  rcases emitByte_cases b s with ⟨-, -, h3⟩ | ⟨h2, -⟩ | ⟨-, h2, -⟩
  · exact h3
  · omega
  · omega

theorem emitByte_full (b : Byte) (h : s.rleLen.toNat ≤ s.outN.toNat) :
    emitByte b s = .raised (s.raised .outputOverrun s.outN.toNat) := by
  simp [emitByte, h, raise]

/-- `Record` (R173, R174): it records below 0x1000, raises when the table is full, and stops outside the table. -/
theorem record_cases (code : Code) (s : State) :
    (256 ≤ s.entry.toNat ∧ s.entry.toNat < Config.tableFull ∧ record code s = .ok (s.recorded code)) ∨
    (Config.tableFull ≤ s.entry.toNat ∧ record code s = .raised (s.raised .tableOverflow s.entry.toNat)) ∨
    (s.entry.toNat < 256 ∧ record code s = .fault .slotOutOfRange) := by
  by_cases h1 : Config.tableFull ≤ s.entry.toNat
  · simp [record, h1, raise]
  · by_cases h2 : s.entry.toNat < 256
    · simp [record, h1, h2]
    · simp [record, h1, h2, Nat.lt_of_not_le, Nat.le_of_not_lt]

theorem record_room (code : Code) (h1 : 256 ≤ s.entry.toNat) (h2 : s.entry.toNat < Config.tableFull) :
    record code s = .ok (s.recorded code) := by
  simp [record, Nat.not_le.mpr h2, Nat.not_lt.mpr h1]

theorem record_full (code : Code) (h : Config.tableFull ≤ s.entry.toNat) :
    record code s = .raised (s.raised .tableOverflow s.entry.toNat) := by
  simp [record, h, raise]

/-! ### The work stack -/

theorem push_room (b : Byte) (h : s.sp.toNat < Config.stackCap) : push b s = some (s.pushed b) := by
  simp [push, h]

theorem push_some {b : Byte} (h : push b s = some t) : s.sp.toNat < Config.stackCap ∧ t = s.pushed b := by
  unfold push at h
  split at h
  · exact ⟨‹_›, (Option.some.inj h).symm⟩
  · cases h

/-- The bytes that popping `n` bytes gives, in the order they come (R49). -/
def State.pops (s : State) (n : Nat) : List Byte := (List.range n).reverse.map s.readStk

@[simp] theorem State.pops_zero : s.pops 0 = [] := rfl
@[simp] theorem State.pops_length (n : Nat) : (s.pops n).length = n := by simp [State.pops]

theorem State.pops_succ (n : Nat) : s.pops (n + 1) = s.readStk n :: s.pops n := by
  simp [State.pops, List.range_succ]

/-- What is popped depends on the stack alone. -/
theorem State.pops_congr (h1 : t.stk = s.stk) (h2 : t.freeCount = s.freeCount) (n : Nat) : t.pops n = s.pops n :=
  List.map_congr_left fun i _ => by simp only [State.readStk, h1, h2]

/-- Bytes pushed come back last in, first out (R49). -/
theorem State.pops_slotPut (n : Nat) (xs : List Byte) :
    State.pops { s with stk := slotPut s.stk n xs } (n + xs.length) = xs.reverse ++ s.pops n := by
  apply List.ext_getElem
  · simp; omega
  · intro i h1 h2
    simp only [State.pops_length] at h1
    simp only [State.pops, List.getElem_map, List.getElem_reverse, List.length_range, List.getElem_range,
      List.getElem_append, List.length_reverse, State.readStk, slotRead]
    rw [slotGet?_slotPut]
    split
    · next hi =>
      rw [dif_pos (by omega), show n + xs.length - 1 - i - n = xs.length - 1 - i by omega,
        List.getElem?_eq_getElem (by omega)]
      rfl
    · next hi =>
      rw [dif_neg (by omega), show n + xs.length - 1 - i = n - 1 - (i - xs.length) by omega]

/-! ### Draining and walking: frames -/

/-- `drain` changes `SCR`, `out_n` and `sp`, and can only raise `OutputOverrun`. -/
theorem drain_frame (n : Nat) (s : State) :
    (∀ t, drain n s = .ok t → ∃ a b c, t = { s with scr := a, outN := b, sp := c }) ∧
    (∀ t, drain n s = .raised t → ∃ a b c v, t = State.raised { s with scr := a, outN := b, sp := c } .outputOverrun v) ∧
    (∀ r, drain n s ≠ .refused r) := by
  induction n generalizing s with
  | zero => exact ⟨fun t h => ⟨_, _, _, (Res.ok.inj h).symm⟩, by simp [drain], by simp [drain]⟩
  | succ n ih =>
    rw [drain]
    rcases emitByte_cases (s.readStk n) { s with sp := BitVec.ofNat 13 n } with ⟨-, -, h⟩ | ⟨-, h⟩ | ⟨-, -, h⟩
    · rw [h, Res.ok_andThen]
      obtain ⟨h1, h2, h3⟩ := ih (State.emitted { s with sp := BitVec.ofNat 13 n } (s.readStk n))
      refine ⟨fun t ht => ?_, fun t ht => ?_, h3⟩
      · obtain ⟨a, b, c, rfl⟩ := h1 t ht; exact ⟨a, b, c, rfl⟩
      · obtain ⟨a, b, c, v, rfl⟩ := h2 t ht; exact ⟨a, b, c, v, rfl⟩
    · rw [h, Res.raised_andThen]
      exact ⟨by simp, fun t ht => ⟨_, _, _, _, (Res.raised.inj ht).symm⟩, by simp⟩
    · rw [h, Res.fault_andThen]; exact ⟨by simp, by simp, by simp⟩

/-- `walk` changes `STK` and `sp` alone. -/
theorem walk_frame {fuel : Nat} {c : Code} {b : Byte} (h : walk fuel c s = some (b, t)) :
    ∃ d k, t = { s with stk := d, sp := k } := by
  induction fuel generalizing c s with
  | zero => cases h
  | succ n ih =>
    rw [walk] at h
    split at h
    · cases h; exact ⟨_, _, rfl⟩
    · split at h
      · cases h
      · next s' hs =>
        obtain ⟨-, rfl⟩ := push_some hs
        obtain ⟨d, k, rfl⟩ := ih h
        exact ⟨d, k, rfl⟩

/-- `emitString` changes `final`, `SCR`, `out_n` and `sp`, and can only raise `OutputOverrun`. -/
theorem emitString_frame (b : Byte) (s : State) :
    (∀ t, emitString b s = .ok t → ∃ a n c, t = { s with finalByte := b, scr := a, outN := n, sp := c }) ∧
    (∀ t, emitString b s = .raised t →
      ∃ a n c v, t = State.raised { s with finalByte := b, scr := a, outN := n, sp := c } .outputOverrun v) ∧
    (∀ r, emitString b s ≠ .refused r) := by
  rw [emitString]
  rcases emitByte_cases b { s with finalByte := b } with ⟨-, -, h⟩ | ⟨-, h⟩ | ⟨-, -, h⟩
  · rw [h, Res.ok_andThen]
    obtain ⟨h1, h2, h3⟩ := drain_frame (State.emitted { s with finalByte := b } b).sp.toNat
      (State.emitted { s with finalByte := b } b)
    refine ⟨fun t ht => ?_, fun t ht => ?_, h3⟩
    · obtain ⟨a, n, c, rfl⟩ := h1 t ht; exact ⟨a, n, c, rfl⟩
    · obtain ⟨a, n, c, v, rfl⟩ := h2 t ht; exact ⟨a, n, c, v, rfl⟩
  · rw [h, Res.raised_andThen]
    exact ⟨by simp, fun t ht => ⟨_, _, _, _, (Res.raised.inj ht).symm⟩, by simp⟩
  · rw [h, Res.fault_andThen]; exact ⟨by simp, by simp, by simp⟩

/-- `WalkEmit` (R171) changes `final`, `SCR`, `out_n`, `STK` and `sp`, and can only raise `OutputOverrun`. -/
theorem walkEmit_frame (c : Code) (s : State) :
    (∀ t, walkEmit c s = .ok t →
      ∃ f a n d k, t = { s with finalByte := f, scr := a, outN := n, stk := d, sp := k }) ∧
    (∀ t, walkEmit c s = .raised t →
      ∃ f a n d k v, t = State.raised { s with finalByte := f, scr := a, outN := n, stk := d, sp := k } .outputOverrun v) ∧
    (∀ r, walkEmit c s ≠ .refused r) := by
  rw [walkEmit]
  split
  · exact ⟨by simp, by simp, by simp⟩
  · next b s' hw =>
    obtain ⟨d, k, rfl⟩ := walk_frame hw
    obtain ⟨h1, h2, h3⟩ := emitString_frame b { s with stk := d, sp := k }
    refine ⟨fun t ht => ?_, fun t ht => ?_, h3⟩
    · obtain ⟨a, n, c', rfl⟩ := h1 t ht; exact ⟨b, a, n, d, c', rfl⟩
    · obtain ⟨a, n, c', v, rfl⟩ := h2 t ht; exact ⟨b, a, n, d, c', v, rfl⟩

/-! ### Draining: result -/

theorem count_ofNat {k : Nat} (h : k < 8192) : (BitVec.ofNat 13 k).toNat = k := by
  rw [BitVec.toNat_ofNat]; omega

theorem count_zero {n : Count} (h : n.toNat = 0) : n = 0 := by
  apply BitVec.eq_of_toNat_eq; simpa using h

/-- Draining where there is room emits what is popped (R171, R49). -/
theorem drain_room (n : Nat) (hsp : s.sp.toNat = n) (hn : n ≤ Config.stackCap)
    (hroom : s.outN.toNat + n ≤ s.rleLen.toNat) (hcap : s.rleLen.toNat ≤ Config.scratchCap) :
    drain n s = .ok { s with
      scr := slotPut s.scr s.outN.toNat (s.pops n), outN := s.outN + BitVec.ofNat 13 n, sp := 0 } := by
  simp only [Config.stackCap] at hn
  have hcap' : s.rleLen.toNat ≤ 4096 := hcap
  induction n generalizing s with
  | zero =>
    have h0 : s.sp = 0#13 := count_zero hsp
    simp [drain, slotPut]
    rw [← h0]
  | succ n ih =>
    rw [drain, emitByte_room _ (by simp only; omega) (by simpa using hcap), Res.ok_andThen,
      ih (s := State.emitted { s with sp := BitVec.ofNat 13 n } (s.readStk n))
        (by simp only [State.emitted_sp]; exact count_ofNat (by omega)) (by omega)
        (by simp only [State.emitted_outN, State.emitted_rleLen]; rw [count_succ (by omega)]; omega) hcap hcap']
    rw [State.pops_succ]
    simp only [State.emitted, slotPut, count_succ (show s.outN.toNat < 8191 by omega)]
    congr 2
    rw [BitVec.add_assoc]
    congr 1
    apply BitVec.eq_of_toNat_eq
    simp [BitVec.toNat_ofNat, Nat.add_comm]

/-- Draining more than there is room for raises `OutputOverrun` at the first byte that does not fit (R176). -/
theorem drain_overrun (n : Nat) (hn : n ≤ Config.stackCap) (hle : s.outN.toNat ≤ s.rleLen.toNat)
    (hroom : s.rleLen.toNat < s.outN.toNat + n) (hcap : s.rleLen.toNat ≤ Config.scratchCap) :
    ∃ a b c, drain n s =
      .raised (State.raised { s with scr := a, outN := b, sp := c } .outputOverrun s.rleLen.toNat) := by
  simp only [Config.stackCap] at hn
  have hcap' : s.rleLen.toNat ≤ 4096 := hcap
  induction n generalizing s with
  | zero => omega
  | succ n ih =>
    rw [drain]
    by_cases hfull : s.rleLen.toNat ≤ s.outN.toNat
    · rw [emitByte_full _ (by simpa using hfull), Res.raised_andThen]
      exact ⟨s.scr, s.outN, _, by rw [show s.rleLen.toNat = s.outN.toNat by omega]⟩
    · rw [emitByte_room _ (by simp only; omega) (by simpa using hcap), Res.ok_andThen]
      obtain ⟨a, b, c, h⟩ := ih (s := State.emitted { s with sp := BitVec.ofNat 13 n } (s.readStk n)) (by omega)
        (by simp only [State.emitted_outN, State.emitted_rleLen]; rw [count_succ (by omega)]; omega)
        (by simp only [State.emitted_outN, State.emitted_rleLen]; rw [count_succ (by omega)]; omega) hcap hcap'
      exact ⟨a, b, c, h⟩

/-! ### The strings of the table (R179) -/

/-- Strings depend on the table alone. -/
theorem State.strFuel_congr (h1 : t.tch = s.tch) (h2 : t.tpr = s.tpr) (h3 : t.freeCount = s.freeCount) (n : Nat)
    (c : Code) : t.strFuel n c = s.strFuel n c := by
  induction n generalizing c with
  | zero => rfl
  | succ n ih => simp only [State.strFuel, State.readTpr, State.readTch, h1, h2, h3, ih]

theorem State.str_congr (h1 : t.tch = s.tch) (h2 : t.tpr = s.tpr) (h3 : t.freeCount = s.freeCount) (c : Code) :
    t.str c = s.str c := State.strFuel_congr h1 h2 h3 _ c

theorem TableOk.congr (h : TableOk s) (h1 : t.tch = s.tch) (h2 : t.tpr = s.tpr) (h3 : t.entry = s.entry) : TableOk t :=
  ⟨h3 ▸ h.low, h3 ▸ h.high, by rw [h1, h2, h3]; exact h.slots⟩

theorem TableOk.known_lit (h : TableOk s) {c : Code} (hc : c.toNat ≤ 255) : Known s c := by
  have := h.low
  simp only [Config.firstCode] at this
  exact ⟨by omega, by simp only [Config.clearCode]; omega⟩

/-- The slots of a known code above the literals are written, and its prefix is a smaller known code (R177, R59). -/
theorem TableOk.parent (h : TableOk s) {c : Code} (hc : Known s c) (hbig : 255 < c.toNat) :
    Known s (s.readTpr (c.toNat - 256)) ∧ (s.readTpr (c.toNat - 256)).toNat < c.toNat := by
  obtain ⟨h1, h2⟩ := hc
  simp only [Config.clearCode] at h2
  obtain ⟨b, p, -, hp, hlt, hne⟩ := h.slots c.toNat (by simp only [Config.firstCode]; omega) h1
  have : s.readTpr (c.toNat - 256) = p := slotRead_of_get hp
  rw [this]
  exact ⟨⟨by omega, hne⟩, hlt⟩

/-- More fuel than the code minus 255 changes nothing (R177). -/
theorem State.strFuel_stable (h : TableOk s) {c : Code} (hc : Known s c) {n m : Nat} (hn : c.toNat < n + 255)
    (hm : c.toNat < m + 255) (hn0 : 0 < n) (hm0 : 0 < m) : s.strFuel n c = s.strFuel m c := by
  induction n generalizing c m with
  | zero => omega
  | succ n ih =>
    cases m with
    | zero => omega
    | succ m =>
      simp only [State.strFuel]
      split
      · rfl
      · next hb =>
        obtain ⟨h1, h2⟩ := h.parent hc (by omega)
        rw [ih h1 (m := m) (by omega) (by omega) (by omega) (by omega)]

theorem State.str_lit {c : Code} (hc : c.toNat ≤ 255) : s.str c = [c.setWidth 8] := by
  simp [State.str, State.strFuel, hc]

/-- `str(c) = str(TPR[c - 256]) ++ [TCH[c - 256]]` (R179). -/
theorem State.str_code (h : TableOk s) {c : Code} (hc : Known s c) (hbig : 255 < c.toNat) :
    s.str c = s.str (s.readTpr (c.toNat - 256)) ++ [s.readTch (c.toNat - 256)] := by
  obtain ⟨h1, h2⟩ := h.parent hc hbig
  have := c.isLt
  rw [State.str, State.strFuel, if_neg (by omega), State.str,
    State.strFuel_stable h h1 (n := 4095) (m := 4096) (by omega) (by omega) (by omega) (by omega)]

/-- A string is not empty, and is at most `c - 0x00FF` long (R179). -/
theorem State.str_length (h : TableOk s) {c : Code} (hc : Known s c) :
    1 ≤ (s.str c).length ∧ (s.str c).length ≤ max 1 (c.toNat - 255) := by
  induction hk : c.toNat using Nat.strong_induction_on generalizing c with
  | _ k ih =>
    by_cases hb : c.toNat ≤ 255
    · rw [State.str_lit hb]; simp
    · obtain ⟨h1, h2⟩ := h.parent hc (by omega)
      have := ih _ (by omega) h1 rfl
      have hne : c.toNat ≠ 0x100 := hc.2
      rw [State.str_code h hc (by omega), List.length_append, List.length_singleton]
      omega

/-- A string is its first byte and the rest. -/
theorem State.str_eq_cons (h : TableOk s) {c : Code} (hc : Known s c) : s.str c = s.strHead c :: (s.str c).tail := by
  have := (State.str_length h hc).1
  rw [State.strHead]
  cases hs : s.str c with
  | nil => rw [hs] at this; simp at this
  | cons a l => rfl

/-- The string of a code and the string of its prefix begin with the same byte (R171). -/
theorem State.strHead_code (h : TableOk s) {c : Code} (hc : Known s c) (hbig : 255 < c.toNat) :
    s.strHead c = s.strHead (s.readTpr (c.toNat - 256)) := by
  obtain ⟨h1, -⟩ := h.parent hc hbig
  have := State.str_eq_cons h h1
  rw [State.strHead, State.str_code h hc hbig, this]
  rfl

/-! ### Walking: result -/

/-- The walk pushes the bytes of the string after the first, last byte first, and answers the first (R171). -/
theorem walk_known (h : TableOk s) {c : Code} (hc : Known s c) {fuel : Nat} (hf : c.toNat < fuel + 255) (hf0 : 0 < fuel)
    (hsp : s.sp.toNat + (s.str c).length ≤ Config.stackCap + 1) :
    walk fuel c s = some (s.strHead c, { s with
      stk := slotPut s.stk s.sp.toNat (s.str c).tail.reverse
      sp := s.sp + BitVec.ofNat 13 (s.str c).tail.length }) := by
  simp only [Config.stackCap] at hsp
  induction fuel generalizing c s with
  | zero => omega
  | succ n ih =>
    rw [walk]
    split
    · next hb =>
      rw [State.strHead, State.str_lit hb]
      simp [slotPut]
    · next hb =>
      obtain ⟨h1, h2⟩ := h.parent hc (by omega)
      have hlen := State.str_code h hc (by omega)
      have hl := congrArg List.length hlen
      have hp := (State.str_length h h1).1
      simp only [List.length_append, List.length_singleton] at hl
      rw [push_room _ (by simp only [Config.stackCap]; omega)]
      simp only
      rw [ih (s := s.pushed (s.readTch (c.toNat - 256))) (h.congr rfl rfl rfl) h1 (by omega) (by omega)]
      · have hst : State.str (s.pushed (s.readTch (c.toNat - 256))) (s.readTpr (c.toNat - 256)) =
            s.str (s.readTpr (c.toNat - 256)) :=
          State.str_congr (s := s) (t := s.pushed (s.readTch (c.toNat - 256))) rfl rfl rfl _
        have htail : (s.str c).tail = (s.str (s.readTpr (c.toNat - 256))).tail ++ [s.readTch (c.toNat - 256)] := by
          rw [hlen, State.str_eq_cons h h1]; rfl
        rw [State.strHead_code h hc (by omega)]
        have hhead : State.strHead (s.pushed (s.readTch (c.toNat - 256))) (s.readTpr (c.toNat - 256)) =
            s.strHead (s.readTpr (c.toNat - 256)) := by rw [State.strHead, hst, State.strHead]
        rw [hhead, hst, htail]
        simp only [State.pushed, List.reverse_append, List.reverse_singleton, List.singleton_append, slotPut,
          List.length_append, List.length_singleton]
        rw [count_succ (show s.sp.toNat < 8191 by omega), BitVec.add_assoc]
        congr 4
        apply BitVec.eq_of_toNat_eq
        simp [BitVec.toNat_ofNat, Nat.add_comm]
      · rw [State.str_congr (s := s) (t := s.pushed (s.readTch (c.toNat - 256))) rfl rfl rfl]
        simp only [State.pushed_sp]
        rw [count_succ (by omega)]
        omega

/-- `WalkEmit(c)` where there is room (R171, R179): the string of `c`, then what was on the stack, go to `SCR`. -/
theorem walkEmit_room (h : TableOk s) {c : Code} (hc : Known s c)
    (hsp : s.sp.toNat + (s.str c).length ≤ Config.stackCap + 1)
    (hroom : s.outN.toNat + (s.str c).length + s.sp.toNat ≤ s.rleLen.toNat) (hcap : s.rleLen.toNat ≤ Config.scratchCap) :
    walkEmit c s = .ok { s with
      finalByte := s.strHead c
      scr := slotPut s.scr s.outN.toNat (s.str c ++ s.pops s.sp.toNat)
      outN := s.outN + BitVec.ofNat 13 ((s.str c).length + s.sp.toNat)
      stk := slotPut s.stk s.sp.toNat (s.str c).tail.reverse
      sp := 0 } := by
  have hcl := c.isLt
  have hcons := State.str_eq_cons h hc
  have hlen : (s.str c).length = (s.str c).tail.length + 1 := by
    conv_lhs => rw [hcons]
    simp
  have hcap' := hcap
  simp only [Config.scratchCap] at hcap'
  simp only [Config.stackCap] at hsp
  rw [walkEmit, walk_known h hc (by simp only [Config.stackCap]; omega) (by simp [Config.stackCap])
    (by simp only [Config.stackCap]; omega)]
  simp only [emitString]
  rw [emitByte_room _ (by simp only; omega) (by simpa using hcap), Res.ok_andThen]
  have hspn : (s.sp + BitVec.ofNat 13 (s.str c).tail.length).toNat = s.sp.toNat + (s.str c).tail.length :=
    count_add (by omega)
  simp only [State.emitted_sp, hspn]
  rw [drain_room (s.sp.toNat + (s.str c).tail.length) (by simp only [State.emitted_sp]; exact hspn)
    (by simp only [Config.stackCap]; omega)
    (by simp only [State.emitted_outN, State.emitted_rleLen]; rw [count_succ (by omega)]; omega)
    (by simpa using hcap)]
  have hp := State.pops_slotPut (s := s) s.sp.toNat (s.str c).tail.reverse
  simp only [List.length_reverse, List.reverse_reverse] at hp
  have hpop : State.pops (State.emitted { s with
      stk := slotPut s.stk s.sp.toNat (s.str c).tail.reverse
      sp := s.sp + BitVec.ofNat 13 (s.str c).tail.length
      finalByte := s.strHead c } (s.strHead c)) (s.sp.toNat + (s.str c).tail.length) =
      (s.str c).tail ++ s.pops s.sp.toNat :=
    (State.pops_congr (s := { s with stk := slotPut s.stk s.sp.toNat (s.str c).tail.reverse }) rfl rfl _).trans hp
  rw [hpop]
  simp only [State.emitted]
  have hput : slotPut s.scr s.outN.toNat (s.str c ++ s.pops s.sp.toNat) =
      slotPut (slotSet s.scr s.outN.toNat (s.strHead c)) (s.outN.toNat + 1)
        ((s.str c).tail ++ s.pops s.sp.toNat) := by
    conv_lhs => rw [hcons]
    rfl
  rw [hput, count_succ (show s.outN.toNat < 8191 by omega), hlen, BitVec.add_assoc]
  congr 3
  apply BitVec.eq_of_toNat_eq
  simp [BitVec.toNat_ofNat]
  congr 1; omega

/-- `WalkEmit(c)` where there is not enough room raises `OutputOverrun(expected_len)` (R176). -/
theorem walkEmit_overrun (h : TableOk s) {c : Code} (hc : Known s c)
    (hsp : s.sp.toNat + (s.str c).length ≤ Config.stackCap + 1) (hle : s.outN.toNat ≤ s.rleLen.toNat)
    (hroom : s.rleLen.toNat < s.outN.toNat + (s.str c).length + s.sp.toNat)
    (hcap : s.rleLen.toNat ≤ Config.scratchCap) :
    ∃ a n d k, walkEmit c s = .raised (State.raised
      { s with finalByte := s.strHead c, scr := a, outN := n, stk := d, sp := k } .outputOverrun s.rleLen.toNat) := by
  have hcl := c.isLt
  have hcons := State.str_eq_cons h hc
  have hlen : (s.str c).length = (s.str c).tail.length + 1 := by
    conv_lhs => rw [hcons]
    simp
  have hcap' := hcap
  simp only [Config.scratchCap] at hcap'
  simp only [Config.stackCap] at hsp
  rw [walkEmit, walk_known h hc (by simp only [Config.stackCap]; omega) (by simp [Config.stackCap])
    (by simp only [Config.stackCap]; omega)]
  simp only [emitString]
  have hspn : (s.sp + BitVec.ofNat 13 (s.str c).tail.length).toNat = s.sp.toNat + (s.str c).tail.length :=
    count_add (by omega)
  by_cases hfull : s.rleLen.toNat ≤ s.outN.toNat
  · rw [emitByte_full _ (by simpa using hfull), Res.raised_andThen]
    exact ⟨_, _, _, _, by rw [show s.rleLen.toNat = s.outN.toNat by omega]⟩
  · rw [emitByte_room _ (by simp only; omega) (by simpa using hcap), Res.ok_andThen]
    simp only [State.emitted_sp, hspn]
    obtain ⟨a, b, e, hd⟩ := drain_overrun (s := State.emitted { s with
        stk := slotPut s.stk s.sp.toNat (s.str c).tail.reverse
        sp := s.sp + BitVec.ofNat 13 (s.str c).tail.length
        finalByte := s.strHead c } (s.strHead c)) (s.sp.toNat + (s.str c).tail.length)
      (by simp only [Config.stackCap]; omega)
      (by simp only [State.emitted_outN, State.emitted_rleLen]; rw [count_succ (by omega)]; omega)
      (by simp only [State.emitted_outN, State.emitted_rleLen]; rw [count_succ (by omega)]; omega)
      (by simpa using hcap)
    exact ⟨a, b, _, e, hd⟩

/-- `WalkEmit` of a literal walks nothing, whatever the table (R165). -/
theorem walkEmit_lit {c : Code} (hc : c.toNat ≤ 255) : walkEmit c s = emitString (c.setWidth 8) s := by
  simp [walkEmit, walk, hc]

/-- Emitting one byte with an empty stack. -/
theorem emitString_empty (b : Byte) (hsp : s.sp.toNat = 0) :
    emitString b s = emitByte b { s with finalByte := b } := by
  rw [emitString]
  rcases emitByte_cases b { s with finalByte := b } with ⟨-, -, h⟩ | ⟨-, h⟩ | ⟨-, -, h⟩
  · rw [h, Res.ok_andThen]; simp [State.emitted, hsp, drain]
  · rw [h]; rfl
  · rw [h]; rfl

/-! ### What every part of `WalkEmit` keeps -/

/-- The state an ended or raised part leaves has the property. -/
def Res.Holds (P : State → Prop) : Res → Prop
  | .ok s => P s
  | .raised s => P s
  | .fault _ => True
  | .refused _ => True

/-- The changes that `WalkEmit` is made of keep the property. -/
structure KeptByEmission (P : State → Prop) : Prop where
  push  : ∀ s b, P s → s.sp.toNat < Config.stackCap → P (s.pushed b)
  emit  : ∀ s b, P s → s.outN.toNat < s.rleLen.toNat → s.outN.toNat < Config.scratchCap → P (s.emitted b)
  sp    : ∀ s k, P s → P { s with sp := k }
  final : ∀ s b, P s → P { s with finalByte := b }
  raise : ∀ s c v, P s → P (s.raised c v)

theorem KeptByEmission.emitByte {P : State → Prop} (k : KeptByEmission P) (b : Byte) (h : P s) :
    (emitByte b s).Holds P := by
  rcases emitByte_cases b s with ⟨h1, h2, h3⟩ | ⟨-, h3⟩ | ⟨-, -, h3⟩ <;> rw [h3]
  · exact k.emit s b h h1 h2
  · exact k.raise s _ _ h
  · trivial

theorem KeptByEmission.drain {P : State → Prop} (k : KeptByEmission P) (n : Nat) (h : P s) : (drain n s).Holds P := by
  induction n generalizing s with
  | zero => exact h
  | succ n ih =>
    have := k.emitByte (s.readStk n) (k.sp s (BitVec.ofNat 13 n) h)
    rw [Machine.drain]
    cases he : Machine.emitByte (s.readStk n) { s with sp := BitVec.ofNat 13 n } with
    | ok t => rw [he] at this; exact ih this
    | raised t => rw [he] at this; exact this
    | fault f => trivial
    | refused r => trivial

theorem KeptByEmission.walk {P : State → Prop} (k : KeptByEmission P) {fuel : Nat} {c : Code} {b : Byte} (h : P s)
    (hw : walk fuel c s = some (b, t)) : P t := by
  induction fuel generalizing c s with
  | zero => cases hw
  | succ n ih =>
    rw [Machine.walk] at hw
    split at hw
    · cases hw; exact h
    · split at hw
      · cases hw
      · next s' hs =>
        obtain ⟨hsp, rfl⟩ := push_some hs
        exact ih (k.push s _ h hsp) hw

/-- A property the parts keep is kept by `WalkEmit`. -/
theorem KeptByEmission.walkEmit {P : State → Prop} (k : KeptByEmission P) (c : Code) (h : P s) :
    (walkEmit c s).Holds P := by
  rw [Machine.walkEmit]
  split
  · trivial
  · next b s' hw =>
    have h1 := k.walk h hw
    rw [emitString]
    have := k.emitByte b (k.final s' b h1)
    cases he : Machine.emitByte b { s' with finalByte := b } with
    | ok u => rw [he] at this; exact k.drain _ this
    | raised u => rw [he] at this; exact this
    | fault f => trivial
    | refused r => trivial

/-- The work stack and the scratch buffer stay in canonical form. -/
theorem keptFiles : KeptByEmission fun s =>
    slotsWf Config.stackCap s.stk = true ∧ slotsWf Config.scratchCap s.scr = true where
  push _ b h hs := ⟨slotSet_wf h.1 hs b, h.2⟩
  emit _ b h _ hs := ⟨h.1, slotSet_wf h.2 hs b⟩
  sp _ _ h := h
  final _ _ h := h
  raise _ _ _ h := h

end Sys2Proof.Machine
end

