-- ==== Sys2Proof/Laws/BitReader.lean ====
section
/-! SUPPORT. What the fetch of bytes and GETCODE do: the bits they cut out and the position they leave (R61, R122, R126). -/

namespace Sys2Proof.Machine

variable {s t : State}

/-! ### The tables -/

theorem widthIndex_range {entry : Count} (h1 : Config.firstCode ≤ entry.toNat) (h2 : entry.toNat ≤ Config.tableFull) :
    1 ≤ widthIndex entry ∧ widthIndex entry ≤ 16 := by
  simp only [Config.firstCode, Config.tableFull] at h1 h2
  simp only [widthIndex, Nat.shiftRight_eq_div_pow]
  omega

/-- In the range of `entry` a code has 9 to 12 bits, and the mask is `2^w - 1` (R121). -/
theorem codeWidth_range {entry : Count} (h1 : Config.firstCode ≤ entry.toNat) (h2 : entry.toNat ≤ Config.tableFull) :
    ∃ w, codeWidth entry = some w ∧ codeMask entry = some (2 ^ w - 1) ∧ 9 ≤ w ∧ w ≤ 12 := by
  obtain ⟨h3, h4⟩ := widthIndex_range h1 h2
  generalize hk : widthIndex entry = k at h3 h4
  have hw : codeWidth entry = Config.widths[k]? := by rw [codeWidth, hk, if_neg (by omega)]
  have hm : codeMask entry = Config.masks[k]? := by rw [codeMask, hk, if_neg (by omega)]
  rw [hw, hm]
  interval_cases k <;> simp [Config.widths, Config.masks]

/-- After a table reset codes have 9 bits (R112, R113). -/
theorem codeWidth_first : codeWidth (BitVec.ofNat 13 Config.firstCode) = some 9 := by decide

theorem codeMask_first : codeMask (BitVec.ofNat 13 Config.firstCode) = some (2 ^ 9 - 1) := by decide

/-! ### Bits -/

theorem field_testBit (v lo n j : Nat) : (field v lo n).testBit j = (decide (j < n) && v.testBit (lo + j)) := by
  simp [field, Nat.testBit_mod_two_pow, Nat.testBit_shiftRight]

/-- The bits of a little-endian number are the bits of its bytes (R60, R61). -/
theorem leBytes_testBit (f : Nat → Byte) (a n q : Nat) :
    (leBytes f a n).testBit q = (decide (q < 8 * n) && (f (a + q / 8)).getLsbD (q % 8)) := by
  induction n generalizing a q with
  | zero => simp [leBytes]
  | succ n ih =>
    rw [leBytes, Nat.add_comm, Nat.testBit_two_pow_mul_add _ (f a).isLt, ih]
    by_cases hq : q < 8
    · rw [if_pos hq, show q / 8 = 0 by omega, show q % 8 = q by omega, BitVec.getLsbD]
      simp; omega
    · rw [if_neg hq, show a + 1 + (q - 8) / 8 = a + q / 8 by omega, show (q - 8) % 8 = q % 8 by omega]
      congr 1
      exact decide_eq_decide.mpr (by omega)

/-- Bit `j` of a field of the input is bit `p + j` of the input bit string (R61). -/
theorem State.inField_testBit (s : State) {p w j : Nat} (hw : w ≤ 16) :
    (s.inField p w).testBit j = (decide (j < w) && s.inBit (p + j)) := by
  rw [State.inField, field_testBit, leBytes_testBit, State.inBit]
  by_cases hj : j < w
  · rw [show p / 8 + (p % 8 + j) / 8 = (p + j) / 8 by omega, show (p % 8 + j) % 8 = (p + j) % 8 by omega]
    simp [hj]; omega
  · simp [hj]

theorem State.inField_lt (s : State) (p w : Nat) : s.inField p w < 2 ^ w := Nat.mod_lt _ (Nat.two_pow_pos w)

/-! ### `Fetch8` -/

theorem fetch8_some (h : s.ip.toNat < s.inLen.toNat) : fetch8 s = some (s.readIn s.ip.toNat, s.advance 1) := by
  simp [fetch8, h]

theorem fetch8_none (h : s.inLen.toNat ≤ s.ip.toNat) : fetch8 s = none := by
  simp [fetch8, Nat.not_lt.mpr h]

theorem ip_advance (s : State) {n : Nat} (h : s.ip.toNat + n ≤ s.inLen.toNat) :
    (s.advance n).ip.toNat = s.ip.toNat + n := by
  have := s.inLen.isLt
  rw [State.advance_ip, addr_add (by omega)]

/-! ### GETCODE -/

/-- `Fetch8` moves `ip` alone. -/
theorem fetch8_frame {b : Byte} (h : fetch8 s = some (b, t)) : t = s.advance 1 := by
  unfold fetch8 at h
  split at h
  · cases h; rfl
  · cases h

theorem firstSource_frame {b : Byte} (h : firstSource s = some (b, t)) : ∃ a, t = { s with ip := a } := by
  unfold firstSource at h
  split at h
  · exact ⟨_, fetch8_frame h⟩
  · cases h; exact ⟨_, rfl⟩

/-- GETCODE (R120): it writes `ip`, `start_bit`, `last_byte` and `code`, and can only raise `InputUnderrun(IN_LEN)`,
having moved `ip` alone. -/
theorem getcode_frame (s : State) :
    (∀ t, getcode s = .ok t → ∃ a b c d, t = { s with ip := a, startBit := b, lastByte := c, code := d }) ∧
    (∀ t, getcode s = .raised t → ∃ a, t = State.raised { s with ip := a } .inputUnderrun s.inLen.toNat) ∧
    (∀ f, getcode s ≠ .fault f) := by
  unfold getcode
  split
  · next w m _ _ =>
    unfold getcodeAt
    split
    · exact ⟨by simp [underrun, raise], fun t h => ⟨s.ip, (Res.raised.inj h).symm⟩, by simp [underrun, raise]⟩
    · next b0 s1 h1 =>
      obtain ⟨a, rfl⟩ := firstSource_frame h1
      split
      · exact ⟨by simp [underrun, raise], fun t h => ⟨a, (Res.raised.inj h).symm⟩, by simp [underrun, raise]⟩
      · next b1 s2 h2 =>
        obtain rfl := fetch8_frame h2
        split
        · split
          · exact ⟨by simp [underrun, raise], fun t h => ⟨_, (Res.raised.inj h).symm⟩, by simp [underrun, raise]⟩
          · next b2 s3 h3 =>
            obtain rfl := fetch8_frame h3
            exact ⟨fun t h => ⟨_, _, _, _, (Res.ok.inj h).symm⟩, by simp, by simp⟩
        · exact ⟨fun t h => ⟨_, _, _, _, (Res.ok.inj h).symm⟩, by simp, by simp⟩
  · exact ⟨by simp, by simp, by simp⟩

/-- The two-byte assembly of R122 cuts out the bits of the input. -/
theorem cut_two (f : Nat → Byte) (a sb w : Nat) (h : sb + w ≤ 16) :
    (((f a).toNat ||| (f (a + 1)).toNat <<< 8) >>> sb) &&& (2 ^ w - 1) = field (leBytes f a 3) sb w := by
  apply Nat.eq_of_testBit_eq
  intro j
  rw [field_testBit, leBytes_testBit, Nat.testBit_and, Nat.testBit_shiftRight, Nat.testBit_or, Nat.testBit_shiftLeft,
    Nat.testBit_two_pow_sub_one]
  by_cases hj : j < w
  · by_cases h8 : sb + j < 8
    · rw [show (sb + j) / 8 = 0 by omega, show (sb + j) % 8 = sb + j by omega]
      simp [hj, BitVec.getLsbD, Nat.not_le.mpr h8]; omega
    · rw [show a + (sb + j) / 8 = a + 1 by omega, show (sb + j) % 8 = sb + j - 8 by omega,
        Nat.testBit_lt_two_pow (Nat.lt_of_lt_of_le (f a).isLt (Nat.pow_le_pow_right (by omega) (by omega)))]
      simp [hj, BitVec.getLsbD, Nat.le_of_not_lt h8]; omega
  · simp [hj]

/-- The three-byte assembly of R122 cuts out the bits of the input. -/
theorem cut_three (f : Nat → Byte) (a sb w : Nat) (h : sb + w ≤ 24) :
    (((f a).toNat ||| (f (a + 1)).toNat <<< 8 ||| (f (a + 1 + 1)).toNat <<< 16) >>> sb) &&& (2 ^ w - 1) =
      field (leBytes f a 3) sb w := by
  have hb : ∀ k q, 8 ≤ q → (f k).toNat.testBit q = false := fun k q hq =>
    Nat.testBit_lt_two_pow (Nat.lt_of_lt_of_le (f k).isLt (Nat.pow_le_pow_right (by omega) hq))
  apply Nat.eq_of_testBit_eq
  intro j
  rw [field_testBit, leBytes_testBit, Nat.testBit_and, Nat.testBit_shiftRight, Nat.testBit_or, Nat.testBit_or,
    Nat.testBit_shiftLeft, Nat.testBit_shiftLeft, Nat.testBit_two_pow_sub_one]
  by_cases hj : j < w
  · rcases Nat.lt_or_ge (sb + j) 8 with h8 | h8
    · rw [show (sb + j) / 8 = 0 by omega, show (sb + j) % 8 = sb + j by omega]
      simp [hj, BitVec.getLsbD, Nat.not_le.mpr h8, show ¬ 16 ≤ sb + j by omega]; omega
    · rcases Nat.lt_or_ge (sb + j) 16 with h16 | h16
      · rw [show a + (sb + j) / 8 = a + 1 by omega, show (sb + j) % 8 = sb + j - 8 by omega, hb a _ h8]
        simp [hj, BitVec.getLsbD, h8, Nat.not_le.mpr h16]; omega
      · rw [show a + (sb + j) / 8 = a + 1 + 1 by omega, show (sb + j) % 8 = sb + j - 16 by omega, hb a _ h8,
          hb (a + 1) _ (by omega)]
        simp [hj, BitVec.getLsbD, h16]; omega
  · simp [hj]

/-- The position of the next code (R34, R126), split into the byte that holds its first bit and the bit in it. -/
theorem State.bitPos_split (s : State) :
    s.bitPos % 8 = s.startBit.toNat ∧
      s.bitPos / 8 = if s.startBit.toNat = 0 then s.ip.toNat else s.ip.toNat - 1 := by
  have := s.startBit.isLt
  by_cases h : s.startBit.toNat = 0
  · simp [State.bitPos, h]
  · simp only [State.bitPos, if_neg h]; omega

/-- GETCODE where the code is there (R122, R124, R126): it cuts out the next `w` bits of the input bit string, and the
position moves past them. -/
theorem getcode_room {w : Nat} (hw : codeWidth s.entry = some w) (hm : codeMask s.entry = some (2 ^ w - 1))
    (h9 : 9 ≤ w) (h12 : w ≤ 12) (hres : ResidueOk s) (hroom : s.bitPos + w ≤ 8 * s.inLen.toNat) :
    getcode s = .ok { s with
      code := BitVec.ofNat 12 (s.inField s.bitPos w)
      startBit := BitVec.ofNat 3 ((s.bitPos + w) % 8)
      ip := BitVec.ofNat 32 (byteAfter (s.bitPos + w))
      lastByte := s.readIn (byteAfter (s.bitPos + w) - 1) } := by
  have hsb := s.startBit.isLt
  obtain ⟨hp1, hp2⟩ := s.bitPos_split
  have hL := s.inLen.isLt
  have hfield : s.inField s.bitPos w = field (leBytes s.readIn (s.bitPos / 8) 3) s.startBit.toNat w := by
    rw [State.inField, hp1]
  have h3 : BitVec.ofNat 3 ((s.startBit.toNat + w) % 8) = BitVec.ofNat 3 ((s.bitPos + w) % 8) := by
    congr 1; omega
  simp only [getcode, hw, hm]
  by_cases h0 : s.startBit.toNat = 0
  · -- a fresh byte, then one more
    have hpos : s.bitPos = 8 * s.ip.toNat := by simp [State.bitPos, h0]
    have ha : s.bitPos / 8 = s.ip.toNat := by omega
    have hafter : byteAfter (s.bitPos + w) = s.ip.toNat + 2 := by simp only [byteAfter]; omega
    have hi1 : (s.advance 1).ip.toNat = s.ip.toNat + 1 := ip_advance s (by omega)
    rw [getcodeAt, firstSource, if_pos h0, fetch8_some (by omega)]
    simp only
    rw [fetch8_some (by rw [hi1]; simp only [State.advance_inLen]; omega)]
    simp only
    rw [if_neg (by omega), hi1]
    simp only [State.codeCut, h3, hafter, hfield, ha, State.readIn, State.advance_input]
    rw [cut_two _ _ _ _ (by omega)]
    simp only [State.advance, show s.ip.toNat + 2 - 1 = s.ip.toNat + 1 by omega]
    congr 3
    apply BitVec.eq_of_toNat_eq
    simp [BitVec.toNat_add, BitVec.toNat_ofNat]
  · -- the residue byte, then one or two more
    obtain ⟨hip, hlast⟩ := hres h0
    have ha : s.bitPos / 8 = s.ip.toNat - 1 := by rw [hp2, if_neg h0]
    have hpos : s.bitPos = 8 * (s.ip.toNat - 1) + s.startBit.toNat := by simp [State.bitPos, h0]
    rw [getcodeAt, firstSource, if_neg h0]
    simp only
    have hn1 : s.ip.toNat = s.ip.toNat - 1 + 1 := by omega
    by_cases h16 : 16 < s.startBit.toNat + w
    · have hafter : byteAfter (s.bitPos + w) = s.ip.toNat + 2 := by simp only [byteAfter]; omega
      have hi1 : (s.advance 1).ip.toNat = s.ip.toNat + 1 := ip_advance s (by omega)
      rw [fetch8_some (by omega)]
      simp only
      rw [if_pos h16, fetch8_some (by rw [hi1]; simp only [State.advance_inLen]; omega)]
      simp only
      rw [hi1]
      simp only [State.codeCut, h3, hafter, hfield, ha, hlast, State.readIn, State.advance_input]
      rw [show s.ip.toNat + 1 = s.ip.toNat - 1 + 1 + 1 by omega]
      rw [show memRead s.input s.ip.toNat = memRead s.input (s.ip.toNat - 1 + 1) by rw [← hn1]]
      rw [cut_three (memRead s.input) _ _ _ (by omega)]
      simp only [State.advance, show s.ip.toNat + 2 - 1 = s.ip.toNat - 1 + 1 + 1 by omega]
      congr 3
      apply BitVec.eq_of_toNat_eq
      simp [BitVec.toNat_add, BitVec.toNat_ofNat]
    · have hafter : byteAfter (s.bitPos + w) = s.ip.toNat + 1 := by simp only [byteAfter]; omega
      rw [fetch8_some (by omega)]
      simp only
      rw [if_neg h16]
      simp only [State.codeCut, h3, hafter, hfield, ha, hlast, State.readIn]
      rw [show memRead s.input s.ip.toNat = memRead s.input (s.ip.toNat - 1 + 1) by rw [← hn1]]
      rw [cut_two (memRead s.input) _ _ _ (by omega)]
      simp only [State.advance, Nat.add_sub_cancel, ← hn1]
      congr 3

/-- GETCODE where `IN` ends inside the code (R128): `InputUnderrun(IN_LEN)`, with `ip` at the byte that is not there. -/
theorem getcode_short {w : Nat} (hw : codeWidth s.entry = some w) (hm : codeMask s.entry = some (2 ^ w - 1))
    (h9 : 9 ≤ w) (h12 : w ≤ 12) (hres : ResidueOk s) (hip : s.ip.toNat ≤ s.inLen.toNat)
    (hshort : 8 * s.inLen.toNat < s.bitPos + w) :
    getcode s = .raised (State.raised { s with ip := s.inLen } .inputUnderrun s.inLen.toNat) := by
  have hsb := s.startBit.isLt
  have hL := s.inLen.isLt
  have hadv : ∀ u : State, u.ip.toNat + 1 = u.inLen.toNat → u.advance 1 = { u with ip := u.inLen } := by
    intro u hu
    have : u.ip + BitVec.ofNat 32 1 = u.inLen := by
      apply BitVec.eq_of_toNat_eq
      rw [addr_add (by have := u.inLen.isLt; omega)]; omega
    simp only [State.advance, this]
  have heq : s.ip.toNat = s.inLen.toNat → { s with ip := s.inLen } = s := by
    intro h
    exact congrArg (fun a => { s with ip := a }) (BitVec.eq_of_toNat_eq h.symm)
  simp only [getcode, hw, hm]
  by_cases h0 : s.startBit.toNat = 0
  · have hpos : s.bitPos = 8 * s.ip.toNat := by simp [State.bitPos, h0]
    rw [getcodeAt, firstSource, if_pos h0]
    by_cases hlt : s.ip.toNat < s.inLen.toNat
    · have hi1 : (s.advance 1).ip.toNat = s.ip.toNat + 1 := ip_advance s (by omega)
      rw [fetch8_some hlt]
      simp only
      rw [fetch8_none (by rw [hi1]; simp only [State.advance_inLen]; omega)]
      simp only [underrun, raise, State.advance_inLen]
      rw [hadv s (by omega)]
    · rw [fetch8_none (by omega)]
      simp only [underrun, raise]
      rw [heq (by omega)]
  · obtain ⟨hip0, -⟩ := hres h0
    have hpos : s.bitPos = 8 * (s.ip.toNat - 1) + s.startBit.toNat := by simp [State.bitPos, h0]
    rw [getcodeAt, firstSource, if_neg h0]
    simp only
    by_cases hlt : s.ip.toNat < s.inLen.toNat
    · have hi1 : (s.advance 1).ip.toNat = s.ip.toNat + 1 := ip_advance s (by omega)
      rw [fetch8_some hlt]
      simp only
      rw [if_pos (by omega), fetch8_none (by rw [hi1]; simp only [State.advance_inLen]; omega)]
      simp only [underrun, raise, State.advance_inLen]
      rw [hadv s (by omega)]
    · rw [fetch8_none (by omega)]
      simp only [underrun, raise]
      rw [heq (by omega)]

end Sys2Proof.Machine
end

