-- ==== Sys2Proof/Laws/Step.lean ====
section
/-! SUPPORT. What a step is, in three cases: the host's event, a transition of the sequencer, or the operation that was
fetched. And the bytes of a header as numbers. -/

namespace Sys2Proof.Machine

variable {s u t : State}

/-- A step that runs an operation. -/
theorem step_run {i : Instr} (h : Moves s u) (hf : fetch u = .run i t) : step s = exec i t := by
  unfold Moves at h
  simp only [step, h, hf]

/-- A step that is settled without one. -/
theorem step_settled {o : Host.Outcome State Fault Refusal} (h : Moves s u) (hf : fetch u = .settled o) : step s = o := by
  unfold Moves at h
  simp only [step, h, hf]

/-- A step the host leaves to the machine: an operation, or a transition. -/
theorem step_moves (h : Moves s u) :
    (∃ i t, fetch u = .run i t ∧ step s = exec i t) ∨ (∃ o, fetch u = .settled o ∧ step s = o) := by
  cases hf : fetch u with
  | run i t => exact .inl ⟨i, t, rfl, step_run h hf⟩
  | settled o => exact .inr ⟨o, rfl, step_settled h hf⟩

/-- The state the machine moves from is the step's state but for `inputs`. -/
theorem Moves.eq (h : Moves s u) : u = { s with inputs := u.inputs } ∧ (∀ e ∈ u.inputs, e ∈ s.inputs) := by
  unfold Moves hostTurn at h
  split at h
  · cases h; exact ⟨rfl, fun _ h => h⟩
  · next rest he => cases h; exact ⟨rfl, fun e h => by rw [he]; exact List.mem_cons_of_mem _ h⟩
  · split at h <;> cases h
  · cases h

/-- The host's turn: the machine moves, START is refused or taken, or a hardware reset. -/
theorem host_cases (s : State) :
    (∃ u, Moves s u) ∨
    (∃ a rest, s.inputs = .start a :: rest ∧
      (s.status = .busy ∧ step s = .refused .startWhileBusy ∨
        s.status ≠ .busy ∧ step s = .next (start a { s with inputs := rest }))) ∨
    (∃ rest, s.inputs = .hardReset :: rest ∧ step s = .next (hardReset { s with inputs := rest })) := by
  cases h : s.inputs with
  | nil => exact .inl ⟨s, by simp [Moves, hostTurn, h]⟩
  | cons e rest =>
    cases e with
    | wait => exact .inl ⟨{ s with inputs := rest }, by simp [Moves, hostTurn, h]⟩
    | start a =>
      refine .inr (.inl ⟨a, rest, rfl, ?_⟩)
      by_cases hb : s.status = .busy
      · exact .inl ⟨hb, by simp [step, hostTurn, h, hb]⟩
      · exact .inr ⟨hb, by simp [step, hostTurn, h, hb]⟩
    | hardReset => exact .inr (.inr ⟨rest, rfl, by simp [step, hostTurn, h]⟩)

/-! ### What is fetched, by where the machine stands -/

theorem fetch_still (h : s.status ≠ .busy) : fetch s = .settled (.next s) := by
  unfold State.status at h
  unfold fetch
  split <;> simp_all

theorem fetch_thdr (h : s.phase = .thdr) : fetch s = fetchHeader (.thdr s.variant) s := by simp only [fetch, h]
theorem fetch_bhdr (h : s.phase = .bhdr) : fetch s = fetchHeader (.bhdr s.variant) s := by simp only [fetch, h]
theorem fetch_crc (h : s.phase = .crc) : fetch s = .run .crcblk s := by simp only [fetch, h]
theorem fetch_emit (h : s.phase = .emit) : fetch s = .run .emitblk s := by simp only [fetch, h]
theorem fetch_verify (h : s.phase = .verify) : fetch s = .run .verify s := by simp only [fetch, h]
theorem fetch_choose (h : s.phase = .payload) (h' : s.stage = .choose) : fetch s = choosePath s := by
  simp only [fetch, h, h']
theorem fetch_lzw0 (h : s.phase = .payload) (h' : s.stage = .lzw0) :
    fetch s = fetchCode (fun s' => .lit0 s'.code) s := by simp only [fetch, h, h']
theorem fetch_lzw (h : s.phase = .payload) (h' : s.stage = .lzw) :
    fetch s = if s.outN.toNat < s.rleLen.toNat then fetchCode State.mainOp s else .settled (engineEnd s).outcome := by
  simp only [fetch, h, h']
theorem fetch_rle (h : s.phase = .payload) (h' : s.stage = .rle) :
    fetch s = if s.rleOut.toNat < Config.block then fetchToken s else .settled (.next (rleEnd s)) := by
  simp only [fetch, h, h']

/-! ### The bytes of a header -/

theorem field_div (v lo n : Nat) : field v lo n = v / 2 ^ lo % 2 ^ n := by
  rw [field, Nat.shiftRight_eq_div_pow]

/-- A 16-bit field is its two bytes, the lower address less significant (R60, R100). -/
theorem State.in16_toNat (s : State) (a : Nat) :
    (s.in16 a).toNat = (s.readIn a).toNat + 256 * (s.readIn (a + 1)).toNat := by
  rw [State.in16, BitVec.toNat_append, Nat.shiftLeft_eq, Nat.mul_comm,
    ← Nat.two_pow_add_eq_or_of_lt (s.readIn a).isLt]
  omega

theorem bit15 (w : BitVec 16) : w.getLsbD 15 = decide (w.toNat / 32768 % 2 = 1) := by
  rw [BitVec.getLsbD, Nat.testBit_eq_decide_div_mod_eq]

theorem wordRleLen_toNat (w : BitVec 16) : (wordRleLen w).toNat = w.toNat % 8192 := by
  rw [wordRleLen, BitVec.toNat_and]; exact Nat.and_two_pow_sub_one_eq_mod w.toNat 13

end Sys2Proof.Machine
end

