-- ==== Sys2Proof/Laws/Table.lean ====
section
/-! SUPPORT. What recording does to the string table (R173, R177, R179), and the result of each code operation in terms of
strings. -/

namespace Sys2Proof.Machine

variable {s t : State}

theorem TableOk.str_le (h : TableOk s) {c : Code} (hc : Known s c) : (s.str c).length ≤ 3840 := by
  have := (State.str_length h hc).2
  have := c.isLt
  omega

/-- Recording keeps the table's invariant (R59 items 1 and 2): the new slot's prefix is `old`. -/
theorem TableOk.recorded (h : TableOk s) (hold : OldOk s) (hroom : s.entry.toNat < Config.tableFull) (c : Code) :
    TableOk (s.recorded c) := by
  obtain ⟨ho1, ho2⟩ := hold
  have hlow := h.low
  simp only [Config.firstCode, Config.tableFull] at hlow hroom
  have he : (s.entry + 1).toNat = s.entry.toNat + 1 := count_succ (by omega)
  refine ⟨?_, ?_, fun k h1 h2 => ?_⟩
  · simp only [State.recorded_entry, he, Config.firstCode]; omega
  · simp only [State.recorded_entry, he, Config.tableFull]; omega
  · simp only [State.recorded_entry, he, Config.firstCode] at h1 h2
    simp only [State.recorded_tch, State.recorded_tpr]
    by_cases hk : k = s.entry.toNat
    · subst hk
      exact ⟨s.finalByte, s.old, slotGet?_slotSet_same _ _ _, slotGet?_slotSet_same _ _ _, ho1, ho2⟩
    · obtain ⟨b, p, hb, hp, h3, h4⟩ := h.slots k h1 (by omega)
      exact ⟨b, p, by rw [slotGet?_slotSet_other _ _ (by omega), hb],
        by rw [slotGet?_slotSet_other _ _ (by omega), hp], h3, h4⟩

theorem Known.recorded (hc : Known s c) (hroom : s.entry.toNat < Config.tableFull) (d : Code) :
    Known (s.recorded d) c := by
  simp only [Config.tableFull] at hroom
  refine ⟨?_, hc.2⟩
  rw [State.recorded_entry, count_succ (by omega)]
  exact Nat.lt_succ_of_lt hc.1

/-- Recording keeps the string of every code that was known (R179). -/
theorem State.str_recorded (h : TableOk s) (hold : OldOk s) (hroom : s.entry.toNat < Config.tableFull) (d : Code)
    {c : Code} (hc : Known s c) : (s.recorded d).str c = s.str c := by
  have hT := h.recorded hold hroom d
  have hlow := h.low
  simp only [Config.firstCode] at hlow
  induction hk : c.toNat using Nat.strong_induction_on generalizing c with
  | _ k ih =>
    by_cases hb : c.toNat ≤ 255
    · rw [State.str_lit hb, State.str_lit hb]
    · obtain ⟨h1, h2⟩ := h.parent hc (by omega)
      have hc1 := hc.1
      have hne := hc.2
      simp only [Config.clearCode] at hne
      have htpr : (s.recorded d).readTpr (c.toNat - 256) = s.readTpr (c.toNat - 256) := by
        simp only [State.readTpr, State.recorded_tpr, State.recorded_freeCount, slotRead,
          slotGet?_slotSet_other _ _ (show c.toNat - 256 ≠ s.entry.toNat - 256 by omega)]
      have htch : (s.recorded d).readTch (c.toNat - 256) = s.readTch (c.toNat - 256) := by
        simp only [State.readTch, State.recorded_tch, State.recorded_freeCount, slotRead,
          slotGet?_slotSet_other _ _ (show c.toNat - 256 ≠ s.entry.toNat - 256 by omega)]
      rw [State.str_code hT (hc.recorded hroom d) (by omega), State.str_code h hc (by omega), htpr, htch,
        ih _ (by omega) h1 rfl]

/-- Recording defines the new code: the string of `old`, then `final` (R173, R179). -/
theorem State.str_new (h : TableOk s) (hold : OldOk s) (hroom : s.entry.toNat < Config.tableFull) (d : Code) {e : Code}
    (he : e.toNat = s.entry.toNat) :
    Known (s.recorded d) e ∧ (s.recorded d).str e = s.str s.old ++ [s.finalByte] := by
  have hlow := h.low
  have hroom' := hroom
  simp only [Config.firstCode, Config.tableFull] at hlow hroom'
  have hk : Known (s.recorded d) e := by
    refine ⟨?_, by simp only [Config.clearCode]; omega⟩
    rw [State.recorded_entry, count_succ (by omega)]; omega
  refine ⟨hk, ?_⟩
  rw [State.str_code (h.recorded hold hroom d) hk (by omega)]
  have h1 : (s.recorded d).readTpr (e.toNat - 256) = s.old := by
    rw [he]; exact slotRead_of_get (slotGet?_slotSet_same _ _ _)
  have h2 : (s.recorded d).readTch (e.toNat - 256) = s.finalByte := by
    rw [he]; exact slotRead_of_get (slotGet?_slotSet_same _ _ _)
  rw [h1, h2, State.str_recorded h hold hroom d hold]

theorem State.strHead_recorded (h : TableOk s) (hold : OldOk s) (hroom : s.entry.toNat < Config.tableFull) (d : Code)
    {c : Code} (hc : Known s c) : (s.recorded d).strHead c = s.strHead c := by
  rw [State.strHead, State.str_recorded h hold hroom d hc, State.strHead]

theorem State.strHead_lit {c : Code} (hc : c.toNat ≤ 255) : s.strHead c = c.setWidth 8 := by
  rw [State.strHead, State.str_lit hc]; rfl

theorem code_byte (b : Byte) : (b.setWidth 12).toNat = b.toNat := by
  have := b.isLt
  rw [BitVec.toNat_setWidth]; omega

theorem byte_of_code (b : Byte) : (b.setWidth 12 : Code).setWidth 8 = b := by
  apply BitVec.eq_of_toNat_eq; simp

/-- `Record` after an emission: it records, or the table is full (R173, R174). -/
theorem record_cases_table (h : TableOk s) (code : Code) :
    (s.entry.toNat < Config.tableFull ∧ record code s = .ok (s.recorded code)) ∨
    (s.entry.toNat = Config.tableFull ∧ record code s = .raised (s.raised .tableOverflow s.entry.toNat)) := by
  have := h.high
  rcases record_cases code s with ⟨-, h1, h2⟩ | ⟨h1, h2⟩ | ⟨h1, -⟩
  · exact .inl ⟨h1, h2⟩
  · exact .inr ⟨by omega, h2⟩
  · have := h.low; simp only [Config.firstCode] at this; omega

/-- `WalkEmit` of a known code, with what KWK pushed before it or nothing: the string and the pushed byte are emitted,
or the block is too short for them (R171, R176, R179). -/
theorem walkEmit_known (h : TableOk s) {c : Code} (hc : Known s c) (hsp : s.sp.toNat ≤ 1)
    (ho : s.outN.toNat ≤ s.rleLen.toNat) (hcap : s.rleLen.toNat ≤ 4096) :
    (∃ d, s.outN.toNat + (s.str c ++ s.pops s.sp.toNat).length ≤ s.rleLen.toNat ∧
      walkEmit c s = .ok (s.spelled (s.str c ++ s.pops s.sp.toNat) d)) ∨
    (∃ a n d k, s.rleLen.toNat < s.outN.toNat + (s.str c ++ s.pops s.sp.toNat).length ∧
      walkEmit c s = .raised (State.raised
        { s with finalByte := s.strHead c, scr := a, outN := n, stk := d, sp := k } .outputOverrun s.rleLen.toNat)) := by
  have hl := h.str_le hc
  have hhead : (s.str c ++ s.pops s.sp.toNat).headD 0 = s.strHead c := by
    rw [State.str_eq_cons h hc]; rfl
  rw [List.length_append, State.pops_length]
  by_cases hroom : s.outN.toNat + ((s.str c).length + s.sp.toNat) ≤ s.rleLen.toNat
  · refine .inl ⟨slotPut s.stk s.sp.toNat (s.str c).tail.reverse, hroom, ?_⟩
    rw [walkEmit_room h hc (by simp only [Config.stackCap]; omega) (by omega) hcap, State.spelled, hhead,
      List.length_append, State.pops_length]
  · obtain ⟨a, n, d, k, hw⟩ := walkEmit_overrun h hc (by simp only [Config.stackCap]; omega) ho (by omega) hcap
    exact .inr ⟨a, n, d, k, by omega, hw⟩

end Sys2Proof.Machine
end

