-- ==== Sys2Proof/Laws/Effect.lean ====
section
/-! SUPPORT. What a step of the machine can do from a state that meets the invariant, said once: the relation `Effect`,
and the theorem that every step is one of its cases. Invariants are proved by cases on it. -/

namespace Sys2Proof.Machine

variable {s u t : State}

/-- The state after GETCODE of a code of `w` bits that `IN` holds (R126). -/
def State.codeRead (s : State) (w : Nat) : State :=
  { s with
    code := BitVec.ofNat 12 (s.inField s.bitPos w)
    startBit := BitVec.ofNat 3 ((s.bitPos + w) % 8)
    ip := BitVec.ofNat 32 (byteAfter (s.bitPos + w))
    lastByte := s.readIn (byteAfter (s.bitPos + w) - 1) }

/-- What a fault may have changed before it was raised: `w` keeps the thread, and its files are in canonical form. -/
structure Spoilt (u w : State) : Prop where
  thread : w.variant = u.variant ∧ w.usize = u.usize ∧ w.inLen = u.inLen ∧ w.input = u.input ∧ w.inputs = u.inputs
  output : w.out = u.out ∧ w.uncompRemaining = u.uncompRemaining ∧ w.crcAcc = u.crcAcc
  ip     : u.ip.toNat ≤ w.ip.toNat ∧ w.ip.toNat ≤ w.inLen.toNat
  tch    : slotsWf Config.tableCap w.tch = true
  tpr    : slotsWf Config.tableCap w.tpr = true
  stk    : slotsWf Config.stackCap w.stk = true
  scr    : slotsWf Config.scratchCap w.scr = true
  blk    : slotsWf Config.block w.blk = true

/-- One move of the machine: from `u` to `t`. -/
inductive Effect (u : State) : State → Prop where
  /-- IDLE, DONE, FAULT (R251, R208, R242). -/
  | still (hb : u.status ≠ .busy) : Effect u u
  /-- A fault of the stream (R238). -/
  | fault (c : Cause) (v : Nat) (w : State) (hb : u.status = .busy) (hw : Spoilt u w) : Effect u (w.raised c v)
  /-- THDR1, THDR2 (R191, R192). -/
  | threadHeader (a : Addr) (crc : BitVec 16) (volume escape : Byte) (hp : u.phase = .thdr)
      (ha : u.ip.toNat ≤ a.toNat ∧ a.toNat ≤ u.inLen.toNat) :
      Effect u { u with ip := a, hdrCrc := crc, volume := volume, escape := escape, phase := u.afterBlock }
  /-- BHDR1, BHDR2 (R193, R194). -/
  | blockHeader (a : Addr) (len n : BitVec 16) (used : Bool) (k : Nat) (hp : u.phase = .bhdr)
      (ha : u.ip.toNat ≤ a.toNat ∧ a.toNat ≤ u.inLen.toNat) (hl : len.toNat ≤ Config.block) :
      Effect u { u with
        ip := a, rleLen := len, lzwUsed := used, lzwLength := n, freeCount := k
        rleUsed := rleUsedOf len, writeLen := writeLenOf u.uncompRemaining, phase := .payload, stage := .choose }
  /-- RAWBLK (R203). -/
  | raw (hp : u.phase = .payload) (hs : u.stage = .choose) (hl : u.lzwUsed = false)
      (hfit : u.ip.toNat + Config.block ≤ u.inLen.toNat) :
      Effect u (State.blockComplete { u.resetWithoutLzw.advance Config.block with
        blk := slotsOfFn Config.block fun i => u.readIn (u.ip.toNat + i) })
  /-- The start of an invocation (R161, R162). -/
  | engineStart (hp : u.phase = .payload) (hs : u.stage = .choose) (hl : u.lzwUsed = true) : Effect u (lzwStart u)
  /-- The start of the RLE-only path (R202). -/
  | rleOnly (hp : u.phase = .payload) (hs : u.stage = .choose) (hl : u.lzwUsed = false) (hr : u.rleUsed = true)
      (hfit : u.ip.toNat + u.rleLen.toNat ≤ u.inLen.toNat) : Effect u u.resetWithoutLzw.rleStart
  /-- LIT0 (R164). -/
  | firstLiteral (c : Code) (hp : u.phase = .payload) (hs : u.stage = .lzw0) (hc : c.toNat ≤ 255)
      (ho : u.outN.toNat < u.rleLen.toNat) (hfit : u.bitPos + 9 ≤ 8 * u.inLen.toNat) :
      Effect u { State.emitted { u.codeRead 9 with finalByte := c.setWidth 8, old := c } (c.setWidth 8) with
        stage := .lzw }
  /-- CLR (R168), after its own code of `w` bits. -/
  | clear (c : Code) (w : Nat) (hp : u.phase = .payload) (hs : u.stage = .lzw) (hv : u.variant = .lzw2)
      (hc : c.toNat ≤ 255) (hw : 9 ≤ w) (ho : u.outN.toNat < u.rleLen.toNat)
      (hfit : u.bitPos + w + 9 ≤ 8 * u.inLen.toNat) :
      Effect u { State.emitted { ((u.codeRead w).codeRead 9).tableReset with finalByte := c.setWidth 8, old := c }
          (c.setWidth 8) with
        needClear := false
        resetFix := decide (u.outN.toNat + 1 = u.rleLen.toNat) || u.resetFix }
  /-- LIT, REF, KWK (R165, R166, R172), after a code of `w` bits. -/
  | codeRun (c : Code) (w : Nat) (bytes : List Byte) (d : Slots 8) (hp : u.phase = .payload) (hs : u.stage = .lzw)
      (hw : 9 ≤ w) (hfit : u.bitPos + w ≤ 8 * u.inLen.toNat) (hne : 1 ≤ bytes.length)
      (hroom : u.outN.toNat + bytes.length ≤ u.rleLen.toNat) (hcap : u.entry.toNat < Config.tableFull)
      (hd : slotsWf Config.stackCap d = true)
      (hstr : Known u c ∧ bytes = u.str c ∨ c.toNat = u.entry.toNat ∧ bytes = u.str u.old ++ [u.finalByte]) :
      Effect u (((u.codeRead w).spelled bytes d).recorded c)
  /-- The engine's normal end before the expander (R197). -/
  | engineToRle (hp : u.phase = .payload) (hs : u.stage = .lzw) (ho : u.outN.toNat = u.rleLen.toNat)
      (hr : u.rleUsed = true) : Effect u u.rleStart
  /-- The engine's normal end on the LZW-only path (R198). -/
  | engineToBlock (hp : u.phase = .payload) (hs : u.stage = .lzw) (ho : u.outN.toNat = u.rleLen.toNat)
      (hr : u.rleUsed = false) : Effect u (State.blockComplete { u with blk := u.scr })
  /-- RLIT, RRUN (R147, R148). -/
  | token (r : Count) (bytes : List Byte) (hp : u.phase = .payload) (hs : u.stage = .rle)
      (hr : u.rleIn.toNat ≤ r.toNat ∧ r.toNat ≤ u.rleLen.toNat) (hne : 1 ≤ bytes.length)
      (hroom : u.rleOut.toNat + bytes.length ≤ Config.block) :
      Effect u { u with
        rleIn := r, blk := slotPut u.blk u.rleOut.toNat bytes, rleOut := u.rleOut + BitVec.ofNat 13 bytes.length }
  /-- The expander's end (R150, R202). -/
  | rleDone (hp : u.phase = .payload) (hs : u.stage = .rle) (ho : u.rleOut.toNat = Config.block) : Effect u (rleEnd u)
  /-- CRCBLK (R204). -/
  | crc (hp : u.phase = .crc) :
      Effect u { u with crcAcc := crcBuf u.crcAcc (u.blkBytes Config.block), phase := .emit }
  /-- EMITBLK (R205). -/
  | emit (hp : u.phase = .emit) :
      Effect u (State.headerDone { u with
        out := u.out ++ u.blkBytes u.writeLen.toNat
        uncompRemaining := u.uncompRemaining - u.writeLen.setWidth 32 })
  /-- VERIFY (R207). -/
  | verified (hp : u.phase = .verify) (heq : u.crcAcc = u.hdrCrc) : Effect u { u with phase := .done }

/-! ### Small facts -/

theorem phase_cases (s : State) : s.phase = .idle ∨ s.phase = .thdr ∨ s.phase = .bhdr ∨ s.phase = .payload ∨
    s.phase = .crc ∨ s.phase = .emit ∨ s.phase = .verify ∨ s.phase = .done ∨ s.phase = .fault := by
  cases s.phase <;> simp

theorem stage_cases (s : State) : s.stage = .choose ∨ s.stage = .lzw0 ∨ s.stage = .lzw ∨ s.stage = .rle := by
  cases s.stage <;> simp

theorem phaseOk_bhdr (h : s.phase = .bhdr) : PhaseOk s ↔ 0 < s.uncompRemaining.toNat := by simp only [PhaseOk, h]
theorem phaseOk_payload (h : s.phase = .payload) : PhaseOk s ↔ BlockOk s ∧ StageOk s := by simp only [PhaseOk, h]
theorem phaseOk_crc (h : s.phase = .crc) :
    PhaseOk s ↔ BlockOk s ∧ s.variant = .lzw1 ∧ Filled s.blk Config.block := by simp only [PhaseOk, h]
theorem phaseOk_emit (h : s.phase = .emit) : PhaseOk s ↔ BlockOk s ∧ Filled s.blk Config.block := by
  simp only [PhaseOk, h]
theorem phaseOk_verify (h : s.phase = .verify) : PhaseOk s ↔ s.uncompRemaining.toNat = 0 ∧ s.variant = .lzw1 := by
  simp only [PhaseOk, h]
theorem phaseOk_thdr (h : s.phase = .thdr) : PhaseOk s := by simp only [PhaseOk, h]

theorem stageOk_choose (h : s.stage = .choose) : StageOk s := by simp only [StageOk, h]
theorem stageOk_lzw0 (h : s.stage = .lzw0) : StageOk s ↔ s.lzwUsed = true ∧ s.outN.toNat = 0 ∧
    s.entry.toNat = Config.firstCode ∧ s.startBit.toNat = 0 ∧ s.blkIp0.toNat ≤ s.ip.toNat := by simp only [StageOk, h]
theorem stageOk_lzw (h : s.stage = .lzw) : StageOk s ↔ s.lzwUsed = true ∧ s.outN.toNat ≤ s.rleLen.toNat ∧
    Filled s.scr s.outN.toNat ∧ ResidueOk s ∧ s.blkIp0.toNat ≤ s.ip.toNat := by simp only [StageOk, h]
theorem stageOk_rle (h : s.stage = .rle) : StageOk s ↔ s.rleUsed = true ∧ s.rleIn.toNat ≤ s.rleLen.toNat ∧
    s.rleOut.toNat ≤ Config.block ∧ Filled s.blk s.rleOut.toNat ∧
    (s.lzwUsed = true → Filled s.scr s.rleLen.toNat) ∧
    (s.lzwUsed = false → s.ip.toNat + s.rleLen.toNat ≤ s.inLen.toNat) := by simp only [StageOk, h]

theorem PhaseOk.inputs (h : PhaseOk s) (l : List HostEvent) : PhaseOk { s with inputs := l } := by
  have hb : BlockOk s → BlockOk { s with inputs := l } := fun h => ⟨h.len, h.used, h.write, h.left⟩
  have hs : StageOk s → StageOk { s with inputs := l } := fun h => h
  rcases phase_cases s with hp | hp | hp | hp | hp | hp | hp | hp | hp
  · simp only [PhaseOk, hp]
  · simp only [PhaseOk, hp]
  · rw [phaseOk_bhdr hp] at h; exact (phaseOk_bhdr (by exact hp)).mpr h
  · rw [phaseOk_payload hp] at h; exact (phaseOk_payload (by exact hp)).mpr ⟨hb h.1, hs h.2⟩
  · rw [phaseOk_crc hp] at h; exact (phaseOk_crc (by exact hp)).mpr ⟨hb h.1, h.2⟩
  · rw [phaseOk_emit hp] at h; exact (phaseOk_emit (by exact hp)).mpr ⟨hb h.1, h.2⟩
  · rw [phaseOk_verify hp] at h; exact (phaseOk_verify (by exact hp)).mpr h
  · simp only [PhaseOk, hp]
  · simp only [PhaseOk, hp]

theorem Running.inputs (h : Running s) (l : List HostEvent) : Running { s with inputs := l } :=
  ⟨h.table.congr rfl rfl rfl, h.stackEmpty, h.noClear, h.lzw1Fix, h.old, h.lzw2Crc, h.phaseOk.inputs l⟩

/-- Using up inputs keeps the invariant. -/
theorem Inv.moves (h : Inv s) (hm : Moves s u) : Inv u := by
  obtain ⟨he, hin⟩ := hm.eq
  generalize u.inputs = l at he hin
  subst he
  exact ⟨h.input, fun a ha => h.coming a (hin _ ha), h.ip, h.outLen, h.tch, h.tpr, h.stk, h.scr, h.blk, h.cause,
    fun hb => (h.running hb).inputs _, h.done⟩

theorem busy_of_phase {p : Phase} (h : s.phase = p)
    (hp : p = .thdr ∨ p = .bhdr ∨ p = .payload ∨ p = .crc ∨ p = .emit ∨ p = .verify) : s.status = .busy := by
  rcases hp with rfl | rfl | rfl | rfl | rfl | rfl <;> simp [State.status, h]

/-- The invariant as a fault needs it: nothing has been changed. -/
theorem Inv.spoilt (h : Inv u) : Spoilt u u :=
  ⟨⟨rfl, rfl, rfl, rfl, rfl⟩, ⟨rfl, rfl, rfl⟩, ⟨Nat.le_refl _, h.ip⟩, h.tch, h.tpr, h.stk, h.scr, h.blk⟩

theorem Inv.payload (h : Inv u) (hp : u.phase = .payload) : Running u ∧ BlockOk u ∧ StageOk u := by
  have hr := h.running (busy_of_phase hp (by simp))
  have := hr.phaseOk
  simp only [PhaseOk, hp] at this
  exact ⟨hr, this⟩

/-! ### Headers and the path choice -/

theorem ip_inputLeft (h : s.ip.toNat ≤ s.inLen.toNat) : s.ip + BitVec.ofNat 32 s.inputLeft = s.inLen := by
  have := s.inLen.isLt
  apply BitVec.eq_of_toNat_eq
  rw [addr_add (by simp only [State.inputLeft]; omega)]; simp only [State.inputLeft]; omega

/-- A header that ends early spoils nothing but its own registers. -/
theorem Inv.partialHeader (h : Inv u) (c : Ctx) : Spoilt u (u.partialHeader c) := by
  refine ⟨by simp, by simp, ?_, ?_, ?_, ?_, ?_, ?_⟩
  · simp only [State.partialHeader_ip, State.partialHeader_inLen, ip_inputLeft h.ip]
    exact ⟨h.ip, Nat.le_refl _⟩
  · simpa using h.tch
  · simpa using h.tpr
  · simpa using h.stk
  · simpa using h.scr
  · simpa using h.blk

theorem Inv.advance (h : Inv u) {n : Nat} (hn : n ≤ u.inputLeft) :
    u.ip.toNat ≤ (u.advance n).ip.toNat ∧ (u.advance n).ip.toNat ≤ u.inLen.toNat := by
  have := h.ip
  simp only [State.inputLeft] at hn
  rw [ip_advance u (by omega)]; omega

theorem checkRleLen_effect (h : Inv u) (hp : u.phase = .bhdr) {w : State} {len n : BitVec 16} {used : Bool} {a : Addr}
    {k : Nat} (ha : u.ip.toNat ≤ a.toNat ∧ a.toNat ≤ u.inLen.toNat)
    (hw : w = { u with ip := a, rleLen := len, lzwUsed := used, lzwLength := n, freeCount := k }) :
    ∃ t, (checkRleLen w).outcome = .next t ∧ Effect u t := by
  subst hw
  unfold checkRleLen
  split
  · next hl =>
    refine ⟨_, rfl, .fault .badRleLength _ _ (busy_of_phase hp (by simp)) ?_⟩
    exact ⟨⟨rfl, rfl, rfl, rfl, rfl⟩, ⟨rfl, rfl, rfl⟩, ha, h.tch, h.tpr, h.stk, h.scr, h.blk⟩
  · next hl => exact ⟨_, rfl, .blockHeader a len n used k hp ha (Nat.le_of_not_lt hl)⟩

/-- A step in THDR. -/
theorem thdr_effect (h : Inv u) (hm : Moves s u) (hp : u.phase = .thdr) :
    ∃ t, step s = .next t ∧ Effect u t := by
  have hb := busy_of_phase hp (by simp)
  have hshort : ∀ c, ∃ t, (underrun (u.partialHeader c)).outcome = .next t ∧ Effect u t := fun c =>
    ⟨_, rfl, .fault .inputUnderrun _ _ hb (h.partialHeader c)⟩
  cases hv : u.variant with
  | lzw1 =>
    by_cases hl : 8 * u.inputLeft < 32
    · rw [step_settled hm (by rw [fetch_thdr hp, hv]; simp only [fetchHeader, decode, fixedLength, hl, if_true]; rfl)]
      exact hshort _
    · rw [step_run hm (by rw [fetch_thdr hp, hv]; simp only [fetchHeader, decode, fixedLength, hl, if_false]; rfl)]
      exact ⟨_, rfl, .threadHeader (u.advance 4).ip _ _ _ hp (h.advance (by omega))⟩
  | lzw2 =>
    by_cases hl : 8 * u.inputLeft < 16
    · rw [step_settled hm (by rw [fetch_thdr hp, hv]; simp only [fetchHeader, decode, fixedLength, hl, if_true]; rfl)]
      exact hshort _
    · rw [step_run hm (by rw [fetch_thdr hp, hv]; simp only [fetchHeader, decode, fixedLength, hl, if_false]; rfl)]
      exact ⟨_, rfl, .threadHeader (u.advance 2).ip u.hdrCrc _ _ hp (h.advance (by omega))⟩

/-- A step in BHDR. -/
theorem bhdr_effect (h : Inv u) (hm : Moves s u) (hp : u.phase = .bhdr) :
    ∃ t, step s = .next t ∧ Effect u t := by
  have hb := busy_of_phase hp (by simp)
  have hshort : ∀ c, ∃ t, (underrun (u.partialHeader c)).outcome = .next t ∧ Effect u t := fun c =>
    ⟨_, rfl, .fault .inputUnderrun _ _ hb (h.partialHeader c)⟩
  cases hv : u.variant with
  | lzw1 =>
    by_cases hl : 8 * u.inputLeft < 24
    · rw [step_settled hm (by rw [fetch_bhdr hp, hv]; simp only [fetchHeader, decode, fixedLength, hl, if_true]; rfl)]
      exact hshort _
    · rw [step_run hm (by rw [fetch_bhdr hp, hv]; simp only [fetchHeader, decode, fixedLength, hl, if_false]; rfl)]
      simp only [exec, execBhdr1]
      split
      · refine ⟨_, rfl, .fault .badLzwFlag _ _ hb ?_⟩
        exact ⟨⟨rfl, rfl, rfl, rfl, rfl⟩, ⟨rfl, rfl, rfl⟩, h.advance (n := 3) (by omega), h.tch, h.tpr, h.stk, h.scr, h.blk⟩
      · exact checkRleLen_effect h hp (a := (u.advance 3).ip) (h.advance (by omega)) rfl
  | lzw2 =>
    by_cases hl : 8 * u.inputLeft < 16
    · rw [step_settled hm (by rw [fetch_bhdr hp, hv]; simp only [fetchHeader, decode, hl, if_true]; rfl)]
      exact hshort _
    · by_cases hbit : field (leBytes u.readIn u.ip.toNat (min headerBytes u.inputLeft)) 15 1 = 1
      · by_cases hl4 : 8 * u.inputLeft < 32
        · rw [step_settled hm (by rw [fetch_bhdr hp, hv]; simp only [fetchHeader, decode, fixedLength, hl, hbit, hl4, if_true, if_false]; rfl)]
          exact hshort _
        · rw [step_run hm (by rw [fetch_bhdr hp, hv]; simp only [fetchHeader, decode, fixedLength, hl, hbit, hl4, if_true, if_false]; rfl)]
          exact checkRleLen_effect h hp (a := (u.advance 4).ip) (h.advance (by omega)) rfl
      · rw [step_run hm (by rw [fetch_bhdr hp, hv]; simp only [fetchHeader, decode, fixedLength, hl, hbit, if_false]; rfl)]
        exact checkRleLen_effect h hp (a := (u.advance 2).ip) (h.advance (by omega)) rfl

/-- A step where the path is chosen. -/
theorem choose_effect (h : Inv u) (hm : Moves s u) (hp : u.phase = .payload) (hs : u.stage = .choose) :
    ∃ t, step s = .next t ∧ Effect u t := by
  have hb := busy_of_phase hp (by simp)
  obtain ⟨hr, hblk, -⟩ := h.payload hp
  have hip := h.ip
  have hspoilt : Spoilt u u.resetWithoutLzw := by
    refine ⟨by simp, by simp, by simpa using h.ip, ?_, ?_, ?_, ?_, ?_⟩
    · simpa using h.tch
    · simpa using h.tpr
    · simpa using h.stk
    · simpa using h.scr
    · simpa using h.blk
  cases hl : u.lzwUsed with
  | true =>
    rw [step_settled hm (by rw [fetch_choose hp hs, choosePath, if_pos hl])]
    exact ⟨_, rfl, .engineStart hp hs hl⟩
  | false =>
    cases hru : u.rleUsed with
    | true =>
      rw [step_settled hm (by rw [fetch_choose hp hs, choosePath, hl, hru]; rfl)]
      unfold rleOnlyStart
      split
      · next hfit =>
        exact ⟨_, rfl, .rleOnly hp hs hl hru (by simpa [State.spanFits] using hfit)⟩
      · exact ⟨_, rfl, .fault .inputUnderrun _ _ hb hspoilt⟩
    | false =>
      rw [step_run hm (by rw [fetch_choose hp hs, choosePath, hl, hru]; rfl)]
      simp only [exec, execRawblk, rawCopy]
      split
      · next hfit =>
        refine ⟨_, rfl, ?_⟩
        have := Effect.raw hp hs hl (by simpa [State.spanFits] using hfit)
        simpa [State.readIn] using this
      · exact ⟨_, rfl, .fault .inputUnderrun _ _ hb hspoilt⟩
/-! ### Codes and tokens -/

/-- GETCODE in a thread: the code is read, or `IN` ends. -/
theorem getcode_cases (h1 : Config.firstCode ≤ u.entry.toNat) (h2 : u.entry.toNat ≤ Config.tableFull)
    (hres : ResidueOk u) (hip : u.ip.toNat ≤ u.inLen.toNat) :
    ∃ w, codeWidth u.entry = some w ∧ 9 ≤ w ∧ w ≤ 12 ∧
      (u.bitPos + w ≤ 8 * u.inLen.toNat ∧ getcode u = .ok (u.codeRead w) ∨
        getcode u = .raised (State.raised { u with ip := u.inLen } .inputUnderrun u.inLen.toNat)) := by
  obtain ⟨w, hw, hm, h9, h12⟩ := codeWidth_range h1 h2
  refine ⟨w, hw, h9, h12, ?_⟩
  by_cases hroom : u.bitPos + w ≤ 8 * u.inLen.toNat
  · exact .inl ⟨hroom, getcode_room hw hm h9 h12 hres hroom⟩
  · exact .inr (getcode_short hw hm h9 h12 hres hip (by omega))

theorem codeRead_ip (w : Nat) (hfit : u.bitPos + w ≤ 8 * u.inLen.toNat) :
    (u.codeRead w).ip.toNat = byteAfter (u.bitPos + w) := by
  have := u.inLen.isLt
  simp only [State.codeRead, BitVec.toNat_ofNat, byteAfter]; omega

/-- Reading a code moves the position by its width, keeps the residue's meaning, and never moves `ip` back. -/
theorem codeRead_position {w : Nat} (h9 : 9 ≤ w) (hres : ResidueOk u) (hfit : u.bitPos + w ≤ 8 * u.inLen.toNat) :
    (u.codeRead w).bitPos = u.bitPos + w ∧ ResidueOk (u.codeRead w) ∧
      u.ip.toNat < (u.codeRead w).ip.toNat ∧ (u.codeRead w).ip.toNat ≤ u.inLen.toNat := by
  have hip := codeRead_ip w hfit
  have hsb : (u.codeRead w).startBit.toNat = (u.bitPos + w) % 8 := by
    simp only [State.codeRead, BitVec.toNat_ofNat]; omega
  obtain ⟨hp1, hp2⟩ := u.bitPos_split
  have hle : u.ip.toNat < byteAfter (u.bitPos + w) := by
    simp only [byteAfter]
    by_cases h0 : u.startBit.toNat = 0
    · rw [if_pos h0] at hp2; omega
    · rw [if_neg h0] at hp2; have := (hres h0).1; omega
  refine ⟨?_, fun _ => ⟨by omega, ?_⟩, by omega, ?_⟩
  · rw [State.bitPos, hip, hsb]
    generalize u.bitPos = p
    simp only [byteAfter]
    split <;> omega
  · rw [hip]; rfl
  · rw [hip]; simp only [byteAfter]; omega

theorem Inv.underrun_spoilt (h : Inv u) (w : State) (hw : w = { u with
    ip := u.inLen, startBit := w.startBit, lastByte := w.lastByte, code := w.code, entry := w.entry
    needClear := w.needClear }) : Spoilt u w := by
  rw [hw]
  exact ⟨⟨rfl, rfl, rfl, rfl, rfl⟩, ⟨rfl, rfl, rfl⟩, ⟨h.ip, Nat.le_refl _⟩, h.tch, h.tpr, h.stk, h.scr, h.blk⟩

/-- A step where a first literal is due. -/
theorem lzw0_effect (h : Inv u) (hm : Moves s u) (hp : u.phase = .payload) (hs : u.stage = .lzw0) :
    ∃ t, step s = .next t ∧ Effect u t := by
  have hb := busy_of_phase hp (by simp)
  obtain ⟨hr, hblk, hst⟩ := h.payload hp
  rw [stageOk_lzw0 hs] at hst
  obtain ⟨-, ho, he, hsb, -⟩ := hst
  have hres : ResidueOk u := fun h => absurd hsb h
  have hcap := hblk.len
  simp only [Config.block] at hcap
  obtain ⟨w, hw, h9, h12, hget⟩ := getcode_cases hr.table.low hr.table.high hres h.ip
  have : w = 9 := by
    rw [show u.entry = BitVec.ofNat 13 Config.firstCode from BitVec.eq_of_toNat_eq he, codeWidth_first] at hw
    exact (Option.some.inj hw).symm
  subst this
  rcases hget with ⟨hfit, hget⟩ | hget
  · obtain ⟨hpos, hres', hip1, hip2⟩ := codeRead_position h9 hres hfit
    rw [step_run hm (by rw [fetch_lzw0 hp hs, fetchCode, hget])]
    have hsp : Spoilt u (u.codeRead 9) :=
      ⟨⟨rfl, rfl, rfl, rfl, rfl⟩, ⟨rfl, rfl, rfl⟩, ⟨by omega, hip2⟩, h.tch, h.tpr, h.stk, h.scr, h.blk⟩
    simp only [exec, execLit0, firstLiteral]
    split
    · exact ⟨_, rfl, .fault .invalidInitialSymbol _ _ hb hsp⟩
    · next hc =>
      by_cases hroom : u.outN.toNat < u.rleLen.toNat
      · rw [emitByte_room _ (by exact hroom) (by exact hcap)]
        exact ⟨_, rfl, .firstLiteral _ hp hs (by omega) hroom hfit⟩
      · rw [emitByte_full _ (by exact Nat.le_of_not_lt hroom)]
        exact ⟨_, rfl, .fault .outputOverrun _ _ hb
          ⟨hsp.thread, hsp.output, hsp.ip, hsp.tch, hsp.tpr, hsp.stk, hsp.scr, hsp.blk⟩⟩
  · rw [step_settled hm (by rw [fetch_lzw0 hp hs, fetchCode, hget])]
    exact ⟨_, rfl, .fault .inputUnderrun _ _ hb (h.underrun_spoilt _ rfl)⟩


/-- `WalkEmit` and `Record` after a code of the main loop: they run to their end, or raise (R165, R166, R172). -/
theorem codeRun_effect (h : Inv u) (hp : u.phase = .payload) (hs : u.stage = .lzw) {w : Nat} (h9 : 9 ≤ w)
    (hfit : u.bitPos + w ≤ 8 * u.inLen.toNat) (ho : u.outN.toNat < u.rleLen.toNat) {g : State} {c d : Code}
    (hg : g = u.codeRead w ∧ d = c ∧ Known u c ∨
      g = (u.codeRead w).pushed u.finalByte ∧ d = u.old ∧ Known u u.old ∧ c.toNat = u.entry.toNat) :
    ∃ t, ((walkEmit d g).andThen (record c)).outcome = .next t ∧ Effect u t := by
  have hb := busy_of_phase hp (by simp)
  obtain ⟨hr, hblk, hst⟩ := h.payload hp
  rw [stageOk_lzw hs] at hst
  obtain ⟨-, -, -, hres, -⟩ := hst
  have hcap := hblk.len
  have hsp := hr.stackEmpty
  simp only [Config.block] at hcap
  obtain ⟨-, -, hip1, hip2⟩ := codeRead_position h9 hres hfit
  have hT : TableOk g := by
    rcases hg with ⟨rfl, -⟩ | ⟨rfl, -⟩ <;> exact hr.table.congr rfl rfl rfl
  have hk : Known g d := by
    rcases hg with ⟨rfl, rfl, hk⟩ | ⟨rfl, rfl, hk, -⟩ <;> exact hk
  have hfiles : slotsWf Config.stackCap g.stk = true ∧ slotsWf Config.scratchCap g.scr = true := by
    rcases hg with ⟨rfl, -⟩ | ⟨rfl, -⟩
    · exact ⟨h.stk, h.scr⟩
    · exact ⟨slotSet_wf h.stk (show u.sp.toNat < Config.stackCap by rw [hsp]; simp [Config.stackCap]) _, h.scr⟩
  have hgo : g.outN = u.outN ∧ g.rleLen = u.rleLen ∧ g.entry = u.entry ∧ g.scr = u.scr := by
    rcases hg with ⟨rfl, -⟩ | ⟨rfl, -⟩ <;> exact ⟨rfl, rfl, rfl, rfl⟩
  have hgsp : g.sp.toNat ≤ 1 := by
    rcases hg with ⟨rfl, -⟩ | ⟨rfl, -⟩
    · show u.sp.toNat ≤ 1; omega
    · show (u.sp + 1).toNat ≤ 1; rw [count_succ (by omega)]; omega
  have hframe : ∀ (f : Byte) a n d k, slotsWf Config.stackCap d = true ∧ slotsWf Config.scratchCap a = true →
      Spoilt u { g with finalByte := f, scr := a, outN := n, stk := d, sp := k } := by
    intro f a n d k hd
    rcases hg with ⟨rfl, -⟩ | ⟨rfl, -⟩ <;>
    exact ⟨⟨rfl, rfl, rfl, rfl, rfl⟩, ⟨rfl, rfl, rfl⟩, ⟨Nat.le_of_lt hip1, hip2⟩, h.tch, h.tpr, hd.1, hd.2, h.blk⟩
  have hkept := keptFiles.walkEmit d hfiles
  rcases walkEmit_known hT hk hgsp (by rw [hgo.1, hgo.2.1]; omega) (by rw [hgo.2.1]; exact hcap) with
    ⟨d', hroom, hw⟩ | ⟨a, n, d', k, -, hw⟩
  · rw [hw] at hkept ⊢
    rw [Res.ok_andThen]
    have hT' : TableOk (g.spelled (g.str d ++ g.pops g.sp.toNat) d') := hT.congr rfl rfl rfl
    rcases record_cases_table hT' c with ⟨hlt, hrec⟩ | ⟨heq, hrec⟩
    · rw [hrec]
      refine ⟨_, rfl, ?_⟩
      rcases hg with ⟨rfl, rfl, hkc⟩ | ⟨rfl, rfl, hko, hce⟩
      · have hstr : (u.codeRead w).str d = u.str d :=
          State.str_congr (s := u) (t := u.codeRead w) rfl rfl rfl _
        have hpop : (u.codeRead w).pops (u.codeRead w).sp.toNat = [] := by
          show (u.codeRead w).pops u.sp.toNat = []; rw [hsp]; rfl
        rw [hpop, List.append_nil, hstr] at hroom ⊢
        exact .codeRun d w (u.str d) d' hp hs h9 hfit (State.str_length hr.table hkc).1 hroom hlt hkept.1
          (.inl ⟨hkc, rfl⟩)
      · have hstr : State.str ((u.codeRead w).pushed u.finalByte) u.old = u.str u.old :=
          State.str_congr (s := u) (t := (u.codeRead w).pushed u.finalByte) rfl rfl rfl _
        have hpop : State.pops ((u.codeRead w).pushed u.finalByte) ((u.codeRead w).pushed u.finalByte).sp.toNat =
            [u.finalByte] := by
          have h1 : ((u.codeRead w).pushed u.finalByte).sp.toNat = 0 + 1 := by
            show (u.sp + 1).toNat = 0 + 1; rw [count_succ (by omega), hsp]
          have h0 : (u.codeRead w).sp.toNat = 0 := hsp
          rw [h1, State.pops_succ, State.pops_zero, State.readStk, State.pushed_stk, h0]
          simp [slotRead]
        rw [hpop, hstr] at hroom ⊢
        exact .codeRun c w (u.str u.old ++ [u.finalByte]) d' hp hs h9 hfit (by simp) hroom hlt hkept.1
          (.inr ⟨hce, rfl⟩)
    · rw [hrec]
      refine ⟨_, rfl, .fault .tableOverflow _ _ hb ?_⟩
      exact hframe _ _ _ _ _ hkept
  · rw [hw] at hkept ⊢
    rw [Res.raised_andThen]
    exact ⟨_, rfl, .fault .outputOverrun _ _ hb (hframe _ _ _ _ _ hkept)⟩

/-- A step of the engine's main loop, and its end. -/
theorem lzw_effect (h : Inv u) (hm : Moves s u) (hp : u.phase = .payload) (hs : u.stage = .lzw) :
    ∃ t, step s = .next t ∧ Effect u t := by
  have hb := busy_of_phase hp (by simp)
  obtain ⟨hr, hblk, hst⟩ := h.payload hp
  rw [stageOk_lzw hs] at hst
  obtain ⟨hlu, ho, hfill, hres, -⟩ := hst
  have hcap := hblk.len
  simp only [Config.block] at hcap
  have hlow := hr.table.low
  simp only [Config.firstCode] at hlow
  by_cases hroom : u.outN.toNat < u.rleLen.toNat
  · obtain ⟨w, hw, h9, h12, hget⟩ := getcode_cases hr.table.low hr.table.high hres h.ip
    rcases hget with ⟨hfit, hget⟩ | hget
    · obtain ⟨hpos, hres', hip1, hip2⟩ := codeRead_position h9 hres hfit
      have hold := hr.old (.inr (.inr ⟨hp, hs⟩))
      have hsp : Spoilt u (u.codeRead w) :=
        ⟨⟨rfl, rfl, rfl, rfl, rfl⟩, ⟨rfl, rfl, rfl⟩, ⟨by omega, hip2⟩, h.tch, h.tpr, h.stk, h.scr, h.blk⟩
      rw [step_run hm (by rw [fetch_lzw hp hs, if_pos hroom, fetchCode, hget])]
      have hop : State.mainOp (u.codeRead w) = classify u.variant u.entry (u.codeRead w).code := rfl
      rw [hop]
      generalize (u.codeRead w).code = c
      unfold classify
      split
      · cases hv : u.variant with
        | lzw1 => exact ⟨_, rfl, .fault .reservedCode _ _ hb hsp⟩
        | lzw2 =>
          simp only [exec, execClr]
          have hw9 : codeWidth ({ (u.codeRead w).tableReset with needClear := true } : State).entry = some 9 :=
            codeWidth_first
          have hm9 : codeMask ({ (u.codeRead w).tableReset with needClear := true } : State).entry = some (2 ^ 9 - 1) :=
            codeMask_first
          have hres2 : ResidueOk ({ (u.codeRead w).tableReset with needClear := true } : State) := hres'
          by_cases hfit2 : u.bitPos + w + 9 ≤ 8 * u.inLen.toNat
          · have hb2 : State.bitPos ({ (u.codeRead w).tableReset with needClear := true } : State) = u.bitPos + w := hpos
            rw [getcode_room hw9 hm9 (by omega) (by omega) hres2 (by rw [hb2]; exact hfit2), Res.ok_andThen]
            have hfit2' : (u.codeRead w).bitPos + 9 ≤ 8 * (u.codeRead w).inLen.toNat := by rw [hpos]; exact hfit2
            obtain ⟨-, -, hip3, hip4⟩ := codeRead_position (by omega) hres' hfit2'
            have hip5 : (u.codeRead w).inLen = u.inLen := rfl
            rw [hip5] at hip4
            simp only [firstLiteral]
            split
            · refine ⟨_, rfl, .fault .invalidInitialSymbol _ _ hb ?_⟩
              exact ⟨⟨rfl, rfl, rfl, rfl, rfl⟩, ⟨rfl, rfl, rfl⟩,
                ⟨Nat.le_of_lt (Nat.lt_trans hip1 hip3), hip4⟩, h.tch, h.tpr, h.stk, h.scr, h.blk⟩
            · next hc =>
              rw [emitByte_room _ (by exact hroom) (by exact hcap)]
              refine ⟨_, rfl, ?_⟩
              have := Effect.clear _ w hp hs hv (Nat.le_of_not_lt hc) h9 hroom hfit2
              have ho1 : (u.outN + 1).toNat = u.outN.toNat + 1 := count_succ (by omega)
              have hfix : ∀ b : Bool, (decide (u.outN.toNat + 1 = u.rleLen.toNat) || b) =
                  ((u.outN + 1).toNat == u.rleLen.toNat || b) := by
                intro b; rw [ho1, beq_eq_decide]
              rw [hfix] at this
              exact this
          · rw [getcode_short hw9 hm9 (by omega) (by omega) hres2 (by exact hip2)
              (by have : State.bitPos ({ (u.codeRead w).tableReset with needClear := true } : State) = u.bitPos + w := hpos
                  rw [this]; exact Nat.lt_of_not_le hfit2)]
            exact ⟨_, rfl, .fault .inputUnderrun _ _ hb (h.underrun_spoilt _ rfl)⟩
      · next hne =>
        simp only [Config.clearCode] at hne
        split
        · next hce =>
          have hpush : push u.finalByte (u.codeRead w) = some ((u.codeRead w).pushed u.finalByte) :=
            push_room _ (by show u.sp.toNat < _; rw [hr.stackEmpty]; simp [Config.stackCap])
          have : exec (.kwk c) (u.codeRead w) =
              ((walkEmit u.old ((u.codeRead w).pushed u.finalByte)).andThen (record c)).outcome := by
            have h1 : (u.codeRead w).finalByte = u.finalByte := rfl
            simp only [exec, execKwk, h1, hpush]; rfl
          rw [this]
          exact codeRun_effect h hp hs h9 hfit hroom (.inr ⟨rfl, rfl, hold, hce⟩)
        · split
          · exact ⟨_, rfl, .fault .badCode _ _ hb hsp⟩
          · split
            · next hl =>
              have hc8 : (c.setWidth 8).setWidth 12 = c := by
                apply BitVec.eq_of_toNat_eq; simp; omega
              simp only [exec, execLit, hc8]
              exact codeRun_effect h hp hs h9 hfit hroom (.inl ⟨rfl, rfl, hr.table.known_lit hl⟩)
            · simp only [exec, execRef]
              exact codeRun_effect h hp hs h9 hfit hroom
                (.inl ⟨rfl, rfl, by omega, by simp only [Config.clearCode]; omega⟩)
    · rw [step_settled hm (by rw [fetch_lzw hp hs, if_pos hroom, fetchCode, hget])]
      exact ⟨_, rfl, .fault .inputUnderrun _ _ hb (h.underrun_spoilt _ rfl)⟩
  · rw [step_settled hm (by rw [fetch_lzw hp hs, if_neg hroom])]
    have hrest : ∃ t, (Res.andThen (.ok u) fun s' : State =>
        if s'.rleUsed then .ok s'.rleStart else .ok (State.blockComplete { s' with blk := s'.scr })).outcome = .next t ∧
        Effect u t := by
      rw [Res.ok_andThen]
      by_cases hru : u.rleUsed = true
      · rw [if_pos hru]; exact ⟨_, rfl, .engineToRle hp hs (by omega) hru⟩
      · rw [if_neg hru]; exact ⟨_, rfl, .engineToBlock hp hs (by omega) (by simpa using hru)⟩
    unfold engineEnd lengthCheck
    cases hv : u.variant with
    | lzw1 => exact hrest
    | lzw2 =>
      by_cases hlen : u.bytesConsumed + Config.lzw2Hdr = u.lzwLength.toNat
      · simp only [hlen, if_true]; exact hrest
      · simp only [hlen, if_false]
        exact ⟨_, rfl, .fault .lengthMismatch _ _ hb h.spoilt⟩

/-- A step of the RLE expander, and its end. -/
theorem rle_effect (h : Inv u) (hm : Moves s u) (hp : u.phase = .payload) (hs : u.stage = .rle) :
    ∃ t, step s = .next t ∧ Effect u t := by
  have hb := busy_of_phase hp (by simp)
  obtain ⟨hr, hblk, hst⟩ := h.payload hp
  rw [stageOk_rle hs] at hst
  obtain ⟨hru, hin, hout, hfill, hscr, hspan⟩ := hst
  have hcap := hblk.len
  simp only [Config.block] at hcap hout
  have hrl : ∀ k, u.rleIn.toNat + k ≤ u.rleLen.toNat → (u.rleIn + BitVec.ofNat 13 k).toNat = u.rleIn.toNat + k :=
    fun k hk => count_add (by omega)
  by_cases hroom : u.rleOut.toNat < Config.block
  · have hc : (!u.lzwUsed && !u.spanFits u.rleLen.toNat) = false := by
      cases hl : u.lzwUsed
      · simp [State.spanFits, hspan hl]
      · rfl
    have hshort : ∃ t, (rleUnderrun u).outcome = .next t ∧ Effect u t := by
      refine ⟨_, rfl, .fault .rleInputUnderrun _ _ hb ?_⟩
      exact ⟨⟨rfl, rfl, rfl, rfl, rfl⟩, ⟨rfl, rfl, rfl⟩, ⟨Nat.le_refl _, h.ip⟩, h.tch, h.tpr, h.stk, h.scr, h.blk⟩
    have hroom' := hroom
    simp only [Config.block] at hroom'
    by_cases h8 : 8 * u.spanLeft < 8
    · rw [step_settled hm (by rw [fetch_rle hp hs, if_pos hroom, fetchToken, hc]; simp only [decode, h8, if_true]; rfl)]
      exact hshort
    · by_cases hesc : BitVec.ofNat 8 (field (leBytes u.spanByte u.rleIn.toNat (min tokenBytes u.spanLeft)) 0 8) = u.escape
      · by_cases h24 : 8 * u.spanLeft < 24
        · rw [step_settled hm (by
            rw [fetch_rle hp hs, if_pos hroom, fetchToken, hc]
            simp only [decode, h8, hesc, if_true, if_false, fixedLength, h24]; rfl)]
          exact hshort
        · rw [step_run hm (by
            rw [fetch_rle hp hs, if_pos hroom, fetchToken, hc]
            simp only [decode, h8, hesc, if_true, if_false, fixedLength, h24]; rfl)]
          simp only [exec, execRrun]
          rw [if_pos (by exact hroom)]
          refine ⟨_, rfl, ?_⟩
          have hn : runLength (BitVec.ofNat 8 (field (leBytes u.spanByte u.rleIn.toNat (min tokenBytes u.spanLeft)) 16 8))
              u.rleOut ≤ Config.block - u.rleOut.toNat ∧
              1 ≤ runLength (BitVec.ofNat 8 (field (leBytes u.spanByte u.rleIn.toNat (min tokenBytes u.spanLeft)) 16 8))
              u.rleOut := by simp only [runLength, Config.block]; omega
          rw [slotFill_eq_slotPut]
          simp only [State.spanLeft] at h24
          have := Effect.token (u := u) (u.rleIn + BitVec.ofNat 13 (24 / 8)) (List.replicate (runLength (BitVec.ofNat 8 (field (leBytes u.spanByte u.rleIn.toNat (min tokenBytes u.spanLeft)) 16 8))
              u.rleOut) (BitVec.ofNat 8 (field (leBytes u.spanByte u.rleIn.toNat (min tokenBytes u.spanLeft)) 8 8)))
              hp hs (by rw [hrl _ (by omega)]; omega) (by simpa using hn.2) (by rw [List.length_replicate]; omega)
          rw [List.length_replicate] at this
          exact this
      · rw [step_run hm (by
          rw [fetch_rle hp hs, if_pos hroom, fetchToken, hc]
          simp only [decode, h8, hesc, if_false]; rfl)]
        simp only [exec, execRlit]
        rw [if_pos (by exact hroom)]
        refine ⟨_, rfl, ?_⟩
        simp only [State.spanLeft] at h8
        exact Effect.token (u := u) (u.rleIn + BitVec.ofNat 13 (8 / 8)) [_]
          hp hs (by rw [hrl _ (by omega)]; omega) (by simp) (by simp only [List.length_singleton, Config.block]; omega)
  · rw [step_settled hm (by rw [fetch_rle hp hs, if_neg hroom])]
    exact ⟨_, rfl, .rleDone hp hs (by simp only [Config.block] at hroom ⊢; omega)⟩

/-! ### Every step -/

/-- From a state that meets the invariant, a step that is left to the machine answers a next state, by one of the
moves of `Effect`. -/
theorem step_effect (h : Inv u) (hm : Moves s u) : ∃ t, step s = .next t ∧ Effect u t := by
  have hstill : ∀ {p : Phase}, u.phase = p → (p = .idle ∨ p = .done ∨ p = .fault) → u.status ≠ .busy := by
    rintro p hp (rfl | rfl | rfl) <;> simp [State.status, hp]
  rcases phase_cases u with hp | hp | hp | hp | hp | hp | hp | hp | hp
  · have hs := hstill hp (by simp)
    exact ⟨u, step_settled hm (fetch_still hs), .still hs⟩
  · exact thdr_effect h hm hp
  · exact bhdr_effect h hm hp
  · rcases stage_cases u with hs | hs | hs | hs
    · exact choose_effect h hm hp hs
    · exact lzw0_effect h hm hp hs
    · exact lzw_effect h hm hp hs
    · exact rle_effect h hm hp hs
  · exact ⟨_, step_run hm (fetch_crc hp), .crc hp⟩
  · exact ⟨_, step_run hm (fetch_emit hp), .emit hp⟩
  · rw [step_run hm (fetch_verify hp)]
    simp only [exec, execVerify]
    split
    · next heq => exact ⟨_, rfl, .verified hp heq⟩
    · exact ⟨_, rfl, .fault .crcMismatch _ _ (busy_of_phase hp (by simp)) h.spoilt⟩
  · have hs := hstill hp (by simp)
    exact ⟨u, step_settled hm (fetch_still hs), .still hs⟩
  · have hs := hstill hp (by simp)
    exact ⟨u, step_settled hm (fetch_still hs), .still hs⟩

end Sys2Proof.Machine
end

