-- ==== Sys2Proof/Laws/Payload.lean ====
section
/-! SUPPORT. What a step in PAYLOAD can do in any state, without an invariant: what it keeps, and how it ends. -/

namespace Sys2Proof.Machine

variable {s u t : State}

/-- `t` is `u` but for the registers and files that an operation of PAYLOAD may write. -/
def PayloadKept (u t : State) : Prop := t = { u with
  phase := t.phase, stage := t.stage, cause := t.cause, info := t.info, ip := t.ip, startBit := t.startBit
  lastByte := t.lastByte, entry := t.entry, old := t.old, finalByte := t.finalByte, code := t.code
  resetFix := t.resetFix, needClear := t.needClear, outN := t.outN, blkIp0 := t.blkIp0, rleIn := t.rleIn
  rleOut := t.rleOut, sp := t.sp, tch := t.tch, tpr := t.tpr
  stk := t.stk, scr := t.scr, blk := t.blk, freeCount := t.freeCount }

/-- What PAYLOAD raises (R220). -/
def PayloadRaises (u : State) (c : Cause) (v : Nat) : Prop :=
  (c = .inputUnderrun → v = u.inLen.toNat) ∧ c ≠ .crcMismatch ∧ c ≠ .badLzwFlag ∧ c ≠ .badRleLength ∧
    (c = .lengthMismatch → u.variant = .lzw2) ∧ (c = .reservedCode → u.variant = .lzw1)

/-- How a step in PAYLOAD ends: in PAYLOAD or the phase after it (R190), or in FAULT with a cause that PAYLOAD raises
(R220). -/
def PayloadEnd (u t : State) : Prop :=
  (t.phase = u.phase ∨ t.phase = u.afterPayload) ∧ t.cause = u.cause ∧ t.info = u.info ∨
  ∃ (c : Cause) (v : Nat), t.phase = .fault ∧ t.cause = c.number ∧ t.info = BitVec.ofNat 32 v ∧ PayloadRaises u c v

/-- What a step in PAYLOAD can do, in any state. -/
def PayloadStep (u t : State) : Prop := PayloadKept u t ∧ PayloadEnd u t

theorem PayloadKept.trans {a b c : State} (h1 : PayloadKept a b) (h2 : PayloadKept b c) : PayloadKept a c := by
  unfold PayloadKept at *
  rw [h1] at h2
  exact h2

/-- What a part of such a step can do that goes on. -/
def PayloadPart (u t : State) : Prop := PayloadKept u t ∧ t.phase = u.phase ∧ t.cause = u.cause ∧ t.info = u.info

theorem PayloadPart.andThen {a b c : State} (h1 : PayloadPart a b) (h2 : PayloadStep b c) : PayloadStep a c := by
  refine ⟨h1.1.trans h2.1, ?_⟩
  obtain ⟨hs, hp, hc, hi⟩ := h1
  have hv : b.variant = a.variant := by rw [hs]
  have hl : b.inLen = a.inLen := by rw [hs]
  have h := h2.2
  unfold PayloadEnd PayloadRaises at *
  simpa only [State.afterPayload, hv, hl, hp, hc, hi] using h

theorem PayloadPart.step {a b : State} (h : PayloadPart a b) : PayloadStep a b := ⟨h.1, .inl ⟨.inl h.2.1, h.2.2⟩⟩
theorem PayloadPart.trans {a b c : State} (h1 : PayloadPart a b) (h2 : PayloadPart b c) : PayloadPart a c :=
  ⟨h1.1.trans h2.1, h2.2.1.trans h1.2.1, h2.2.2.1.trans h1.2.2.1, h2.2.2.2.trans h1.2.2.2⟩

theorem payloadStep_raised {c : Cause} {v : Nat} (h : PayloadRaises u c v) : PayloadStep u (u.raised c v) :=
  ⟨rfl, .inr ⟨c, v, rfl, rfl, rfl, h⟩⟩

/-- What a part with this result can do. -/
def PayloadRes (s : State) (r : Res) : Prop :=
  (∀ t, r = .ok t → PayloadPart s t) ∧ (∀ t, r = .raised t → PayloadStep s t)

theorem payloadRes_ok (h : PayloadPart s t) : PayloadRes s (.ok t) :=
  ⟨fun _ e => Res.ok.inj e ▸ h, fun _ e => by cases e⟩
theorem payloadRes_raised (h : PayloadStep s t) : PayloadRes s (.raised t) :=
  ⟨fun _ e => (by cases e), fun _ e => Res.raised.inj e ▸ h⟩
theorem payloadRes_fault (f : Fault) : PayloadRes s (.fault f) := ⟨fun _ e => (by cases e), fun _ e => (by cases e)⟩

theorem walkEmit_payload (c : Code) (s : State) : PayloadRes s (walkEmit c s) := by
  obtain ⟨h1, h2, -⟩ := walkEmit_frame c s
  constructor
  · intro t h; obtain ⟨f, a, n, d, k, rfl⟩ := h1 t h; exact ⟨rfl, rfl, rfl, rfl⟩
  · intro t h; obtain ⟨f, a, n, d, k, v, rfl⟩ := h2 t h
    exact PayloadPart.andThen (a := s) (b := { s with finalByte := f, scr := a, outN := n, stk := d, sp := k })
      ⟨rfl, rfl, rfl, rfl⟩ (payloadStep_raised (by simp [PayloadRaises]))

theorem record_payload (c : Code) (s : State) : PayloadRes s (record c s) := by
  rcases record_cases c s with ⟨-, -, h⟩ | ⟨-, h⟩ | ⟨-, h⟩ <;> rw [h]
  · exact payloadRes_ok ⟨rfl, rfl, rfl, rfl⟩
  · exact payloadRes_raised (payloadStep_raised (by simp [PayloadRaises]))
  · exact payloadRes_fault _

/-- A part and then the rest. -/
theorem payload_andThen {r : Res} {k : State → Res} (hr : PayloadRes s r)
    (hk : ∀ x y, (k x).outcome = .next y → PayloadStep x y) (h : (r.andThen k).outcome = .next t) : PayloadStep s t := by
  cases r with
  | ok y => exact (hr.1 y rfl).andThen (hk y t h)
  | raised y => have := Host.Outcome.next.inj h; subst this; exact hr.2 _ rfl
  | fault f => cases h
  | refused f => cases h

theorem walkEmit_record_payload (c d : Code) (s t : State) :
    ((walkEmit c s).andThen (record d)).outcome = .next t → PayloadStep s t :=
  payload_andThen (walkEmit_payload c s) fun x y h => by
    rcases Res.outcome_next.mp h with h | h
    · exact ((record_payload d x).1 y h).step
    · exact (record_payload d x).2 y h

theorem emitByte_payload (b : Byte) (s : State) : PayloadRes s (emitByte b s) := by
  rcases emitByte_cases b s with ⟨-, -, h⟩ | ⟨-, h⟩ | ⟨-, -, h⟩ <;> rw [h]
  · exact payloadRes_ok ⟨rfl, rfl, rfl, rfl⟩
  · exact payloadRes_raised (payloadStep_raised (by simp [PayloadRaises]))
  · exact payloadRes_fault _

theorem firstLiteral_payload (c : Code) (s : State) : PayloadRes s (firstLiteral c s) := by
  unfold firstLiteral
  split
  · refine ⟨by simp [raise], fun t h => ?_⟩
    cases h; exact payloadStep_raised (by simp [PayloadRaises])
  · have k : PayloadPart s { s with finalByte := c.setWidth 8, old := c } := ⟨rfl, rfl, rfl, rfl⟩
    exact ⟨fun t h => k.trans ((emitByte_payload _ _).1 t h), fun t h => k.andThen ((emitByte_payload _ _).2 t h)⟩

theorem getcode_payload (s : State) : PayloadRes s (getcode s) := by
  obtain ⟨h1, h2, -⟩ := getcode_frame s
  constructor
  · intro t h; obtain ⟨a, b, c, d, rfl⟩ := h1 t h; exact ⟨rfl, rfl, rfl, rfl⟩
  · intro t h; obtain ⟨a, rfl⟩ := h2 t h
    exact PayloadPart.andThen (a := s) (b := { s with ip := a }) ⟨rfl, rfl, rfl, rfl⟩
      (payloadStep_raised (by simp [PayloadRaises]))

/-- A code is fetched, and its operation is run. -/
theorem fetchCode_payload {op : State → Instr}
    (hop : ∀ x y, x.variant = u.variant → exec (op x) x = .next y → PayloadStep x y) :
    (∀ i x, fetchCode op u = .run i x → exec i x = .next t → PayloadStep u t) ∧
      (∀ o, fetchCode op u = .settled o → o = .next t → PayloadStep u t) := by
  unfold fetchCode
  cases hg : getcode u with
  | ok x =>
    refine ⟨?_, by simp⟩
    simp only [Fetched.run.injEq]
    rintro i y ⟨rfl, rfl⟩ h
    have := (getcode_payload u).1 x hg
    exact this.andThen (hop x t (by rw [this.1]) h)
  | raised x => refine ⟨by simp, ?_⟩; rintro o h rfl; cases h; exact (getcode_payload u).2 t hg
  | fault f => refine ⟨by simp, ?_⟩; rintro o h rfl; cases h
  | refused f => refine ⟨by simp, ?_⟩; rintro o h rfl; cases h

theorem blockComplete_payload (x : State) (m : Slots 8) (n : Nat) :
    PayloadStep x (State.blockComplete { x.advance n with blk := m }) :=
  ⟨rfl, .inl ⟨.inr rfl, rfl, rfl⟩⟩

/-- Every step in PAYLOAD that answers a next state. -/
theorem payload_step (hm : Moves s u) (hp : u.phase = .payload) (hst : step s = .next t) : PayloadStep u t := by
  rcases stage_cases u with hs | hs | hs | hs
  · -- choose
    unfold Moves at hm
    simp only [step, hm, fetch_choose hp hs, choosePath] at hst
    have hw : PayloadPart u u.resetWithoutLzw := by
      unfold State.resetWithoutLzw; cases u.variant <;> exact ⟨rfl, rfl, rfl, rfl⟩
    split at hst
    · next o ho =>
      split at ho
      · cases ho; cases hst
        unfold lzwStart
        split <;> exact PayloadPart.step ⟨rfl, rfl, rfl, rfl⟩
      · split at ho
        · cases ho
          unfold rleOnlyStart at hst
          split at hst
          · cases hst; exact (hw.trans (c := u.resetWithoutLzw.rleStart) ⟨rfl, rfl, rfl, rfl⟩).step
          · cases hst; exact hw.andThen (payloadStep_raised (by simp [PayloadRaises]))
        · cases ho
    · next i x ho =>
      split at ho
      · cases ho
      · split at ho
        · cases ho
        · cases ho
          simp only [exec, execRawblk, rawCopy] at hst
          split at hst
          · have := Host.Outcome.next.inj hst
            subst this
            exact hw.andThen (blockComplete_payload _ _ _)
          · cases hst; exact hw.andThen (payloadStep_raised (by simp [PayloadRaises]))
  · -- lzw0
    have key := fetchCode_payload (u := u) (t := t) (op := fun s' => .lit0 s'.code) (by
      intro x y _ h
      simp only [exec, execLit0] at h
      exact payload_andThen (firstLiteral_payload _ x) (fun a b h => by
        cases h; exact PayloadPart.step ⟨rfl, rfl, rfl, rfl⟩) h)
    unfold Moves at hm
    simp only [step, hm, fetch_lzw0 hp hs] at hst
    split at hst
    · next o ho => exact key.2 _ ho hst
    · next i x ho => exact key.1 _ _ ho hst
  · -- lzw
    have key := fetchCode_payload (u := u) (t := t) (op := State.mainOp) (by
      intro x y hv h
      unfold State.mainOp classify at h
      split at h
      · next hc =>
        cases hxv : x.variant <;> rw [hxv] at h
        · cases h; exact payloadStep_raised (by simp [PayloadRaises, hxv])
        · simp only [exec, execClr] at h
          have kk : PayloadPart x { x.tableReset with needClear := true } := ⟨rfl, rfl, rfl, rfl⟩
          have h' := h
          generalize hr : (getcode { x.tableReset with needClear := true }).andThen
            (fun s' => firstLiteral s'.code s') = r at h
          have hr1 : PayloadRes x (r) := by
            rw [← hr]
            constructor
            · intro t ht
              obtain ⟨a, ha, hb⟩ := Res.andThen_ok.mp ht
              exact kk.trans (((getcode_payload _).1 a ha).trans ((firstLiteral_payload _ _).1 t hb))
            · intro t ht
              rcases Res.andThen_raised.mp ht with ha | ⟨a, ha, hb⟩
              · exact kk.andThen ((getcode_payload _).2 t ha)
              · exact kk.andThen (((getcode_payload _).1 a ha).andThen ((firstLiteral_payload _ _).2 t hb))
          exact payload_andThen hr1 (fun a b h => by cases h; exact PayloadPart.step ⟨rfl, rfl, rfl, rfl⟩) h
      · split at h
        · simp only [exec, execKwk] at h
          split at h
          · cases h
          · next s' hs' =>
            obtain ⟨-, rfl⟩ := push_some hs'
            exact PayloadPart.andThen (b := x.pushed x.finalByte) ⟨rfl, rfl, rfl, rfl⟩
              (walkEmit_record_payload _ _ _ _ h)
        · split at h
          · cases h; exact payloadStep_raised (by simp [PayloadRaises])
          · split at h
            · exact walkEmit_record_payload _ _ _ _ h
            · exact walkEmit_record_payload _ _ _ _ h)
    unfold Moves at hm
    simp only [step, hm, fetch_lzw hp hs] at hst
    split at hst
    · next o ho =>
      split at ho
      · exact key.2 _ ho hst
      · cases ho
        unfold engineEnd at hst
        refine payload_andThen (s := u) ⟨?_, ?_⟩ ?_ hst
        · intro x h; unfold lengthCheck at h; split at h
          · cases h; exact ⟨rfl, rfl, rfl, rfl⟩
          · split at h <;> cases h; exact ⟨rfl, rfl, rfl, rfl⟩
        · intro x h; unfold lengthCheck at h; split at h
          · cases h
          · next hv =>
            split at h <;> cases h
            exact payloadStep_raised (by simp [PayloadRaises, hv])
        · intro x y h
          split at h <;> cases h
          · exact PayloadPart.step ⟨rfl, rfl, rfl, rfl⟩
          · exact ⟨rfl, .inl ⟨.inr rfl, rfl, rfl⟩⟩
    · next i x ho =>
      split at ho
      · exact key.1 _ _ ho hst
      · cases ho
  · unfold Moves at hm
    simp only [step, hm, fetch_rle hp hs] at hst
    split at hst
    · next o ho =>
      split at ho
      · unfold fetchToken at ho
        split at ho
        · cases ho; cases hst; exact payloadStep_raised (by simp [PayloadRaises])
        · split at ho
          · cases ho
          · cases ho; cases hst
            refine PayloadPart.andThen (b := { u with rleIn := u.rleIn + BitVec.ofNat 13 u.spanLeft })
              ⟨rfl, rfl, rfl, rfl⟩ (payloadStep_raised (by simp [PayloadRaises]))
          · cases ho; cases hst
      · cases ho; cases hst
        unfold rleEnd
        split
        · exact ⟨rfl, .inl ⟨.inr rfl, rfl, rfl⟩⟩
        · exact ⟨rfl, .inl ⟨.inr rfl, rfl, rfl⟩⟩
    · next i x ho =>
      split at ho
      · next hlt =>
        unfold fetchToken at ho
        split at ho
        · cases ho
        · split at ho
          · next i' n hd =>
            cases ho
            unfold decode at hd
            simp only at hd
            split at hd
            · cases hd
            · split at hd
              · unfold fixedLength at hd
                split at hd <;> cases hd
                simp only [exec, execRrun] at hst
                rw [if_pos hlt] at hst
                have := Host.Outcome.next.inj hst
                subst this
                exact PayloadPart.step ⟨rfl, rfl, rfl, rfl⟩
              · cases hd
                simp only [exec, execRlit] at hst
                rw [if_pos hlt] at hst
                have := Host.Outcome.next.inj hst
                subst this
                exact PayloadPart.step ⟨rfl, rfl, rfl, rfl⟩
          · cases ho
          · cases ho
      · cases ho

end Sys2Proof.Machine
end

