-- ==== Sys2Proof/Laws/PerInstr.lean ====
section
/-! SUPPORT. Facts of the form "for every operation", one lemma for each constructor. `EncodingFits`: an encoding is at
most 32 bits long (R91 to R98), and its bits as a number are below `2` to that length. -/

namespace Sys2Proof.Laws

open Sys2Proof.Machine

/-- The encoding lies within its bits, wherever the operation can stand. -/
def EncodingFits.Statement (i : Instr) : Prop :=
  ∀ c : Ctx, wellFormed c i = true → (encode c i).1 ≤ 32 ∧ (encode c i).2 < 2 ^ (encode c i).1

theorem above_lt {a n b m : Nat} (ha : a < 2 ^ n) (hb : b < 2 ^ m) : above a n b < 2 ^ (n + m) := by
  rw [above, Nat.pow_add]
  calc a + 2 ^ n * b < 2 ^ n + 2 ^ n * b := by omega
    _ = 2 ^ n * (b + 1) := by ring
    _ ≤ 2 ^ n * 2 ^ m := Nat.mul_le_mul_left _ hb

/-- A value that fits by the table of R112 is below `2` to the width that R121 selects. -/
theorem fitsWidth_lt {entry : Count} {value w : Nat} (h1 : Config.firstCode ≤ entry.toNat)
    (h2 : entry.toNat ≤ Config.tableFull) (hw : codeWidth entry = some w) (h : fitsWidth entry value = true) :
    value < 2 ^ w := by
  obtain ⟨h3, h4⟩ := widthIndex_range h1 h2
  have hidx : widthIndex entry = (entry.toNat + 1) / 256 := by rw [widthIndex, Nat.shiftRight_eq_div_pow]
  simp only [fitsWidth] at h
  generalize hk : widthIndex entry = k at *
  rw [codeWidth, hk, if_neg (by omega)] at hw
  interval_cases k <;> simp [Config.widths] at hw <;> subst hw <;> split at h <;> (try split at h) <;>
    (try split at h) <;> simp only [decide_eq_true_eq] at h <;> omega

/-- A code of the main loop that fits the width of R112 fits its encoding. -/
theorem encodeCode_fits {p : Variant → Count → Bool} {c : Ctx} {value : Nat} (h : inMainLoop p c = true)
    (hv : ∀ v entry, Config.firstCode ≤ entry.toNat → p v entry = true → fitsWidth entry value = true) :
    (encodeCode c value).1 ≤ 32 ∧ (encodeCode c value).2 < 2 ^ (encodeCode c value).1 := by
  cases c with
  | code v entry =>
    simp only [inMainLoop, Bool.and_eq_true, entryInRange, decide_eq_true_eq] at h
    obtain ⟨⟨h1, h2⟩, h3⟩ := h
    obtain ⟨w, hw, -, -, h12⟩ := codeWidth_range h1 h2
    simp only [encodeCode, hw, Option.getD_some]
    exact ⟨by omega, fitsWidth_lt h1 h2 hw (hv v entry h1 h3)⟩
  | _ => simp [inMainLoop] at h

/-- Every width holds nine bits. -/
theorem fitsWidth_small {entry : Count} {value : Nat} (h : value < 2 ^ 9) : fitsWidth entry value = true := by
  unfold fitsWidth; split <;> (try split) <;> (try split) <;> simp only [decide_eq_true_eq] <;> omega

/-- A code up to `entry` fits, but at the full table's 0x1000 (R127). -/
theorem fitsWidth_entry {entry : Count} {code : Code} (h : code.toNat ≤ entry.toNat) :
    fitsWidth entry code.toNat = true := by
  have := code.isLt
  unfold fitsWidth; split <;> (try split) <;> (try split) <;> simp only [decide_eq_true_eq] <;> omega

namespace EncodingFits

theorem thdr1 (crc : BitVec 16) (volume escape : Byte) : Statement (.thdr1 crc volume escape) := fun _ _ =>
  ⟨Nat.le_refl _, above_lt crc.isLt (above_lt volume.isLt escape.isLt)⟩

theorem thdr2 (volume escape : Byte) : Statement (.thdr2 volume escape) := fun _ _ =>
  ⟨by simp [encode], above_lt volume.isLt escape.isLt⟩

theorem bhdr1 (rleLen : BitVec 16) (flag : Byte) : Statement (.bhdr1 rleLen flag) := fun _ _ =>
  ⟨by simp [encode], above_lt rleLen.isLt flag.isLt⟩

theorem bhdr2 (word : BitVec 16) (len : Option (BitVec 16)) : Statement (.bhdr2 word len) := fun _ _ => by
  cases len with
  | none => exact ⟨by simp [encode], word.isLt⟩
  | some n => exact ⟨Nat.le_refl _, above_lt word.isLt n.isLt⟩

theorem rawblk : Statement .rawblk := fun _ _ => ⟨by simp [encode], by simp [encode]⟩

theorem lit0 (code : Code) : Statement (.lit0 code) := fun _ h => by
  simp only [wellFormed, Bool.and_eq_true, decide_eq_true_eq] at h
  exact ⟨by simp [encode], h.2⟩

theorem clr : Statement .clr := fun _ h =>
  encodeCode_fits h fun _ _ _ _ => fitsWidth_small (by simp [Config.clearCode])

theorem rsv : Statement .rsv := fun _ h =>
  encodeCode_fits h fun _ _ _ _ => fitsWidth_small (by simp [Config.clearCode])

theorem kwk (code : Code) : Statement (.kwk code) := fun _ h =>
  encodeCode_fits h fun _ _ _ hp => fitsWidth_entry (Nat.le_of_eq (by simpa using hp))

theorem bad (code : Code) : Statement (.bad code) := fun _ h =>
  encodeCode_fits h fun _ _ _ hp => by
    simp only [Bool.and_eq_true] at hp
    exact hp.2

theorem lit (byte : Byte) : Statement (.lit byte) := fun _ h =>
  encodeCode_fits h fun _ _ _ _ => fitsWidth_small (by have := byte.isLt; omega)

theorem ref (code : Code) : Statement (.ref code) := fun _ h =>
  encodeCode_fits h fun _ _ _ hp => fitsWidth_entry (by
    simp only [Bool.and_eq_true, decide_eq_true_eq] at hp
    omega)

theorem rlit (u : Byte) : Statement (.rlit u) := fun _ _ => ⟨by simp [encode], u.isLt⟩

theorem rrun (ch count : Byte) : Statement (.rrun ch count) := fun c h => by
  cases c with
  | rle escape => exact ⟨by simp [encode], above_lt escape.isLt (above_lt ch.isLt count.isLt)⟩
  | _ => simp [wellFormed] at h

theorem getcode : Statement .getcode := fun _ h => by simp [wellFormed] at h

theorem crcbyte (b : Byte) : Statement (.crcbyte b) := fun _ h => by simp [wellFormed] at h

theorem crcblk : Statement .crcblk := fun _ _ => ⟨by simp [encode], by simp [encode]⟩

theorem emitblk : Statement .emitblk := fun _ _ => ⟨by simp [encode], by simp [encode]⟩

theorem verify : Statement .verify := fun _ _ => ⟨by simp [encode], by simp [encode]⟩

end EncodingFits

end Sys2Proof.Laws
end

