-- ==== Sys2Proof/Tests/Slice0.lean ====
section
/-! SUPPORT. The model's own tests. Expected results come from the spec's worked examples (R139, R147, R148, R153, R183,
and the vectors G, H, E, T, L of 95_test_vectors.md) or are worked out by hand from its encodings. -/

namespace Sys2Proof.Tests

open Sys2Proof Sys2Proof.Machine

/-! ### Ill-formed terms are refused -/

theorem test_wf_thdr1 : wellFormed (.thdr .lzw2) (.thdr1 0 0 0) = false := by decide
theorem test_wf_thdr2 : wellFormed (.thdr .lzw1) (.thdr2 0 0) = false := by decide
theorem test_wf_bhdr1 : wellFormed (.bhdr .lzw2) (.bhdr1 0 0) = false := by decide
theorem test_wf_bhdr2_length_missing : wellFormed (.bhdr .lzw2) (.bhdr2 0x8030 none) = false := by decide
theorem test_wf_bhdr2_length_extra : wellFormed (.bhdr .lzw2) (.bhdr2 0x0030 (some 22)) = false := by decide
theorem test_wf_rawblk : wellFormed .crc .rawblk = false := by decide
theorem test_wf_lit0_tenth_bit : wellFormed .first (.lit0 0x200) = false := by decide
theorem test_wf_clr_lzw1 : wellFormed (.code .lzw1 0x0101) .clr = false := by decide
theorem test_wf_rsv_lzw2 : wellFormed (.code .lzw2 0x0101) .rsv = false := by decide
theorem test_wf_kwk : wellFormed (.code .lzw1 0x0102) (.kwk 0x101) = false := by decide
theorem test_wf_bad_below : wellFormed (.code .lzw1 0x0102) (.bad 0x102) = false := by decide
theorem test_wf_bad_too_wide : wellFormed (.code .lzw1 0x01FE) (.bad 0x200) = false := by decide
theorem test_wf_lit_entry_out_of_range : wellFormed (.code .lzw1 0x0100) (.lit 0x41) = false := by decide
theorem test_wf_ref_above : wellFormed (.code .lzw1 0x0102) (.ref 0x102) = false := by decide
theorem test_wf_ref_below : wellFormed (.code .lzw1 0x0102) (.ref 0x100) = false := by decide
theorem test_wf_rlit_escape : wellFormed (.rle 0xDB) (.rlit 0xDB) = false := by decide
theorem test_wf_rrun : wellFormed .first (.rrun 0 0) = false := by decide
theorem test_wf_getcode : wellFormed .first .getcode = false := by decide
theorem test_wf_crcbyte : wellFormed .crc (.crcbyte 0) = false := by decide
theorem test_wf_crcblk : wellFormed .emit .crcblk = false := by decide
theorem test_wf_emitblk : wellFormed .verify .emitblk = false := by decide
theorem test_wf_verify : wellFormed .crc .verify = false := by decide

/-! ### Words of the spec's encodings, written out, and the operations they are -/

/-- H1: `92 4C 00 DB`. -/
theorem test_decode_thdr1 : decode (.thdr .lzw1) 32 0xDB004C92 = .ok (.thdr1 0x4C92 0x00 0xDB) 32 := by decide
/-- H2: `07 DB`. -/
theorem test_decode_thdr2 : decode (.thdr .lzw2) 16 0xDB07 = .ok (.thdr2 0x07 0xDB) 16 := by decide
/-- H3: `35 00 01`. -/
theorem test_decode_bhdr1 : decode (.bhdr .lzw1) 24 0x010035 = .ok (.bhdr1 53 1) 24 := by decide
/-- R194: `30 80 16 00`, four bytes. -/
theorem test_decode_bhdr2_lzw : decode (.bhdr .lzw2) 32 0x00168030 = .ok (.bhdr2 0x8030 (some 22)) 32 := by decide
/-- R194: `00 10`, two bytes. -/
theorem test_decode_bhdr2_raw : decode (.bhdr .lzw2) 16 0x1000 = .ok (.bhdr2 0x1000 none) 16 := by decide
/-- G1: `41 84`, the first nine bits. -/
theorem test_decode_lit0 : decode .first 16 0x8441 = .ok (.lit0 0x041) 9 := by decide
/-- G11's width: at `entry` 0x1000 a code has 12 bits. -/
theorem test_decode_ref_12 : decode (.code .lzw1 0x1000) 12 0xAAB = .ok (.ref 0xAAB) 12 := by decide
theorem test_decode_lit : decode (.code .lzw1 0x0101) 9 0x042 = .ok (.lit 0x42) 9 := by decide
theorem test_decode_kwk : decode (.code .lzw1 0x0103) 9 0x103 = .ok (.kwk 0x103) 9 := by decide
theorem test_decode_bad : decode (.code .lzw1 0x0102) 9 0x103 = .ok (.bad 0x103) 9 := by decide
theorem test_decode_rsv : decode (.code .lzw1 0x0101) 9 0x100 = .ok .rsv 9 := by decide
theorem test_decode_clr : decode (.code .lzw2 0x0103) 9 0x100 = .ok .clr 9 := by decide
theorem test_decode_rlit : decode (.rle 0xDB) 8 0x48 = .ok (.rlit 0x48) 8 := by decide
/-- R97: `DB 00 FF`. -/
theorem test_decode_rrun : decode (.rle 0xDB) 24 0xFF00DB = .ok (.rrun 0x00 0xFF) 24 := by decide
theorem test_decode_rawblk : decode .raw 0 0 = .ok .rawblk 0 := by decide
theorem test_decode_crcblk : decode .crc 0 0 = .ok .crcblk 0 := by decide
theorem test_decode_emitblk : decode .emit 0 0 = .ok .emitblk 0 := by decide
theorem test_decode_verify : decode .verify 0 0 = .ok .verify 0 := by decide
/-- A stream that ends inside an element is no operation. -/
theorem test_decode_short : decode (.rle 0xDB) 16 0x41DB = .short := by decide
/-- R110: no width for `entry` below 0x00FF or above 0x10FE. -/
theorem test_decode_no_width : decode (.code .lzw1 0x00FE) 16 0 = .noWidth ∧ decode (.code .lzw1 0x10FF) 16 0 = .noWidth := by
  decide
/-- R105 numbers a code's bits from bit 0 of the first byte: 12 bits of `34 12` are 0x234 (G13). -/
theorem test_table_word : decodeTableWord 16 0x1234 = some (.ref 0x234) := by decide
theorem test_table_word_runs :
    (State.reset.withFetchWord 16 0x1234).phase = .payload ∧ (State.reset.withFetchWord 16 0x1234).readIn 1 = 0x12 := by
  decide

theorem test_table_word_headers : decodeTableWord 32 0xDB004C92 = some (.thdr1 0x4C92 0x00 0xDB) ∧
    decodeTableWord 24 0x010035 = some (.bhdr1 53 1) ∧ decodeTableWord 8 0x48 = some (.rlit 0x48) := by decide

/-! ### One step -/

/-- A field of the next state. -/
def after {α : Type} (o : Host.Outcome State Fault Refusal) (f : State → α) : Option α :=
  match o with
  | .next t => some (f t)
  | .fault _ => none
  | .refused _ => none

/-- A thread in a phase, its input from address 0, with room for five bytes of output. -/
def thread (v : Variant) (p : Phase) (bytes : List Byte) : State :=
  { State.reset with
    variant := v, phase := p, input := memOfBytes bytes, inLen := BitVec.ofNat 32 bytes.length, entry := 0x0101
    usize := 5, uncompRemaining := 5, escape := 0xDB }

/-- An engine whose next code is at a bit position: the residue byte is the byte before `ip`. -/
def engine (v : Variant) (len : BitVec 16) (entry : Count) (ip : Addr) (sb : BitVec 3) (bytes : List Byte) : State :=
  { thread v .payload bytes with
    stage := .lzw, lzwUsed := true, rleUsed := true, rleLen := len, writeLen := 5, entry := entry, ip := ip
    startBit := sb, lastByte := memRead (memOfBytes bytes) (ip.toNat - 1) }

/-- R183 row 1 after its first two codes: "AB" is out, and code 0x101 is "AB". -/
def rowOne : State :=
  { engine .lzw1 7 0x0102 3 2 [0x41, 0x84, 0x04, 0x1C, 0x08] with
    outN := 2, scr := [(0, 0x41), (1, 0x42)], tch := [(1, 0x42)], tpr := [(1, 0x041)], old := 0x042, finalByte := 0x42 }

/-- The expander over a span in `IN`. -/
def expander (rleOut : Count) (bytes : List Byte) : State :=
  { thread .lzw1 .payload bytes with
    stage := .rle, rleUsed := true, rleLen := BitVec.ofNat 16 bytes.length, writeLen := 5, rleOut := rleOut }

/-- The step after `withFetchWord` runs the word: here CLR, whose literal is the nine zero bits behind it. -/
theorem test_table_word_step : after (step (State.reset.withFetchWord 16 0x100))
    (fun t => (t.scr, t.entry, t.old)) = some ([(0, 0x00)], 0x0101, 0x000) := by decide
theorem test_thdr1 : after (step (thread .lzw1 .thdr [0x92, 0x4C, 0x00, 0xDB]))
    (fun t => (t.hdrCrc, t.volume, t.escape, t.ip, t.phase)) = some (0x4C92, 0x00, 0xDB, 4, .bhdr) := by decide
/-- F13's shape: the CRC word is there, the escape byte is not. -/
theorem test_thdr1_short : after (step (thread .lzw1 .thdr [0x12, 0x34, 0x00]))
    (fun t => (t.hdrCrc, t.cause, t.info, t.ip, t.phase)) = some (0x3412, 6, 3, 3, .fault) := by decide
theorem test_thdr2 : after (step (thread .lzw2 .thdr [0x07, 0xDB]))
    (fun t => (t.hdrCrc, t.volume, t.escape, t.ip)) = some (0, 0x07, 0xDB, 2) := by decide
theorem test_bhdr1 : after (step (thread .lzw1 .bhdr [0x30, 0x00, 0x00]))
    (fun t => (t.rleLen, t.lzwUsed, t.rleUsed, t.writeLen, t.phase)) = some (48, false, true, 5, .payload) := by decide
/-- H8: the flag is checked before the length. -/
theorem test_bhdr1_flag_first : after (step (thread .lzw1 .bhdr [0x88, 0x13, 0x02]))
    (fun t => (t.rleLen, t.cause, t.info, t.phase)) = some (5000, 5, 2, .fault) := by decide
theorem test_bhdr2 : after (step (thread .lzw2 .bhdr [0x30, 0x80, 0x16, 0x00]))
    (fun t => (t.rleLen, t.lzwUsed, t.lzwLength, t.ip)) = some (48, true, 22, 4) := by decide
/-- R109: bits 14 and 13 are ignored. -/
theorem test_bhdr2_ignored_bits : after (step (thread .lzw2 .bhdr [0x30, 0x60]))
    (fun t => (t.rleLen, t.lzwUsed, t.rleUsed, t.ip)) = some (48, false, true, 2) := by decide
/-- F12: a raw block one byte short. -/
theorem test_rawblk_short : after (step { thread .lzw1 .payload [0x55, 0x55] with rleUsed := false })
    (fun t => (t.cause, t.info, t.ip, t.blk)) = some (6, 2, 0, []) := by decide
theorem test_lit0 : after (step { engine .lzw1 7 0x0101 0 0 [0x41, 0x84] with stage := .lzw0 })
    (fun t => (t.scr, t.old, t.entry)) = some ([(0, 0x41)], 0x041, 0x0101) := by decide
/-- R183 row 6: step 1 takes no clear code. -/
theorem test_lit0_no_clear : after (step { engine .lzw2 4 0x0101 0 0 [0x00, 0x01] with stage := .lzw0 })
    (fun t => (t.cause, t.info, t.outN)) = some (1, 0x100, 0) := by decide
/-- R183 row 1, the second code: "B" and 0x101 = "AB". -/
theorem test_lit : after (step { engine .lzw1 7 0x0101 2 1 [0x41, 0x84, 0x04] with
      outN := 1, scr := [(0, 0x41)], old := 0x041, finalByte := 0x41 })
    (fun t => (t.scr, t.tch, t.tpr)) = some ([(0, 0x41), (1, 0x42)], [(1, 0x42)], [(1, 0x041)]) := by decide
/-- LIT's overrun (R176): `final` is written, nothing is emitted. -/
theorem test_lit_overrun : after (exec (.lit 0x43) { rowOne with rleLen := 2 })
    (fun t => (t.cause, t.info, t.finalByte, t.outN)) = some (9, 2, 0x43, 2) := by decide
/-- R183 row 1, the third code: REF 0x101 is "AB", and 0x102 = "BA". -/
theorem test_ref : after (step rowOne) (fun t => (t.scr, t.tch, t.tpr)) =
    some ([(0, 0x41), (1, 0x42), (2, 0x41), (3, 0x42)], [(1, 0x42), (2, 0x41)], [(1, 0x041), (2, 0x042)]) := by decide
theorem test_ref_registers : after (step rowOne) (fun t => (t.entry, t.old, t.finalByte, t.outN)) =
    some (0x0103, 0x101, 0x41, 4) := by decide
/-- R183 row 8: "AB" then "AB" needs four bytes of three. -/
theorem test_ref_overrun : after (step { rowOne with rleLen := 3 }) (fun t => (t.cause, t.info, t.scr, t.entry)) =
    some (9, 3, [(0, 0x41), (1, 0x42), (2, 0x41)], 0x0102) := by decide
/-- R183 row 2: code 0x101 at `entry` 0x0101 is KWK, "AA". -/
theorem test_kwk : after (step { engine .lzw1 4 0x0101 2 1 [0x41, 0x02, 0x06] with
      outN := 1, scr := [(0, 0x41)], old := 0x041, finalByte := 0x41 })
    (fun t => (t.scr, t.entry, t.old)) = some ([(0, 0x41), (1, 0x41), (2, 0x41)], 0x0102, 0x101) := by decide
/-- R174: the record step of a full table raises, after the emission. -/
theorem test_record_full : after (exec (.lit 0x43) { rowOne with entry := 0x1000 })
    (fun t => (t.cause, t.info, t.outN, t.old)) = some (10, 0x1000, 3, 0x042) := by decide
/-- R183 row 4: 0x103 at `entry` 0x0102. -/
theorem test_bad : after (step { rowOne with input := memOfBytes [0x41, 0x84, 0x0C, 0x04], inLen := 4, lastByte := 0x0C })
    (fun t => (t.cause, t.info, t.entry, t.outN)) = some (2, 0x103, 0x0102, 2) := by decide
/-- R183 row 7. -/
theorem test_rsv : after (step { engine .lzw1 4 0x0101 2 1 [0x41, 0x00, 0x02] with outN := 1 })
    (fun t => (t.cause, t.info, t.phase)) = some (11, 0x100, .fault) := by decide
/-- R183 row 10: the literal after CLR fills the block, so `resetFix` is set. -/
theorem test_clr_reset_fix : after (step { engine .lzw2 3 0x0102 3 2 [0x41, 0x84, 0x00, 0x1C, 0x02] with
      outN := 2, scr := [(0, 0x41), (1, 0x42)] })
    (fun t => (t.scr, t.entry, t.old, t.resetFix, t.needClear)) =
      some ([(0, 0x41), (1, 0x42), (2, 0x43)], 0x0101, 0x043, true, false) := by decide
/-- R183 row 12: no clear code after a clear code; `need_clear` is left set. -/
theorem test_clr_twice : after (step { engine .lzw2 3 0x0101 2 1 [0x41, 0x00, 0x02, 0x04] with outN := 1 })
    (fun t => (t.cause, t.info, t.entry, t.needClear)) = some (1, 0x100, 0x0101, true) := by decide
theorem test_rlit : after (step (expander 0 [0x48, 0x45])) (fun t => (t.blk, t.rleIn, t.rleOut)) =
    some ([(0, 0x48)], 1, 1) := by decide
/-- R153 row 9: the escape byte is the span's last. -/
theorem test_rlit_underrun : after (step (expander 4095 [0xDB])) (fun t => (t.cause, t.info, t.rleIn)) =
    some (8, 1, 1) := by decide
/-- `count = 0` is one byte (R153 row 7). -/
theorem test_rrun_one : after (step (expander 0 [0xDB, 0x55, 0x00])) (fun t => (t.blk, t.rleIn, t.rleOut)) =
    some ([(0, 0x55)], 3, 1) := by decide
/-- A run is truncated at the end of the block (R153 row 4). -/
theorem test_rrun_truncated : after (step (expander 4094 [0xDB, 0x42, 0xFF])) (fun t => (t.blk, t.rleOut)) =
    some ([(4094, 0x42), (4095, 0x42)], 4096) := by decide
/-- G7: two further bytes. -/
theorem test_getcode_two_more : after (exec .getcode (engine .lzw1 7 0x03FF 1 6 [0xC0, 0xFF, 0x01]))
    (fun t => (t.code, t.startBit, t.lastByte, t.ip)) = some (0x7FF, 1, 0x01, 3) := by decide
/-- G16: two further bytes needed, one present. -/
theorem test_getcode_underrun : after (exec .getcode (engine .lzw1 7 0x07FF 1 5 [0xE0, 0xFF]))
    (fun t => (t.cause, t.info, t.ip)) = some (6, 2, 2) := by decide
/-- R139 (c): `CRCBYTE(0, 7) = 0x70E7`. -/
theorem test_crcbyte : after (exec (.crcbyte 7) State.reset) (fun t => t.crcAcc) = some 0x70E7 := by decide
/-- T3: "AB" is 0x567B; after "A" the accumulator is 0x58E5. -/
theorem test_crc_two_bytes : crcByte 0 0x41 = 0x58E5 ∧ crcByte 0x58E5 0x42 = 0x567B := by decide
theorem test_crcblk_phase : after (step (thread .lzw1 .crc [])) (fun t => t.phase) = some .emit := by rfl
theorem test_emitblk : after (step { thread .lzw1 .emit [] with
      writeLen := 5, blk := [(0, 0x48), (1, 0x45), (2, 0x4C), (3, 0x4C), (4, 0x4F)] })
    (fun t => (t.out, t.uncompRemaining, t.phase)) = some ([0x48, 0x45, 0x4C, 0x4C, 0x4F], 0, .verify) := by decide
theorem test_verify : after (step { thread .lzw1 .verify [] with crcAcc := 0x31C3, hdrCrc := 0x31C3 })
    (fun t => (t.phase, t.cause)) = some (.done, 0) := by decide
/-- P8's shape: `info` is the computed CRC above the header's. -/
theorem test_verify_mismatch : after (step { thread .lzw1 .verify [] with crcAcc := 0x4C92, hdrCrc := 0x4C93 })
    (fun t => (t.phase, t.cause, t.info)) = some (.fault, 4, 0x4C924C93) := by decide

/-! ### Witnesses: states and operands that meet the hypotheses of the statements, clause by clause -/

/-- The step answers a next state, and this is what one of its fields holds. -/
theorem next_of_after {α : Type} {o : Host.Outcome State Fault Refusal} {f : State → α} {a : α}
    (h : after o f = some a) : ∃ t, o = .next t ∧ f t = a := by
  cases o with
  | next t => exact ⟨t, rfl, Option.some.inj h⟩
  | fault _ => cases h
  | refused _ => cases h

/-- The host leaves the step to the machine. -/
theorem moves_self {s : State} (h : s.inputs = []) : Moves s s := by simp [Moves, hostTurn, h]

/-- `rowOne` in either variant and with any declared length of two bytes and more. -/
def rowOf (v : Variant) (len : BitVec 16) : State := { rowOne with variant := v, rleLen := len }

theorem row_table (v : Variant) (len : BitVec 16) : TableOk (rowOf v len) where
  low := (by decide : Config.firstCode ≤ rowOne.entry.toNat)
  high := (by decide : rowOne.entry.toNat ≤ Config.tableFull)
  slots := by
    intro c h1 h2
    have h3 : (rowOf v len).entry.toNat = 0x102 := rfl
    have : c = 0x101 := by simp only [Config.firstCode] at h1; omega
    subst this
    exact ⟨0x42, 0x041, rfl, rfl, by decide, by decide⟩

theorem row_old (v : Variant) (len : BitVec 16) : OldOk (rowOf v len) :=
  (by decide : rowOne.old.toNat < rowOne.entry.toNat ∧ rowOne.old.toNat ≠ Config.clearCode)

theorem row_inv (v : Variant) {len : BitVec 16} (h1 : 2 ≤ len.toNat) (h2 : len.toNat < 4096) : Inv (rowOf v len) where
  input := (by decide : inputOk rowOne.input rowOne.inLen = true)
  coming := fun _ h => by cases h
  ip := (by decide : rowOne.ip.toNat ≤ rowOne.inLen.toNat)
  outLen := rfl
  tch := (by decide : slotsWf Config.tableCap rowOne.tch = true)
  tpr := (by decide : slotsWf Config.tableCap rowOne.tpr = true)
  stk := rfl
  scr := (by decide : slotsWf Config.scratchCap rowOne.scr = true)
  blk := rfl
  cause := (by decide : rowOne.phase = .fault ↔ rowOne.cause.toNat ≠ 0)
  done := fun h => by cases h
  running := fun _ =>
    { table := row_table v len
      stackEmpty := rfl
      noClear := rfl
      lzw1Fix := fun _ => rfl
      old := fun _ => row_old v len
      lzw2Crc := fun _ => rfl
      phaseOk := ⟨⟨Nat.le_of_lt h2, by
          have h3 : (len.toNat != Config.block) = true := by simpa [Config.block] using Nat.ne_of_lt h2
          exact h3.symm, rfl, (by decide : 0 < rowOne.uncompRemaining.toNat)⟩,
        rfl, h1, by
          intro i hi
          have hi : i < 2 := hi
          interval_cases i <;> rfl,
        fun _ => (by decide : 0 < rowOne.ip.toNat ∧ rowOne.lastByte = rowOne.readIn (rowOne.ip.toNat - 1)),
        (by decide : rowOne.blkIp0.toNat ≤ rowOne.ip.toNat)⟩ }

theorem row_final (v : Variant) (len : BitVec 16) : FinalOk (rowOf v len) := fun _ _ => by
  rw [State.strHead, State.str_lit (by exact (by decide : rowOne.old.toNat ≤ 255))]; rfl

theorem row_crc (v : Variant) (len : BitVec 16) : CrcOk (rowOf v len) := fun _ => rfl

theorem row_blocks (v : Variant) (len : BitVec 16) : WholeBlocks (rowOf v len) := rfl

/-! Encoding. -/

theorem witness_DecodeOfEncode_code :
    wellFormed (.code .lzw1 0x01FE) (.kwk 0x1FE) = true ∧ (encode (.code .lzw1 0x01FE) (.kwk 0x1FE)).1 ≤ 9 := by decide
theorem witness_DecodeOfEncode_token :
    wellFormed (.rle 0xDB) (.rrun 0xDB 0xFF) = true ∧ (encode (.rle 0xDB) (.rrun 0xDB 0xFF)).1 ≤ 24 := by decide
theorem witness_EncodeOfDecode :
    (∀ v e, Ctx.code .lzw1 0x1000 = .code v e → entryInRange e = true) ∧
      decode (.code .lzw1 0x1000) 12 0xFFF = .ok (.ref 0xFFF) 12 :=
  ⟨fun _ _ h => by cases h; decide, by decide⟩
/-- The ends of the four ranges of `entry`. -/
theorem witness_CodeWidths :
    (([0x101, 0x1FE, 0x1FF, 0x3FE, 0x3FF, 0x7FE, 0x7FF, 0xFFF, 0x1000] : List Count).all fun e =>
      decide (0x0101 ≤ e.toNat ∧ e.toNat ≤ 0x1000)) = true := by decide
/-- The classes at `entry` 0x0103: their conditions meet nowhere. -/
theorem witness_CodeClasses :
    classify .lzw2 0x0103 0x100#12 = .clr ∧ classify .lzw1 0x0103 0x100#12 = .rsv ∧
      (0x0FF#12).toNat ≤ 0x0FF ∧ (0x0101 ≤ (0x101#12).toNat ∧ (0x102#12).toNat < (0x0103#13).toNat) ∧
      (0x103#12).toNat = (0x0103#13).toNat ∧ (0x0103#13).toNat < (0x104#12).toNat := by decide

/-! A step runs the decoded operation. -/

theorem witness_HostTurnLeavesTheStep :
    rowOne.inputs = [] ∧ { rowOne with inputs := [.wait] }.inputs = .wait :: [] := ⟨rfl, rfl⟩
theorem witness_StepRunsHeader_thdr : let u := thread .lzw1 .thdr [0x92, 0x4C, 0x00, 0xDB]
    Moves u u ∧ (u.phase = .thdr ∧ Ctx.thdr .lzw1 = .thdr u.variant) ∧
      decode (.thdr .lzw1) (8 * (u.inLen.toNat - u.ip.toNat))
        (leBytes u.readIn u.ip.toNat (min 4 (u.inLen.toNat - u.ip.toNat))) = .ok (.thdr1 0x4C92 0x00 0xDB) 32 :=
  ⟨moves_self rfl, by decide, by decide⟩
theorem witness_StepRunsHeader_bhdr : let u := thread .lzw2 .bhdr [0x00, 0x10]
    Moves u u ∧ (u.phase = .bhdr ∧ Ctx.bhdr .lzw2 = .bhdr u.variant) ∧
      decode (.bhdr .lzw2) (8 * (u.inLen.toNat - u.ip.toNat))
        (leBytes u.readIn u.ip.toNat (min 4 (u.inLen.toNat - u.ip.toNat))) = .ok (.bhdr2 0x1000 none) 16 :=
  ⟨moves_self rfl, by decide, by decide⟩
theorem witness_StepRunsCode_first : let u := { engine .lzw1 7 0x0101 0 0 [0x41, 0x84] with stage := .lzw0 }
    Moves u u ∧ u.phase = .payload ∧ (u.stage = .lzw0 ∧ u.entry.toNat = 0x0101) ∧ ResidueOk u ∧
      u.ip.toNat ≤ u.inLen.toNat ∧
      decode .first (8 * u.inLen.toNat - u.bitPos) (u.inField u.bitPos 16) = .ok (.lit0 0x041) 9 :=
  ⟨moves_self rfl, rfl, ⟨rfl, rfl⟩, fun h => absurd rfl h, by decide, by decide⟩
theorem witness_StepRunsCode_main :
    Moves rowOne rowOne ∧ rowOne.phase = .payload ∧ (rowOne.stage = .lzw ∧ rowOne.outN.toNat < rowOne.rleLen.toNat) ∧
      0x0101 ≤ rowOne.entry.toNat ∧ rowOne.entry.toNat ≤ 0x1000 ∧ ResidueOk rowOne ∧
      rowOne.ip.toNat ≤ rowOne.inLen.toNat ∧
      decode (.code rowOne.variant rowOne.entry) (8 * rowOne.inLen.toNat - rowOne.bitPos)
        (rowOne.inField rowOne.bitPos 16) = .ok (.ref 0x101) 9 :=
  ⟨moves_self rfl, rfl, by decide, by decide, by decide, fun _ => by decide, by decide, by decide⟩
theorem witness_StepRunsToken : let u := expander 4095 [0x48]
    Moves u u ∧ u.phase = .payload ∧ u.stage = .rle ∧ u.rleOut.toNat < 4096 ∧
      (u.lzwUsed = false → u.ip.toNat + u.rleLen.toNat ≤ u.inLen.toNat) ∧
      decode (.rle u.escape) (8 * (u.rleLen.toNat - u.rleIn.toNat))
        (leBytes u.spanByte u.rleIn.toNat (min 3 (u.rleLen.toNat - u.rleIn.toNat))) = .ok (.rlit 0x48) 8 :=
  ⟨moves_self rfl, rfl, rfl, by decide, by decide, by decide⟩
theorem witness_StepRunsInternal_raw : let u := thread .lzw1 .payload []
    Moves u u ∧ u.phase = .payload ∧ u.stage = .choose ∧ u.lzwUsed = false ∧ u.rleUsed = false :=
  ⟨moves_self rfl, rfl, rfl, rfl, rfl⟩
theorem witness_StepRunsInternal_others : ∀ p ∈ [Phase.crc, Phase.emit, Phase.verify],
    Moves (thread .lzw1 p []) (thread .lzw1 p []) ∧ (thread .lzw1 p []).phase = p :=
  fun _ _ => ⟨moves_self rfl, rfl⟩

/-! Headers. -/

theorem witness_ThreadHeaders : (thread .lzw1 .thdr []).variant = .lzw1 ∧ (thread .lzw2 .thdr []).variant = .lzw2 :=
  ⟨rfl, rfl⟩
theorem witness_HeaderFields_thdr :
    Moves (thread .lzw1 .thdr [1, 2, 3, 4]) (thread .lzw1 .thdr [1, 2, 3, 4]) ∧
      (thread .lzw1 .thdr [1, 2, 3, 4]).ip.toNat + 4 ≤ (thread .lzw1 .thdr [1, 2, 3, 4]).inLen.toNat ∧
      (thread .lzw2 .thdr [1, 2]).ip.toNat + 2 ≤ (thread .lzw2 .thdr [1, 2]).inLen.toNat :=
  ⟨moves_self rfl, by decide, by decide⟩
theorem witness_HeaderFields_bhdr1 : let u := thread .lzw1 .bhdr [0x35, 0x00, 0x01]
    Moves u u ∧ u.phase = .bhdr ∧ u.variant = .lzw1 ∧ u.ip.toNat + 3 ≤ u.inLen.toNat :=
  ⟨moves_self rfl, rfl, rfl, by decide⟩
theorem witness_HeaderFields_bhdr2_short : let u := thread .lzw2 .bhdr [0xFF, 0x7F]
    Moves u u ∧ u.phase = .bhdr ∧ u.variant = .lzw2 ∧ u.ip.toNat + 2 ≤ u.inLen.toNat ∧
      (u.in16 u.ip.toNat).getLsbD 15 = false :=
  ⟨moves_self rfl, rfl, rfl, by decide, by decide⟩
theorem witness_HeaderFields_bhdr2_long : let u := thread .lzw2 .bhdr [0x00, 0x80, 0x04, 0x00]
    Moves u u ∧ u.phase = .bhdr ∧ u.variant = .lzw2 ∧ u.ip.toNat + 4 ≤ u.inLen.toNat ∧
      (u.in16 u.ip.toNat).getLsbD 15 = true :=
  ⟨moves_self rfl, rfl, rfl, by decide, by decide⟩
theorem witness_HeaderUnderrun_thdr :
    (thread .lzw1 .thdr [1, 2, 3]).inLen.toNat < (thread .lzw1 .thdr [1, 2, 3]).ip.toNat + 4 ∧
      (thread .lzw1 .thdr [1, 2, 3]).ip.toNat ≤ (thread .lzw1 .thdr [1, 2, 3]).inLen.toNat ∧
      (thread .lzw2 .thdr [1]).inLen.toNat < (thread .lzw2 .thdr [1]).ip.toNat + 2 ∧
      Moves (thread .lzw2 .thdr [1]) (thread .lzw2 .thdr [1]) :=
  ⟨by decide, by decide, by decide, moves_self rfl⟩
theorem witness_HeaderUnderrun_bhdr1 : let u := thread .lzw1 .bhdr [0x35, 0x00]
    Moves u u ∧ u.phase = .bhdr ∧ u.variant = .lzw1 ∧ u.ip.toNat ≤ u.inLen.toNat ∧ u.inLen.toNat < u.ip.toNat + 3 :=
  ⟨moves_self rfl, rfl, rfl, by decide, by decide⟩
theorem witness_HeaderUnderrun_bhdr2_word : let u := thread .lzw2 .bhdr [0x30]
    Moves u u ∧ u.phase = .bhdr ∧ u.variant = .lzw2 ∧ u.ip.toNat ≤ u.inLen.toNat ∧ u.inLen.toNat < u.ip.toNat + 2 :=
  ⟨moves_self rfl, rfl, rfl, by decide, by decide⟩
theorem witness_HeaderUnderrun_bhdr2_length : let u := thread .lzw2 .bhdr [0x30, 0x80, 0x16]
    Moves u u ∧ u.phase = .bhdr ∧ u.variant = .lzw2 ∧ u.ip.toNat + 2 ≤ u.inLen.toNat ∧
      u.inLen.toNat < u.ip.toNat + 4 ∧ (u.in16 u.ip.toNat).getLsbD 15 = true :=
  ⟨moves_self rfl, rfl, rfl, by decide, by decide, by decide⟩
/-- A flag of 2 is refused and 1 is not; a length of 4097 is refused and 4096 is not. -/
theorem witness_BlockHeader1 : 1 < (2 : Byte).toNat ∧ (1 : Byte).toNat ≤ 1 ∧ 4096 < (4097 : BitVec 16).toNat ∧
    (4096 : BitVec 16).toNat ≤ 4096 := by decide
theorem witness_BlockHeader2 :
    ((0x9001 : BitVec 16).getLsbD 15 = true ∧ 4096 < (0x9001 : BitVec 16).toNat % 8192) ∧
    ((0xF000 : BitVec 16).getLsbD 15 = true ∧ (0xF000 : BitVec 16).toNat % 8192 ≤ 4096) ∧
    ((0x7FFF : BitVec 16).getLsbD 15 = false ∧ 4096 < (0x7FFF : BitVec 16).toNat % 8192) ∧
    ((0x7000 : BitVec 16).getLsbD 15 = false ∧ (0x7000 : BitVec 16).toNat % 8192 ≤ 4096) := by decide

/-! Payload paths. -/

theorem witness_RawBlock_fits : let u := { thread .lzw1 .payload [] with inLen := 4096 }
    u.ip.toNat + 4096 ≤ u.inLen.toNat := by decide
theorem witness_RawBlock_short : let u := { thread .lzw2 .payload [] with inLen := 4095 }
    u.inLen.toNat < u.ip.toNat + 4096 := by decide
theorem witness_EngineStart : ∀ v : Variant, let u := { thread v .payload [] with lzwUsed := true }
    Moves u u ∧ u.phase = .payload ∧ u.stage = .choose ∧ u.lzwUsed = true ∧ u.variant = v :=
  fun _ => ⟨moves_self rfl, rfl, rfl, rfl, rfl⟩
theorem witness_RleOnlyStart_fits : let u := { thread .lzw2 .payload [0xDB, 0x41, 0xFF] with rleUsed := true, rleLen := 3 }
    Moves u u ∧ u.phase = .payload ∧ u.stage = .choose ∧ u.lzwUsed = false ∧ u.rleUsed = true ∧
      u.ip.toNat + u.rleLen.toNat ≤ u.inLen.toNat :=
  ⟨moves_self rfl, rfl, rfl, rfl, rfl, by decide⟩
theorem witness_RleOnlyStart_short : let u := { thread .lzw1 .payload [0xDB, 0x41] with rleUsed := true, rleLen := 3 }
    Moves u u ∧ u.phase = .payload ∧ u.stage = .choose ∧ u.lzwUsed = false ∧ u.rleUsed = true ∧
      u.inLen.toNat < u.ip.toNat + u.rleLen.toNat :=
  ⟨moves_self rfl, rfl, rfl, rfl, rfl, by decide⟩
theorem witness_EngineEnd_mismatch : let u := { rowOf .lzw2 2 with lzwLength := 8 }
    Moves u u ∧ u.phase = .payload ∧ u.stage = .lzw ∧ u.rleLen.toNat ≤ u.outN.toNat ∧ u.variant = .lzw2 ∧
      (u.ip - u.blkIp0).toNat + 4 ≠ u.lzwLength.toNat :=
  ⟨moves_self rfl, rfl, rfl, by decide, rfl, by decide⟩
theorem witness_EngineEnd_rle : let u := { rowOf .lzw2 2 with lzwLength := 7 }
    Moves u u ∧ u.phase = .payload ∧ u.stage = .lzw ∧ u.rleLen.toNat ≤ u.outN.toNat ∧
      (u.variant = .lzw2 → (u.ip - u.blkIp0).toNat + 4 = u.lzwLength.toNat) ∧ u.rleUsed = true :=
  ⟨moves_self rfl, rfl, rfl, by decide, by decide, rfl⟩
theorem witness_EngineEnd_copy : let u := { rowOf .lzw1 4096 with outN := 4096, rleUsed := false }
    Moves u u ∧ u.phase = .payload ∧ u.stage = .lzw ∧ u.rleLen.toNat ≤ u.outN.toNat ∧
      (u.variant = .lzw2 → (u.ip - u.blkIp0).toNat + 4 = u.lzwLength.toNat) ∧ u.rleUsed = false :=
  ⟨moves_self rfl, rfl, rfl, by decide, by decide, rfl⟩

/-! The bit reader. -/

/-- G11 and G12: the longest read, and one that ends with the input. -/
theorem witness_GetcodeReadsTheBits :
    (let s := engine .lzw1 7 0x1000 1 7 [0x80, 0x55, 0x05];
      codeWidth s.entry = some 12 ∧ ResidueOk s ∧ s.bitPos + 12 ≤ 8 * s.inLen.toNat) ∧
    (let s := engine .lzw1 7 0x0101 1 7 [0x80, 0xFF];
      codeWidth s.entry = some 9 ∧ ResidueOk s ∧ s.bitPos + 9 ≤ 8 * s.inLen.toNat) :=
  ⟨⟨by decide, fun _ => by decide, by decide⟩, ⟨by decide, fun _ => by decide, by decide⟩⟩
/-- G17: five residue bits are not enough. -/
theorem witness_GetcodeUnderrun : let s := engine .lzw1 7 0x0101 1 3 [0xF8]
    codeWidth s.entry = some 9 ∧ ResidueOk s ∧ s.ip.toNat ≤ s.inLen.toNat ∧ 8 * s.inLen.toNat < s.bitPos + 9 :=
  ⟨by decide, fun _ => by decide, by decide, by decide⟩

/-! The LZW engine. -/

theorem witness_FirstLiteral : 255 < (256 : Code).toNat ∧ (255 : Code).toNat ≤ 255 ∧
    (rowOf .lzw1 2).rleLen.toNat ≤ (rowOf .lzw1 2).outN.toNat ∧ rowOne.outN.toNat < rowOne.rleLen.toNat ∧
    rowOne.rleLen.toNat ≤ 4096 := by decide
theorem witness_MainLoopLiteral : rowOne.sp = 0 ∧ rowOne.rleLen.toNat ≤ 4096 ∧ rowOne.outN.toNat < rowOne.rleLen.toNat ∧
    (0x0FFF : Count).toNat < 0x1000 ∧ (0x1000 : Count).toNat = 0x1000 ∧
    (rowOf .lzw1 2).rleLen.toNat ≤ (rowOf .lzw1 2).outN.toNat := by decide

theorem str_101 (v : Variant) (len : BitVec 16) : (rowOf v len).str 0x101 = [0x41, 0x42] := by
  rw [State.str_code (row_table v len) ⟨(by decide : (0x101 : Code).toNat < rowOne.entry.toNat), by decide⟩ (by decide)]
  rw [show (rowOf v len).readTpr ((0x101 : Code).toNat - 256) = 0x041 from rfl, State.str_lit (by decide)]
  rfl

theorem str_old (v : Variant) (len : BitVec 16) : (rowOf v len).str (rowOf v len).old = [0x42] := by
  rw [State.str_lit (by exact (by decide : rowOne.old.toNat ≤ 255))]; rfl

theorem witness_TableReference_room : let s := rowOf .lzw1 4
    TableOk s ∧ 0x0101 ≤ (0x101 : Code).toNat ∧ (0x101 : Code).toNat < s.entry.toNat ∧ s.sp = 0 ∧
      s.outN.toNat + (s.str 0x101).length ≤ s.rleLen.toNat ∧ s.entry.toNat < 0x1000 :=
  ⟨row_table _ _, by decide, by decide, rfl, by rw [str_101]; decide, by decide⟩
theorem witness_TableReference_overrun : let s := rowOf .lzw1 3
    TableOk s ∧ (0x101 : Code).toNat < s.entry.toNat ∧ s.sp = 0 ∧ s.outN.toNat ≤ s.rleLen.toNat ∧
      s.rleLen.toNat < s.outN.toNat + (s.str 0x101).length :=
  ⟨row_table _ _, by decide, rfl, by decide, by rw [str_101]; decide⟩

/-- A full table. -/
def fullState (c : Slots 8) (p : Slots 12) : State := { rowOf .lzw1 4 with entry := 0x1000, tch := c, tpr := p }

/-- A register file whose slots all hold one value. -/
theorem filled_file {w : Nat} (n : Nat) (v : BitVec w) : ∃ l : Slots w, ∀ i, i < n → slotGet? l i = some v :=
  ⟨slotsOfFn n fun _ => v, fun i hi => by rw [slotGet?_slotsOfFn, if_pos hi]⟩

/-- A full table of two-byte strings. -/
theorem full_table : ∃ c p, TableOk (fullState c p) := by
  obtain ⟨tc, htc⟩ := filled_file 3840 (0x42 : Byte)
  obtain ⟨tp, htp⟩ := filled_file 3840 (0x041 : Code)
  refine ⟨tc, tp, (by decide : Config.firstCode ≤ (0x1000 : Count).toNat),
    (by decide : (0x1000 : Count).toNat ≤ Config.tableFull), ?_⟩
  intro c h1 h2
  have h3 : c < 4096 := h2
  simp only [Config.firstCode] at h1
  exact ⟨0x42, 0x041, htc _ (by omega), htp _ (by omega),
    by simp only [show (0x041 : Code).toNat = 0x41 from rfl]; omega, by decide⟩

theorem witness_TableReference_full : ∃ s : State, TableOk s ∧ 0x0101 ≤ (0x101 : Code).toNat ∧
    (0x101 : Code).toNat < s.entry.toNat ∧ s.sp = 0 ∧ s.outN.toNat + (s.str 0x101).length ≤ s.rleLen.toNat ∧
    s.entry.toNat = 0x1000 := by
  obtain ⟨c, p, h⟩ := full_table
  have he : (fullState c p).entry.toNat = 4096 := rfl
  have hc : (0x101 : Code).toNat = 257 := rfl
  have := (State.str_length h (c := 0x101) ⟨by omega, by decide⟩).2
  have h2 : (fullState c p).outN.toNat = 2 := rfl
  have h3 : (fullState c p).rleLen.toNat = 4 := rfl
  exact ⟨_, h, by omega, by omega, rfl, by omega, he⟩

theorem witness_KwKwK_room : let s := rowOf .lzw1 4
    TableOk s ∧ OldOk s ∧ s.finalByte = s.strHead s.old ∧ (0x102 : Code).toNat = s.entry.toNat ∧ s.sp = 0 ∧
      s.outN.toNat + (s.str s.old).length + 1 ≤ s.rleLen.toNat :=
  ⟨row_table _ _, row_old _ _, by rw [State.strHead, str_old]; rfl, by decide, rfl, by rw [str_old]; decide⟩
theorem witness_KwKwK_overrun : let s := rowOf .lzw1 3
    TableOk s ∧ OldOk s ∧ s.finalByte = s.strHead s.old ∧ (0x102 : Code).toNat = s.entry.toNat ∧ s.sp = 0 ∧
      s.outN.toNat ≤ s.rleLen.toNat ∧ s.rleLen.toNat < s.outN.toNat + (s.str s.old).length + 1 :=
  ⟨row_table _ _, row_old _ _, by rw [State.strHead, str_old]; rfl, by decide, rfl, by decide, by rw [str_old]; decide⟩

/-- `41 00 06 04` after the codes 041 and 100: the next code is 0x101. `41 84 00 1C 02`: it is 0x043. -/
theorem witness_ClearCode :
    (let s := { engine .lzw2 3 0x0101 4 3 [0x41, 0x84, 0x00, 0x1C, 0x02] with outN := 2 };
      ResidueOk s ∧ s.ip.toNat ≤ s.inLen.toNat ∧ s.outN.toNat < s.rleLen.toNat ∧
        s.bitPos + 9 ≤ 8 * s.inLen.toNat ∧ s.inField s.bitPos 9 ≤ 255) ∧
    (let s := { engine .lzw2 3 0x0101 3 2 [0x41, 0x00, 0x06, 0x04] with outN := 1 };
      ResidueOk s ∧ s.outN.toNat < s.rleLen.toNat ∧
        s.bitPos + 9 ≤ 8 * s.inLen.toNat ∧ 255 < s.inField s.bitPos 9) ∧
    (let s := { engine .lzw2 3 0x0101 3 2 [0x41, 0x00, 0x06] with outN := 1 };
      ResidueOk s ∧ s.outN.toNat < s.rleLen.toNat ∧ 8 * s.inLen.toNat < s.bitPos + 9) :=
  ⟨⟨fun _ => by decide, by decide, by decide, by decide, by decide⟩,
    ⟨fun _ => by decide, by decide, by decide, by decide⟩, ⟨fun _ => by decide, by decide, by decide⟩⟩
theorem witness_BadCode : 0x0101 ≤ rowOne.entry.toNat ∧ rowOne.entry.toNat < (0x103 : Code).toNat := by decide
theorem witness_ReservedCode : rowOne.variant = .lzw1 := rfl
/-- Each code operation answers a next state somewhere. -/
theorem witness_CodeFrame : ∀ i ∈ [Instr.lit0 0x041, .lit 0x43, .ref 0x101, .kwk 0x102, .clr, .bad 0x103, .rsv],
    ∃ t, exec i rowOne = .next t := by
  intro i hi
  have : (after (exec i rowOne) fun t => t.outN).isSome = true := by
    revert i; decide
  obtain ⟨n, hn⟩ := Option.isSome_iff_exists.mp this
  obtain ⟨t, ht, -⟩ := next_of_after hn
  exact ⟨t, ht⟩
theorem witness_StringLength : TableOk rowOne ∧ 0x0101 ≤ (0x101 : Code).toNat ∧ (0x101 : Code).toNat < rowOne.entry.toNat :=
  ⟨row_table .lzw1 7, by decide, by decide⟩
theorem witness_RecordDefinesTheString_lit : ∃ t, TableOk rowOne ∧ OldOk rowOne ∧ rowOne.sp = 0 ∧
    rowOne.outN.toNat ≤ rowOne.rleLen.toNat ∧ exec (.lit ((0x041 : Code).setWidth 8)) rowOne = .next t ∧ t.phase ≠ .fault := by
  obtain ⟨t, h1, h2⟩ := next_of_after
    (by decide : after (exec (.lit ((0x041 : Code).setWidth 8)) rowOne) (fun t => t.phase) = some .payload)
  exact ⟨t, row_table .lzw1 7, row_old .lzw1 7, rfl, by decide, h1, by rw [h2]; decide⟩
theorem witness_RecordDefinesTheString_ref : ∃ t, TableOk rowOne ∧ OldOk rowOne ∧
    (0x0101 ≤ (0x101 : Code).toNat ∧ (0x101 : Code).toNat < rowOne.entry.toNat) ∧
    exec (.ref 0x101) rowOne = .next t ∧ t.phase ≠ .fault := by
  obtain ⟨t, h1, h2⟩ := next_of_after
    (by decide : after (exec (.ref 0x101) rowOne) (fun t => t.phase) = some .payload)
  exact ⟨t, row_table .lzw1 7, row_old .lzw1 7, by decide, h1, by rw [h2]; decide⟩

/-! The RLE expander. -/

theorem witness_RleLiteral : (expander 4095 [0x48]).rleOut.toNat < 4096 := by decide
theorem witness_RleRun : (expander 0 []).rleOut.toNat < 4096 ∧ (expander 4095 []).rleOut.toNat < 4096 := by decide
theorem witness_RleTokens_literal : let u := expander 0 [0x48]
    Moves u u ∧ u.phase = .payload ∧ u.stage = .rle ∧ u.rleOut.toNat < 4096 ∧ u.rleIn.toNat ≤ u.rleLen.toNat ∧
      u.ip.toNat + u.rleLen.toNat ≤ u.inLen.toNat ∧ u.rleIn.toNat + 1 ≤ u.rleLen.toNat ∧
      u.spanByte u.rleIn.toNat ≠ u.escape :=
  ⟨moves_self rfl, rfl, rfl, by decide, by decide, by decide, by decide, by decide⟩
theorem witness_RleTokens_run : let u := expander 0 [0xDB, 0x00, 0xFF]
    Moves u u ∧ u.rleOut.toNat < 4096 ∧ u.ip.toNat + u.rleLen.toNat ≤ u.inLen.toNat ∧
      u.rleIn.toNat + 3 ≤ u.rleLen.toNat ∧ u.spanByte u.rleIn.toNat = u.escape :=
  ⟨moves_self rfl, by decide, by decide, by decide, by decide⟩
theorem witness_RleTokens_underrun :
    (let u := expander 0 [];
      Moves u u ∧ u.rleIn.toNat = u.rleLen.toNat) ∧
    (let u := expander 0 [0xDB, 0x00];
      Moves u u ∧ u.spanByte u.rleIn.toNat = u.escape ∧ u.rleLen.toNat < u.rleIn.toNat + 3) :=
  ⟨⟨moves_self rfl, rfl⟩, ⟨moves_self rfl, by decide, by decide⟩⟩
theorem witness_RleEnd : let u := expander 4096 [0x99]
    Moves u u ∧ u.phase = .payload ∧ u.stage = .rle ∧ u.rleOut.toNat = 4096 :=
  ⟨moves_self rfl, rfl, rfl, rfl⟩

/-! Emission and verification. -/

/-- The last block, and a block before the last. -/
theorem witness_EmitBlock : let s := thread .lzw1 .emit []
    { s with writeLen := 5 }.writeLen.toNat ≤ s.uncompRemaining.toNat ∧
      { s with writeLen := 4096 }.writeLen.toNat ≤ { s with uncompRemaining := 8202 }.uncompRemaining.toNat := by decide
theorem witness_VerifyCrc : State.reset.crcAcc = State.reset.hdrCrc ∧
    { State.reset with crcAcc := 1 }.crcAcc ≠ State.reset.hdrCrc := by decide

/-! The sequencer, faults, START and reset. -/

theorem row_moves (v : Variant) (len : BitVec 16) : Moves (rowOf v len) (rowOf v len) := moves_self rfl

theorem row_busy (v : Variant) (len : BitVec 16) : (rowOf v len).status = .busy := rfl

/-- A step that goes on, in LZW/1 and in LZW/2. -/
theorem row_next : (∃ t, step (rowOf .lzw1 7) = .next t ∧ t.startBit ≠ 0) ∧
    (∃ t, step (rowOf .lzw2 7) = .next t ∧ t.phase = .payload ∧ t.lzwUsed = true ∧ t.variant = .lzw2) := by
  obtain ⟨t, h1, h2⟩ := next_of_after
    (by decide : after (step (rowOf .lzw1 7)) (fun t => t.startBit) = some 3)
  obtain ⟨t', h3, h4⟩ := next_of_after
    (by decide : after (step (rowOf .lzw2 7)) (fun t => (t.phase, t.lzwUsed, t.variant)) = some (.payload, true, .lzw2))
  simp only [Prod.mk.injEq] at h4
  exact ⟨⟨t, h1, by rw [h2]; decide⟩, ⟨t', h3, h4⟩⟩

/-- A step that raises `OutputOverrun(3)`. -/
theorem row_fault : ∃ t, step (rowOf .lzw1 3) = .next t ∧ t.phase = .fault ∧ t.cause = 9 := by
  obtain ⟨t, h1, h2⟩ := next_of_after
    (by decide : after (step (rowOf .lzw1 3)) (fun t => (t.phase, t.cause)) = some (.fault, 9))
  simp only [Prod.mk.injEq] at h2
  exact ⟨t, h1, h2⟩

/-- An LZW/1 thread of five bytes before VERIFY, with a header CRC that differs. -/
def toVerify : State :=
  { thread .lzw1 .verify [] with uncompRemaining := 0, out := [0x48, 0x45, 0x4C, 0x4C, 0x4F], hdrCrc := 0x4C92 }

theorem toVerify_inv : Inv toVerify where
  input := by decide
  coming := fun _ h => by cases h
  ip := by decide
  outLen := rfl
  tch := rfl
  tpr := rfl
  stk := rfl
  scr := rfl
  blk := rfl
  cause := by decide
  done := fun h => by cases h
  running := fun _ =>
    { table := ⟨by decide, by decide, fun c h1 h2 => by
        have : toVerify.entry.toNat = Config.firstCode := rfl
        omega⟩
      stackEmpty := rfl
      noClear := rfl
      lzw1Fix := fun _ => rfl
      old := fun h => by
        rcases h with h | h | h
        · exact absurd rfl h
        · cases h
        · cases h.1
      lzw2Crc := fun h => by cases h
      phaseOk := ⟨rfl, rfl⟩ }

theorem witness_PhaseTransitions : ∃ t, Moves (rowOf .lzw1 7) (rowOf .lzw1 7) ∧ step (rowOf .lzw1 7) = .next t :=
  row_next.1.elim fun t h => ⟨t, row_moves _ _, h.1⟩
theorem witness_FaultEntry : ∃ t, Moves (rowOf .lzw1 3) (rowOf .lzw1 3) ∧ step (rowOf .lzw1 3) = .next t ∧
    (rowOf .lzw1 3).phase ≠ .fault ∧ t.phase = .fault :=
  row_fault.elim fun t h => ⟨t, row_moves _ _, h.1, by decide, h.2.1⟩
theorem witness_FaultKeepsWholeBlocks : ∃ t, Inv (rowOf .lzw1 3) ∧ WholeBlocks (rowOf .lzw1 3) ∧
    step (rowOf .lzw1 3) = .next t ∧ (rowOf .lzw1 3).status = .busy ∧ t.phase = .fault ∧ t.cause.toNat ≠ 4 :=
  row_fault.elim fun t h =>
    ⟨t, row_inv _ (by decide) (by decide), row_blocks _ _, h.1, rfl, h.2.1, by rw [h.2.2]; decide⟩
theorem witness_FaultKeepsWholeBlocks_verify : ∃ t, Inv toVerify ∧ WholeBlocks toVerify ∧ Moves toVerify toVerify ∧
    step toVerify = .next t ∧ toVerify.status = .busy ∧ t.phase = .fault ∧ t.cause.toNat = 4 := by
  obtain ⟨t, h1, h2⟩ := next_of_after
    (by decide : after (step toVerify) (fun t => (t.phase, t.cause)) = some (.fault, 4))
  simp only [Prod.mk.injEq] at h2
  exact ⟨t, toVerify_inv, trivial, moves_self rfl, h1, rfl, h2.1, by rw [h2.2]; decide⟩
theorem witness_CauseIsSticky : Moves State.reset State.reset ∧ State.reset.status ≠ .busy ∧
    ∃ t, step (rowOf .lzw1 3) = .next t ∧ t.cause ≠ (rowOf .lzw1 3).cause :=
  ⟨moves_self rfl, by decide, row_fault.elim fun t h => ⟨t, h.1, by rw [h.2.2]; decide⟩⟩
theorem witness_StartOfAThread : let s := { State.reset with inputs := [.start ⟨.lzw1, 5, 0, []⟩] }
    s.inputs = .start ⟨.lzw1, 5, 0, []⟩ :: [] ∧ s.status ≠ .busy := ⟨rfl, by decide⟩
theorem witness_StartWhileBusyRefused : let s := { rowOne with inputs := [.start ⟨.lzw1, 5, 0, []⟩] }
    s.inputs = .start ⟨.lzw1, 5, 0, []⟩ :: [] ∧ s.status = .busy := ⟨rfl, rfl⟩
theorem witness_HardwareReset : { rowOne with inputs := [.hardReset] }.inputs = .hardReset :: [] := rfl

/-! The whole machine. -/

theorem witness_WholeMachineFrame : ∃ t, step (rowOf .lzw2 7) = .next t ∧ (rowOf .lzw2 7).phase ≠ .thdr ∧
    (rowOf .lzw2 7).variant = .lzw2 ∧ (rowOf .lzw2 7).phase ≠ .emit ∧ (rowOf .lzw2 7).phase ≠ .crc :=
  row_next.2.elim fun t h => ⟨t, h.1, by decide, rfl, by decide, by decide⟩
theorem witness_StepKeepsInv : ∃ t, Inv (rowOf .lzw1 7) ∧ step (rowOf .lzw1 7) = .next t :=
  row_next.1.elim fun t h => ⟨t, row_inv _ (by decide) (by decide), h.1⟩
theorem witness_InputPositionRises : ∃ t, Inv (rowOf .lzw1 7) ∧ Moves (rowOf .lzw1 7) (rowOf .lzw1 7) ∧
    step (rowOf .lzw1 7) = .next t :=
  row_next.1.elim fun t h => ⟨t, row_inv _ (by decide) (by decide), row_moves _ _, h.1⟩
theorem witness_StepKeepsFinal : ∃ t, Inv (rowOf .lzw1 7) ∧ FinalOk (rowOf .lzw1 7) ∧ step (rowOf .lzw1 7) = .next t :=
  row_next.1.elim fun t h => ⟨t, row_inv _ (by decide) (by decide), row_final _ _, h.1⟩
theorem witness_StepKeepsCrc : ∃ t, Inv (rowOf .lzw1 7) ∧ CrcOk (rowOf .lzw1 7) ∧ step (rowOf .lzw1 7) = .next t :=
  row_next.1.elim fun t h => ⟨t, row_inv _ (by decide) (by decide), row_crc _ _, h.1⟩
theorem witness_StepKeepsWholeBlocks : ∃ t, Inv (rowOf .lzw1 7) ∧ WholeBlocks (rowOf .lzw1 7) ∧
    step (rowOf .lzw1 7) = .next t :=
  row_next.1.elim fun t h => ⟨t, row_inv _ (by decide) (by decide), row_blocks _ _, h.1⟩
theorem witness_RunningThreadNeverStops : Inv (rowOf .lzw2 7) ∧ Moves (rowOf .lzw2 7) (rowOf .lzw2 7) :=
  ⟨row_inv _ (by decide) (by decide), row_moves _ _⟩
theorem witness_WorkFalls : ∃ t, Inv (rowOf .lzw1 7) ∧ Moves (rowOf .lzw1 7) (rowOf .lzw1 7) ∧
    (rowOf .lzw1 7).status = .busy ∧ step (rowOf .lzw1 7) = .next t :=
  row_next.1.elim fun t h => ⟨t, row_inv _ (by decide) (by decide), row_moves _ _, rfl, h.1⟩

/-- A machine in DONE to which the host gives START. -/
def toStart : State :=
  { thread .lzw2 .done [] with
    uncompRemaining := 0, out := [1, 2, 3, 4, 5], inputs := [.start ⟨.lzw1, 5, 3, [(0, 0x92), (1, 0x4C)]⟩] }

theorem witness_EveryThreadEnds : Inv toStart ∧ toStart.status ≠ .busy ∧
    toStart.inputs = [.start ⟨.lzw1, 5, 3, [(0, 0x92), (1, 0x4C)]⟩] :=
  ⟨{ input := by decide
     coming := fun a h => by
      simp only [toStart, List.mem_singleton, HostEvent.start.injEq] at h
      subst h; decide
     ip := by decide
     outLen := rfl
     tch := rfl
     tpr := rfl
     stk := rfl
     scr := rfl
     blk := rfl
     cause := by decide
     done := fun _ => ⟨rfl, fun h => by cases h⟩
     running := fun h => by cases h }, by decide, rfl⟩
theorem witness_UnwrittenSlotsAreNeverRead : ∃ t, Inv (rowOf .lzw2 7) ∧ Moves (rowOf .lzw2 7) (rowOf .lzw2 7) ∧
    step (rowOf .lzw2 7) = .next t ∧ (rowOf .lzw2 7).status = .busy ∧ t.phase ≠ .fault ∧ t.lzwUsed = true ∧
    t.variant = .lzw2 :=
  row_next.2.elim fun t h => ⟨t, row_inv _ (by decide) (by decide), row_moves _ _, h.1, rfl, by rw [h.2.1]; decide, h.2.2⟩

end Sys2Proof.Tests
end

section
/-! PROOFS. What a move of the machine keeps of the invariant (R59), read off the cases of `Effect`: the thread and its
files, the table, the flags, the pair of `old` and `final`, and what each phase needs. -/

namespace Sys2Proof.Machine

variable {s u t : State}

/-! ### The transitions of the sequencer as updates -/

/-- `LZW_START` writes these registers alone (R161, R162). -/
theorem lzwStart_eq (s : State) : lzwStart s = { s with
    stage := (lzwStart s).stage, startBit := 0, lastByte := (lzwStart s).lastByte, entry := (lzwStart s).entry
    resetFix := (lzwStart s).resetFix, outN := 0, blkIp0 := s.ip, sp := 0, freeCount := s.freeCount + 1 } := by
  unfold lzwStart
  split <;> rfl

/-- The expander's end writes `ip` and the phase alone (R202, R190). -/
theorem rleEnd_eq (s : State) : rleEnd s = { s with ip := (rleEnd s).ip, phase := s.afterPayload } := by
  unfold rleEnd
  split <;> rfl

/-- What RAWBLK writes (R203), after what R201 does to the table. -/
theorem rawBlock_eq (s : State) (n : Nat) (m : Slots 8) :
    State.blockComplete { s.resetWithoutLzw.advance n with blk := m } = { s with
      entry := s.resetWithoutLzw.entry, resetFix := s.resetWithoutLzw.resetFix
      ip := s.ip + BitVec.ofNat 32 n, blk := m, phase := s.afterPayload } := by
  unfold State.resetWithoutLzw
  split <;> rfl

/-- `LZW_START_1` resets the table and waits for a first literal (R161). -/
theorem lzwStart_lzw1 (h : s.variant = .lzw1) : lzwStart s = { s.invocation.tableReset with stage := .lzw0 } := by
  simp only [lzwStart, h]

theorem lzwStart_lzw1_resetFix (h : s.variant = .lzw1) : (lzwStart s).resetFix = s.resetFix := by
  rw [lzwStart_lzw1 h]
  rfl

/-- `LZW_START_2` waits for a first literal where the entry is a clearing one (R162). -/
theorem lzwStart_lzw2 (h : s.variant = .lzw2) : lzwStart s = { s.invocation with
    resetFix := false, stage := if s.clearingEntry then .lzw0 else .lzw } := by
  simp only [lzwStart, h]

theorem clearingEntry_iff (s : State) :
    s.clearingEntry = true ↔ s.entry.toNat = Config.firstCode ∧ s.resetFix = false := by
  simp [State.clearingEntry]

/-- The block loop (R190, R206). -/
theorem afterBlock_cases (s : State) :
    (s.afterBlock = .bhdr ∧ 0 < s.uncompRemaining.toNat) ∨
    (s.afterBlock = .verify ∧ s.uncompRemaining.toNat = 0 ∧ s.variant = .lzw1) ∨
    (s.afterBlock = .done ∧ s.uncompRemaining.toNat = 0 ∧ s.variant = .lzw2) := by
  unfold State.afterBlock
  split
  · next h0 => cases hv : s.variant <;> simp [h0]
  · next h0 => exact .inl ⟨rfl, Nat.pos_of_ne_zero h0⟩

/-- The phase after PAYLOAD (R190). -/
theorem afterPayload_cases (s : State) :
    (s.afterPayload = .crc ∧ s.variant = .lzw1) ∨ (s.afterPayload = .emit ∧ s.variant = .lzw2) := by
  unfold State.afterPayload
  cases s.variant <;> simp

theorem afterBlock_ne_payload (s : State) : s.afterBlock ≠ .payload := by
  rcases afterBlock_cases s with ⟨h, -⟩ | ⟨h, -⟩ | ⟨h, -⟩ <;> simp [h]

theorem afterPayload_ne_payload (s : State) : s.afterPayload ≠ .payload := by
  rcases afterPayload_cases s with ⟨h, -⟩ | ⟨h, -⟩ <;> simp [h]

/-- After PAYLOAD the thread still runs (R190, R46). -/
theorem busy_of_afterPayload {v : State} (h : t.phase = v.afterPayload) : t.status = .busy := by
  rcases afterPayload_cases v with ⟨hp, -⟩ | ⟨hp, -⟩ <;> exact busy_of_phase (h.trans hp) (by simp)

theorem State.raised_not_busy (s : State) (c : Cause) (v : Nat) : (s.raised c v).status ≠ .busy := by
  simp [State.status]

theorem Cause.number_ne_zero (c : Cause) : c.number.toNat ≠ 0 := by cases c <;> decide

/-- The least of a block and what is left, as `write_len` (R30). -/
theorem writeLenOf_toNat (n : Addr) : (writeLenOf n).toNat = min Config.block n.toNat := by
  simp only [writeLenOf, BitVec.toNat_ofNat, Config.block]
  omega

/-! ### The thread, its output and its files -/

/-- No move changes the thread's arguments, its input, or what the host will do (R20, R81). -/
theorem Effect.thread (he : Effect u t) : t.variant = u.variant ∧ t.usize = u.usize ∧ t.inLen = u.inLen ∧
    t.input = u.input ∧ t.inputs = u.inputs := by
  cases he with
  | fault c v w hb hw => exact hw.thread
  | raw => rw [rawBlock_eq]; exact ⟨rfl, rfl, rfl, rfl, rfl⟩
  | engineStart => rw [lzwStart_eq]; exact ⟨rfl, rfl, rfl, rfl, rfl⟩
  | rleOnly => simp
  | rleDone => rw [rleEnd_eq]; exact ⟨rfl, rfl, rfl, rfl, rfl⟩
  | _ => exact ⟨rfl, rfl, rfl, rfl, rfl⟩

/-- A code read inside `IN` leaves `ip` beyond where it was, and within `IN_LEN` (R35, R36). -/
theorem Inv.codeRead_ip (h : Inv u) (hp : u.phase = .payload) (hs : u.stage = .lzw) {w : Nat} (hw : 9 ≤ w)
    (hfit : u.bitPos + w ≤ 8 * u.inLen.toNat) :
    u.ip.toNat ≤ (u.codeRead w).ip.toNat ∧ (u.codeRead w).ip.toNat ≤ u.inLen.toNat := by
  obtain ⟨-, -, hst⟩ := h.payload hp
  obtain ⟨-, -, -, hres, -⟩ := (stageOk_lzw hs).mp hst
  obtain ⟨-, -, h1, h2⟩ := codeRead_position hw hres hfit
  exact ⟨Nat.le_of_lt h1, h2⟩

/-- What two codes in a row leave (R168): the position moves by both widths. -/
theorem codeRead_twice {w : Nat} (hw : 9 ≤ w) (hres : ResidueOk u) (hfit : u.bitPos + w + 9 ≤ 8 * u.inLen.toNat) :
    ResidueOk ((u.codeRead w).codeRead 9) ∧ u.ip.toNat ≤ ((u.codeRead w).codeRead 9).ip.toNat ∧
      ((u.codeRead w).codeRead 9).ip.toNat ≤ u.inLen.toNat := by
  obtain ⟨hpos, hres1, h1, -⟩ := codeRead_position hw hres (by omega)
  have hfit' : (u.codeRead w).bitPos + 9 ≤ 8 * (u.codeRead w).inLen.toNat := by rw [hpos]; exact hfit
  obtain ⟨-, hres2, h2, h3⟩ := codeRead_position (Nat.le_refl 9) hres1 hfit'
  exact ⟨hres2, by omega, h3⟩

/-- No residue is due where a first literal is due, so nothing is asked of it. -/
theorem residueOk_lzw0 (hs : u.stage = .lzw0) (hst : StageOk u) : ResidueOk u := by
  obtain ⟨-, -, -, hsb, -⟩ := (stageOk_lzw0 hs).mp hst
  exact fun hne => absurd hsb hne

/-- `ip` only increases, and stays within `IN_LEN` (R35, R36). -/
theorem Effect.ip (h : Inv u) (he : Effect u t) : u.ip.toNat ≤ t.ip.toNat ∧ t.ip.toNat ≤ u.inLen.toNat := by
  have hin := h.ip
  cases he with
  | fault c v w hb hw =>
    obtain ⟨-, -, hlen, -⟩ := hw.thread
    obtain ⟨h1, h2⟩ := hw.ip
    exact ⟨h1, hlen ▸ h2⟩
  | threadHeader a crc volume escape hp ha => exact ha
  | blockHeader a len n used k hp ha => exact ha
  | raw hp hs hl hfit =>
    have := ip_advance u hfit
    rw [rawBlock_eq]
    simp only [State.advance_ip] at this ⊢
    omega
  | engineStart => rw [lzwStart_eq]; exact ⟨Nat.le_refl _, hin⟩
  | rleOnly => simpa using hin
  | firstLiteral c hp hs hc ho hfit =>
    obtain ⟨-, -, hst⟩ := h.payload hp
    obtain ⟨-, -, h1, h2⟩ := codeRead_position (Nat.le_refl 9) (residueOk_lzw0 hs hst) hfit
    exact ⟨Nat.le_of_lt h1, h2⟩
  | clear c w hp hs hv hc hw ho hfit =>
    obtain ⟨-, -, hst⟩ := h.payload hp
    obtain ⟨-, -, -, hres, -⟩ := (stageOk_lzw hs).mp hst
    exact (codeRead_twice hw hres hfit).2
  | codeRun c w bytes d hp hs hw hfit => exact h.codeRead_ip hp hs hw hfit
  | rleDone hp hs ho =>
    obtain ⟨-, -, hst⟩ := h.payload hp
    obtain ⟨-, -, -, -, -, hspan⟩ := (stageOk_rle hs).mp hst
    unfold rleEnd
    split
    · exact ⟨Nat.le_refl _, hin⟩
    · next hl =>
      have hfit := hspan (by simpa using hl)
      have := ip_advance u hfit
      simp only [State.blockComplete_ip]
      omega
  | _ => exact ⟨Nat.le_refl _, hin⟩

/-- `OUT` and what is left to emit add up to `USIZE` (R54). -/
theorem Effect.outLen (h : Inv u) (he : Effect u t) :
    t.out.length + t.uncompRemaining.toNat = u.out.length + u.uncompRemaining.toNat := by
  cases he with
  | fault c v w hb hw =>
    obtain ⟨h1, h2, -⟩ := hw.output
    simp [h1, h2]
  | raw => rw [rawBlock_eq]
  | engineStart => rw [lzwStart_eq]
  | rleOnly => simp
  | rleDone => rw [rleEnd_eq]
  | emit hp =>
    obtain ⟨hblk, -⟩ := (phaseOk_emit hp).mp (h.running (busy_of_phase hp (by simp))).phaseOk
    have hw := hblk.write
    have hlt := u.uncompRemaining.isLt
    have hsub : (u.uncompRemaining - u.writeLen.setWidth 32).toNat =
        u.uncompRemaining.toNat - u.writeLen.toNat := by
      rw [BitVec.toNat_sub_of_le] <;> simp [BitVec.le_def] <;> omega
    simp only [State.headerDone, List.length_append, State.blkBytes, List.length_map, List.length_range, hsub]
    omega
  | _ => rfl

/-- The register files are in canonical form (R47 to R51). -/
structure FilesOk (s : State) : Prop where
  tch : slotsWf Config.tableCap s.tch = true
  tpr : slotsWf Config.tableCap s.tpr = true
  stk : slotsWf Config.stackCap s.stk = true
  scr : slotsWf Config.scratchCap s.scr = true
  blk : slotsWf Config.block s.blk = true

theorem Inv.files (h : Inv u) : FilesOk u := ⟨h.tch, h.tpr, h.stk, h.scr, h.blk⟩

/-- A move writes inside the register files alone (R59 item 7, R173, R176). -/
theorem Effect.files (h : Inv u) (he : Effect u t) : FilesOk t := by
  obtain ⟨htch, htpr, hstk, hscr, hblk⟩ := h.files
  have hlen : u.phase = .payload → u.rleLen.toNat ≤ Config.scratchCap := fun hp => (h.payload hp).2.1.len
  cases he with
  | fault c v w hb hw => exact ⟨hw.tch, hw.tpr, hw.stk, hw.scr, hw.blk⟩
  | raw => rw [rawBlock_eq]; exact ⟨htch, htpr, hstk, hscr, by dsimp only; exact slotsOfFn_wf _ _⟩
  | engineStart => rw [lzwStart_eq]; exact ⟨htch, htpr, hstk, hscr, hblk⟩
  | rleOnly =>
    exact ⟨by simpa using htch, by simpa using htpr, by simpa using hstk, by simpa using hscr, by simpa using hblk⟩
  | firstLiteral c hp hs hc ho =>
    exact ⟨htch, htpr, hstk, slotSet_wf hscr (Nat.lt_of_lt_of_le ho (hlen hp)) _, hblk⟩
  | clear c w hp hs hv hc hw ho =>
    exact ⟨htch, htpr, hstk, slotSet_wf hscr (Nat.lt_of_lt_of_le ho (hlen hp)) _, hblk⟩
  | codeRun c w bytes d hp hs hw hfit hne hroom hcap hd =>
    have hslot : u.entry.toNat - 256 < Config.tableCap := by
      simp only [Config.tableFull, Config.tableCap] at hcap ⊢
      omega
    exact ⟨slotSet_wf htch hslot _, slotSet_wf htpr hslot _, hd,
      slotPut_wf hscr _ _ (Nat.le_trans hroom (hlen hp)), hblk⟩
  | engineToBlock => exact ⟨htch, htpr, hstk, hscr, hscr⟩
  | token r bytes hp hs hr hne hroom => exact ⟨htch, htpr, hstk, hscr, slotPut_wf hblk _ _ hroom⟩
  | rleDone => rw [rleEnd_eq]; exact ⟨htch, htpr, hstk, hscr, hblk⟩
  | _ => exact ⟨htch, htpr, hstk, hscr, hblk⟩

/-- How a move ends: still, in FAULT with a cause, running, or in DONE with nothing left (R190, R208, R238). -/
theorem Effect.ends (h : Inv u) (he : Effect u t) :
    (t = u ∧ u.status ≠ .busy) ∨ (t.phase = .fault ∧ t.cause.toNat ≠ 0) ∨
    (u.status = .busy ∧ t.cause = u.cause ∧ (t.status = .busy ∨
      t.phase = .done ∧ t.uncompRemaining.toNat = 0 ∧ (t.variant = .lzw1 → t.crcAcc = t.hdrCrc))) := by
  have hdone : ∀ v : State, v.phase = v.afterBlock → (v.status = .busy ∨
      v.phase = .done ∧ v.uncompRemaining.toNat = 0 ∧ (v.variant = .lzw1 → v.crcAcc = v.hdrCrc)) := by
    intro v hv
    rcases afterBlock_cases v with ⟨hp, -⟩ | ⟨hp, -⟩ | ⟨hp, h0, hz⟩
    · exact .inl (busy_of_phase (hv.trans hp) (by simp))
    · exact .inl (busy_of_phase (hv.trans hp) (by simp))
    · exact .inr ⟨hv.trans hp, h0, fun hz' => by simp [hz] at hz'⟩
  have hbusy : u.phase = .payload → u.status = .busy := fun hp => busy_of_phase hp (by simp)
  cases he with
  | still hb => exact .inl ⟨rfl, hb⟩
  | fault c v w => exact .inr (.inl ⟨rfl, c.number_ne_zero⟩)
  | threadHeader a crc volume escape hp =>
    exact .inr (.inr ⟨busy_of_phase hp (by simp), rfl, hdone _ rfl⟩)
  | blockHeader a len n used k hp =>
    exact .inr (.inr ⟨busy_of_phase hp (by simp), rfl, .inl (busy_of_phase rfl (by simp))⟩)
  | raw hp => rw [rawBlock_eq]; exact .inr (.inr ⟨hbusy hp, rfl, .inl (busy_of_afterPayload (v := u) rfl)⟩)
  | engineStart hp =>
    rw [lzwStart_eq]; exact .inr (.inr ⟨hbusy hp, rfl, .inl (hbusy hp)⟩)
  | rleOnly hp => exact .inr (.inr ⟨hbusy hp, by simp, .inl (busy_of_phase (by simpa using hp) (by simp))⟩)
  | engineToBlock hp => exact .inr (.inr ⟨hbusy hp, rfl, .inl (busy_of_afterPayload rfl)⟩)
  | rleDone hp =>
    rw [rleEnd_eq]; exact .inr (.inr ⟨hbusy hp, rfl, .inl (busy_of_afterPayload (v := u) rfl)⟩)
  | crc hp => exact .inr (.inr ⟨busy_of_phase hp (by simp), rfl, .inl (busy_of_phase rfl (by simp))⟩)
  | emit hp => exact .inr (.inr ⟨busy_of_phase hp (by simp), rfl, hdone _ rfl⟩)
  | verified hp heq =>
    have hb := busy_of_phase hp (by simp)
    have h0 := ((phaseOk_verify hp).mp (h.running hb).phaseOk).1
    exact .inr (.inr ⟨hb, rfl, .inr ⟨rfl, h0, fun _ => heq⟩⟩)
  | firstLiteral c hp => exact .inr (.inr ⟨hbusy hp, rfl, .inl (hbusy hp)⟩)
  | clear c w hp => exact .inr (.inr ⟨hbusy hp, rfl, .inl (hbusy hp)⟩)
  | codeRun c w bytes d hp => exact .inr (.inr ⟨hbusy hp, rfl, .inl (hbusy hp)⟩)
  | engineToRle hp => exact .inr (.inr ⟨hbusy hp, rfl, .inl (hbusy hp)⟩)
  | token r bytes hp => exact .inr (.inr ⟨hbusy hp, rfl, .inl (hbusy hp)⟩)

/-! ### The table and the flags of a running thread -/

/-- A table just reset has no recorded code (R255). -/
theorem tableOk_first (h : s.entry.toNat = Config.firstCode) : TableOk s :=
  ⟨Nat.le_of_eq h.symm, by rw [h]; decide, fun c h1 h2 => by omega⟩

theorem TableOk.resetWithoutLzw (h : TableOk s) : TableOk s.resetWithoutLzw := by
  cases hv : s.variant with
  | lzw1 => rw [State.resetWithoutLzw_lzw1 _ hv]; exact h
  | lzw2 => rw [State.resetWithoutLzw_lzw2 _ hv]; exact tableOk_first rfl

theorem TableOk.lzwStart (h : TableOk s) : TableOk (lzwStart s) := by
  cases hv : s.variant with
  | lzw1 => rw [lzwStart_lzw1 hv]; exact tableOk_first rfl
  | lzw2 => rw [lzwStart_lzw2 hv]; exact h.congr rfl rfl rfl

/-- The main loop runs with `old` naming a string (R59 item 3, R163). -/
theorem Running.old_of_lzw (hr : Running u) (hp : u.phase = .payload) (hs : u.stage = .lzw) : OldOk u :=
  hr.old (.inr (.inr ⟨hp, hs⟩))

theorem Effect.table (hr : Running u) (he : Effect u t) (hb : t.status = .busy) : TableOk t := by
  have hT := hr.table
  cases he with
  | fault c v w => exact absurd hb (w.raised_not_busy c v)
  | raw => rw [rawBlock_eq]; exact hT.resetWithoutLzw.congr (by simp) (by simp) rfl
  | engineStart => exact hT.lzwStart
  | rleOnly => exact hT.resetWithoutLzw.congr rfl rfl rfl
  | clear => exact tableOk_first rfl
  | codeRun c w bytes d hp hs hw hfit hne hroom hcap =>
    have hT' : TableOk ((u.codeRead w).spelled bytes d) := hT.congr rfl rfl rfl
    exact hT'.recorded (hr.old_of_lzw hp hs) hcap c
  | rleDone => rw [rleEnd_eq]; exact hT.congr rfl rfl rfl
  | still => exact hT
  | _ => exact hT.congr rfl rfl rfl

/-- `sp = 0`, no CLR is under way, LZW/1 has no reset fix, and LZW/2 no CRC (R59, R33, R37, R38). -/
theorem Effect.flags (hr : Running u) (he : Effect u t) (hb : t.status = .busy) :
    t.sp.toNat = 0 ∧ t.needClear = false ∧ (t.variant = .lzw1 → t.resetFix = false) ∧
      (t.variant = .lzw2 → t.crcAcc = Config.crcInit) := by
  obtain ⟨-, hsp, hnc, hfix, -, hcrc, hph⟩ := hr
  have hreset : u.variant = .lzw1 → u.resetWithoutLzw.resetFix = false := by
    intro hv
    rw [State.resetWithoutLzw_lzw1 _ hv]
    exact hfix hv
  cases he with
  | fault c v w => exact absurd hb (w.raised_not_busy c v)
  | raw => rw [rawBlock_eq]; exact ⟨hsp, hnc, hreset, hcrc⟩
  | rleOnly => exact ⟨by simpa using hsp, by simpa using hnc, by simpa using hreset, by simpa using hcrc⟩
  | engineStart =>
    rw [lzwStart_eq]
    have hfix' : u.variant = .lzw1 → (lzwStart u).resetFix = false := fun hv =>
      (lzwStart_lzw1_resetFix hv).trans (hfix hv)
    exact ⟨rfl, hnc, hfix', hcrc⟩
  | clear c w hp hs hv => exact ⟨hsp, rfl, fun hv' => absurd (hv.symm.trans hv') (by decide), hcrc⟩
  | codeRun => exact ⟨rfl, hnc, hfix, hcrc⟩
  | rleDone => rw [rleEnd_eq]; exact ⟨hsp, hnc, hfix, hcrc⟩
  | crc hp =>
    obtain ⟨-, hv, -⟩ := (phaseOk_crc hp).mp hph
    exact ⟨hsp, hnc, hfix, fun hv' => absurd (hv.symm.trans hv') (by decide)⟩
  | _ => exact ⟨hsp, hnc, hfix, hcrc⟩

/-! ### `old` and `final` -/

/-- Outside the main loop the table and `resetFix` alone say whether a next code would pair `old` (R162). -/
theorem EngineLive.of_table (hl : EngineLive t) (he : t.entry = u.entry) (hf : t.resetFix = u.resetFix)
    (hs : t.phase = .payload → t.stage ≠ .lzw) : EngineLive u := by
  rcases hl with h | h | ⟨hp, h⟩
  · exact .inl (he ▸ h)
  · exact .inr (.inl (hf ▸ h))
  · exact absurd h (hs hp)

/-- A block without LZW leaves an engine that goes on only in LZW/1, where nothing was reset (R201). -/
theorem EngineLive.of_resetWithoutLzw (hl : EngineLive t) (he : t.entry = u.resetWithoutLzw.entry)
    (hf : t.resetFix = u.resetWithoutLzw.resetFix) (hs : t.phase = .payload → t.stage ≠ .lzw) :
    EngineLive u ∧ u.resetWithoutLzw = u := by
  cases hv : u.variant with
  | lzw1 =>
    have hsame := State.resetWithoutLzw_lzw1 _ hv
    rw [hsame] at he hf
    exact ⟨hl.of_table he hf hs, hsame⟩
  | lzw2 =>
    rw [State.resetWithoutLzw_lzw2 _ hv] at he hf
    rcases hl with h | h | ⟨hp, h⟩
    · exact absurd (he ▸ rfl) h
    · rw [hf] at h; cases h
    · exact absurd h (hs hp)

/-- An invocation goes on in the main loop only where the engine was live before it (R162). -/
theorem EngineLive.of_lzwStart (hfix : u.variant = .lzw1 → u.resetFix = false)
    (hl : EngineLive (Machine.lzwStart u)) : EngineLive u ∧ (Machine.lzwStart u).entry = u.entry := by
  cases hv : u.variant with
  | lzw1 =>
    rw [lzwStart_lzw1 hv] at hl
    rcases hl with h | h | ⟨-, h⟩
    · exact absurd rfl h
    · rw [show u.resetFix = true from h] at hfix
      exact absurd (hfix hv) (by decide)
    · cases h
  | lzw2 =>
    rw [lzwStart_lzw2 hv] at hl ⊢
    refine ⟨?_, rfl⟩
    rcases hl with h | h | ⟨-, h⟩
    · exact .inl h
    · cases h
    · by_cases hc : u.clearingEntry = true
      · simp [hc] at h
      · rw [clearingEntry_iff] at hc
        by_cases he : u.entry.toNat = Config.firstCode
        · exact .inr (.inl (by simpa [he] using hc))
        · exact .inl he

/-- Where `old`, `final` and the table stand after a move to a state whose next code would pair `old`. -/
inductive Paired (u t : State) : Prop where
  /-- They are as before, and the engine was live before. -/
  | kept (hl : EngineLive u) (hk : t.entry = u.entry ∧ t.old = u.old ∧ t.finalByte = u.finalByte ∧ t.tch = u.tch ∧
      t.tpr = u.tpr)
  /-- A first literal has been emitted (R164, R168). -/
  | literal (ho : t.old.toNat ≤ 255) (hf : t.finalByte = t.old.setWidth 8)
  /-- A code of the main loop has run (R165, R166, R172). -/
  | code (c : Code) (w : Nat) (bytes : List Byte) (d : Slots 8) (ho : OldOk u) (hcap : u.entry.toNat < Config.tableFull)
      (hstr : Known u c ∧ bytes = u.str c ∨ c.toNat = u.entry.toNat ∧ bytes = u.str u.old ++ [u.finalByte])
      (ht : t = ((u.codeRead w).spelled bytes d).recorded c)

theorem Effect.paired (hr : Running u) (he : Effect u t) (hb : t.status = .busy) (hl : EngineLive t) : Paired u t := by
  cases he with
  | still => exact .kept hl ⟨rfl, rfl, rfl, rfl, rfl⟩
  | fault c v w => exact absurd hb (w.raised_not_busy c v)
  | threadHeader =>
    exact .kept (hl.of_table rfl rfl fun hp => absurd hp (afterBlock_ne_payload u)) ⟨rfl, rfl, rfl, rfl, rfl⟩
  | blockHeader =>
    exact .kept (hl.of_table rfl rfl fun _ => nofun) ⟨rfl, rfl, rfl, rfl, rfl⟩
  | raw =>
    rw [rawBlock_eq] at hl ⊢
    obtain ⟨hlu, hsame⟩ := hl.of_resetWithoutLzw rfl rfl fun hp => absurd hp (afterPayload_ne_payload _)
    exact .kept hlu (by simp [hsame])
  | engineStart =>
    obtain ⟨hlu, hent⟩ := hl.of_lzwStart hr.lzw1Fix
    refine .kept hlu ⟨hent, ?_⟩
    rw [lzwStart_eq]; exact ⟨rfl, rfl, rfl, rfl⟩
  | rleOnly =>
    obtain ⟨hlu, hsame⟩ := hl.of_resetWithoutLzw rfl rfl fun _ => nofun
    exact .kept hlu (by simp [hsame])
  | firstLiteral c hp hs hc => exact .literal hc rfl
  | clear c w hp hs hv hc => exact .literal hc rfl
  | codeRun c w bytes d hp hs hw hfit hne hroom hcap hd hstr =>
    exact .code c w bytes d (hr.old_of_lzw hp hs) hcap hstr rfl
  | engineToRle hp hs => exact .kept (.inr (.inr ⟨hp, hs⟩)) ⟨rfl, rfl, rfl, rfl, rfl⟩
  | engineToBlock hp hs => exact .kept (.inr (.inr ⟨hp, hs⟩)) ⟨rfl, rfl, rfl, rfl, rfl⟩
  | token r bytes hp hs =>
    exact .kept (hl.of_table rfl rfl fun _ hs' => absurd (hs.symm.trans hs') (by decide)) ⟨rfl, rfl, rfl, rfl, rfl⟩
  | rleDone hp hs =>
    rw [rleEnd_eq] at hl ⊢
    exact .kept (hl.of_table rfl rfl fun hp => absurd hp (afterPayload_ne_payload u)) ⟨rfl, rfl, rfl, rfl, rfl⟩
  | crc => exact .kept (hl.of_table rfl rfl nofun) ⟨rfl, rfl, rfl, rfl, rfl⟩
  | emit =>
    exact .kept (hl.of_table rfl rfl fun hp => absurd hp (afterBlock_ne_payload _)) ⟨rfl, rfl, rfl, rfl, rfl⟩
  | verified => exact .kept (hl.of_table rfl rfl nofun) ⟨rfl, rfl, rfl, rfl, rfl⟩

/-- `old` names a string wherever a next code would pair it (R59 item 3). -/
theorem Effect.old (hr : Running u) (he : Effect u t) (hb : t.status = .busy) (hl : EngineLive t) : OldOk t := by
  have hT := he.table hr hb
  cases he.paired hr hb hl with
  | kept hlu hk =>
    obtain ⟨hent, hold, -⟩ := hk
    simpa only [OldOk, hent, hold] using hr.old hlu
  | literal ho hf => exact hT.known_lit ho
  | code c w bytes d ho hcap hstr ht =>
    subst ht
    have hnext : (u.entry + 1).toNat = u.entry.toNat + 1 := count_succ (Nat.lt_trans hcap (by decide))
    have hlow := hr.table.low
    simp only [OldOk, State.recorded_old, State.recorded_entry, State.spelled_entry]
    show c.toNat < (u.entry + 1).toNat ∧ c.toNat ≠ Config.clearCode
    rw [hnext]
    rcases hstr with ⟨⟨hlt, hne⟩, -⟩ | ⟨heq, -⟩
    · exact ⟨Nat.lt_succ_of_lt hlt, hne⟩
    · simp only [Config.firstCode, Config.clearCode] at hlow ⊢
      omega

/-! ### What each phase needs -/

theorem BlockOk.congr (h : BlockOk u) (h1 : t.rleLen = u.rleLen) (h2 : t.rleUsed = u.rleUsed)
    (h3 : t.writeLen = u.writeLen) (h4 : t.uncompRemaining = u.uncompRemaining) : BlockOk t :=
  ⟨h1 ▸ h.len, h1 ▸ h2 ▸ h.used, h3 ▸ h4 ▸ h.write, h4 ▸ h.left⟩

/-- A complete block goes to CRC or EMIT (R190). -/
theorem phaseOk_afterPayload (hp : t.phase = t.afterPayload) (hblk : BlockOk t) (hfill : Filled t.blk Config.block) :
    PhaseOk t := by
  rcases afterPayload_cases t with ⟨h, hv⟩ | ⟨h, -⟩
  · exact (phaseOk_crc (hp.trans h)).mpr ⟨hblk, hv, hfill⟩
  · exact (phaseOk_emit (hp.trans h)).mpr ⟨hblk, hfill⟩

/-- The block loop goes to BHDR, VERIFY or DONE (R190, R206). -/
theorem phaseOk_afterBlock (hp : t.phase = t.afterBlock) : PhaseOk t := by
  rcases afterBlock_cases t with ⟨h, h0⟩ | ⟨h, h0, hv⟩ | ⟨h, -⟩
  · exact (phaseOk_bhdr (hp.trans h)).mpr h0
  · exact (phaseOk_verify (hp.trans h)).mpr ⟨h0, hv⟩
  · simp only [PhaseOk, hp.trans h]

/-- A code or literal whose bytes went to `SCR` leaves the main loop in order (R78, R124). -/
theorem stageOk_emitted (hs : t.stage = .lzw) (hl : t.lzwUsed = true) {bytes : List Byte}
    (hfill : Filled u.scr u.outN.toNat) (hroom : u.outN.toNat + bytes.length ≤ u.rleLen.toNat)
    (hcap : u.rleLen.toNat ≤ Config.block) (hlen : t.rleLen = u.rleLen)
    (hscr : t.scr = slotPut u.scr u.outN.toNat bytes) (hout : t.outN = u.outN + BitVec.ofNat 13 bytes.length)
    (hres : ResidueOk t) (hip : t.blkIp0.toNat ≤ t.ip.toNat) : StageOk t := by
  simp only [Config.block] at hcap
  have hn : t.outN.toNat = u.outN.toNat + bytes.length := by rw [hout, count_add (by omega)]
  refine (stageOk_lzw hs).mpr ⟨hl, by rw [hn, hlen]; exact hroom, ?_, hres, hip⟩
  rw [hn, hscr]
  exact hfill.put bytes

theorem filled_zero {w : Nat} (l : Slots w) : Filled l 0 := fun i hi => absurd hi (Nat.not_lt_zero i)

/-- The start of an invocation meets what its stage needs (R161, R162). -/
theorem stageOk_lzwStart (hl : s.lzwUsed = true) : StageOk (lzwStart s) := by
  cases hv : s.variant with
  | lzw1 =>
    rw [lzwStart_lzw1 hv]
    exact (stageOk_lzw0 rfl).mpr ⟨hl, rfl, rfl, rfl, Nat.le_refl _⟩
  | lzw2 =>
    rw [lzwStart_lzw2 hv]
    by_cases hc : s.clearingEntry = true
    · exact (stageOk_lzw0 (if_pos hc)).mpr ⟨hl, rfl, ((clearingEntry_iff s).mp hc).1, rfl, Nat.le_refl _⟩
    · exact (stageOk_lzw (if_neg hc)).mpr
        ⟨hl, Nat.zero_le _, filled_zero _, fun hne => absurd rfl hne, Nat.le_refl _⟩

theorem filled_slotsOfFn {w : Nat} (n : Nat) (f : Nat → BitVec w) : Filled (slotsOfFn n f) n := by
  intro i hi
  rw [slotGet?_slotsOfFn, if_pos hi]
  rfl

/-- A block that needs no RLE is a whole one (R39, R196). -/
theorem BlockOk.rleLen_of_unused (h : BlockOk u) (hr : u.rleUsed = false) : u.rleLen.toNat = Config.block := by
  have := h.used
  rw [hr] at this
  simpa [rleUsedOf] using this.symm

theorem Effect.phaseOk (h : Inv u) (he : Effect u t) (hb : t.status = .busy) : PhaseOk t := by
  cases he with
  | still => exact (h.running hb).phaseOk
  | fault c v w => exact absurd hb (w.raised_not_busy c v)
  | threadHeader => exact phaseOk_afterBlock rfl
  | blockHeader a len n used k hp ha hl =>
    have hleft := (phaseOk_bhdr hp).mp (h.running (busy_of_phase hp (by simp))).phaseOk
    exact (phaseOk_payload rfl).mpr ⟨⟨hl, rfl, writeLenOf_toNat _, hleft⟩, stageOk_choose rfl⟩
  | raw hp =>
    obtain ⟨-, hblk, -⟩ := h.payload hp
    rw [rawBlock_eq]
    exact phaseOk_afterPayload rfl (hblk.congr rfl rfl rfl rfl) (by dsimp only; exact filled_slotsOfFn _ _)
  | engineStart hp hs hl =>
    obtain ⟨-, hblk, -⟩ := h.payload hp
    refine (phaseOk_payload ?_).mpr ⟨?_, stageOk_lzwStart hl⟩ <;> rw [lzwStart_eq]
    · exact hp
    · exact hblk.congr rfl rfl rfl rfl
  | rleOnly hp hs hl hr hfit =>
    obtain ⟨-, hblk, -⟩ := h.payload hp
    refine (phaseOk_payload (by simpa using hp)).mpr
      ⟨hblk.congr (by simp) (by simp) (by simp) (by simp), (stageOk_rle rfl).mpr ?_⟩
    exact ⟨by simpa using hr, Nat.zero_le _, Nat.zero_le _, filled_zero _, by simp [hl], by simpa using fun _ => hfit⟩
  | firstLiteral c hp hs hc ho hfit =>
    obtain ⟨-, hblk, hst⟩ := h.payload hp
    obtain ⟨-, hres, hip, -⟩ := codeRead_position (Nat.le_refl 9) (residueOk_lzw0 hs hst) hfit
    obtain ⟨hl, h0, -, -, hblk0⟩ := (stageOk_lzw0 hs).mp hst
    refine (phaseOk_payload (by exact hp)).mpr ⟨hblk.congr rfl rfl rfl rfl, ?_⟩
    exact stageOk_emitted (u := u) (bytes := [c.setWidth 8]) rfl hl (h0 ▸ filled_zero _) ho hblk.len rfl rfl rfl hres
      (Nat.le_trans hblk0 (Nat.le_of_lt hip))
  | clear c w hp hs hv hc hw ho hfit =>
    obtain ⟨-, hblk, hst⟩ := h.payload hp
    obtain ⟨hl, -, hfill, hres, hblk0⟩ := (stageOk_lzw hs).mp hst
    obtain ⟨hres', hip, -⟩ := codeRead_twice hw hres hfit
    refine (phaseOk_payload (by exact hp)).mpr ⟨hblk.congr rfl rfl rfl rfl, ?_⟩
    exact stageOk_emitted (u := u) (bytes := [c.setWidth 8]) hs hl hfill ho hblk.len rfl rfl rfl hres'
      (Nat.le_trans hblk0 hip)
  | codeRun c w bytes d hp hs hw hfit hne hroom =>
    obtain ⟨-, hblk, hst⟩ := h.payload hp
    obtain ⟨hl, -, hfill, hres, hblk0⟩ := (stageOk_lzw hs).mp hst
    obtain ⟨-, hres', hip, -⟩ := codeRead_position hw hres hfit
    refine (phaseOk_payload (by exact hp)).mpr ⟨hblk.congr rfl rfl rfl rfl, ?_⟩
    exact stageOk_emitted (u := u) hs hl hfill hroom hblk.len rfl rfl rfl hres'
      (Nat.le_trans hblk0 (Nat.le_of_lt hip))
  | engineToRle hp hs ho hr =>
    obtain ⟨-, hblk, hst⟩ := h.payload hp
    obtain ⟨hl, -, hfill, -, -⟩ := (stageOk_lzw hs).mp hst
    refine (phaseOk_payload (by exact hp)).mpr ⟨hblk.congr rfl rfl rfl rfl, (stageOk_rle rfl).mpr ?_⟩
    exact ⟨hr, Nat.zero_le _, Nat.zero_le _, filled_zero _, fun _ => ho ▸ hfill, fun hl' => by
      rw [show u.lzwUsed = false from hl'] at hl; cases hl⟩
  | engineToBlock hp hs ho hr =>
    obtain ⟨-, hblk, hst⟩ := h.payload hp
    obtain ⟨-, -, hfill, -, -⟩ := (stageOk_lzw hs).mp hst
    rw [ho, hblk.rleLen_of_unused hr] at hfill
    exact phaseOk_afterPayload rfl (hblk.congr rfl rfl rfl rfl) hfill
  | token r bytes hp hs hr hne hroom =>
    obtain ⟨-, hblk, hst⟩ := h.payload hp
    obtain ⟨hru, -, -, hfill, hscr, hspan⟩ := (stageOk_rle hs).mp hst
    have hcap := hroom
    simp only [Config.block] at hcap
    have hn : (u.rleOut + BitVec.ofNat 13 bytes.length).toNat = u.rleOut.toNat + bytes.length :=
      count_add (by omega)
    refine (phaseOk_payload (by exact hp)).mpr ⟨hblk.congr rfl rfl rfl rfl, (stageOk_rle (by exact hs)).mpr ?_⟩
    exact ⟨hru, hr.2, hn ▸ hroom, hn ▸ hfill.put bytes, hscr, hspan⟩
  | rleDone hp hs ho =>
    obtain ⟨-, hblk, hst⟩ := h.payload hp
    obtain ⟨-, -, -, hfill, -⟩ := (stageOk_rle hs).mp hst
    rw [rleEnd_eq]
    exact phaseOk_afterPayload rfl (hblk.congr rfl rfl rfl rfl) (ho ▸ hfill)
  | crc hp =>
    obtain ⟨hblk, -, hfill⟩ := (phaseOk_crc hp).mp (h.running (busy_of_phase hp (by simp))).phaseOk
    exact (phaseOk_emit rfl).mpr ⟨hblk.congr rfl rfl rfl rfl, hfill⟩
  | emit => exact phaseOk_afterBlock rfl
  | verified => simp only [PhaseOk]

/-! ### Every step -/

theorem Effect.running (h : Inv u) (he : Effect u t) (hu : u.status = .busy) (hb : t.status = .busy) : Running t := by
  have hr := h.running hu
  obtain ⟨hsp, hnc, hfix, hcrc⟩ := he.flags hr hb
  exact ⟨he.table hr hb, hsp, hnc, hfix, he.old hr hb, hcrc, he.phaseOk h hb⟩

/-- A fault has a cause, and nothing else has one (R46). -/
theorem cause_zero_of_busy (h : Inv u) (hb : u.status = .busy) : u.cause.toNat = 0 := by
  by_contra hne
  simp [State.status, h.cause.mpr hne] at hb

theorem busy_ne_fault (hb : t.status = .busy) : t.phase ≠ .fault := fun hp => by simp [State.status, hp] at hb
theorem busy_ne_done (hb : t.status = .busy) : t.phase ≠ .done := fun hp => by simp [State.status, hp] at hb

/-- A move of the machine keeps the invariant. -/
theorem Effect.inv (h : Inv u) (he : Effect u t) : Inv t := by
  obtain ⟨-, husize, hlen, hinput, hinputs⟩ := he.thread
  obtain ⟨htch, htpr, hstk, hscr, hblk⟩ := he.files h
  have hip : t.ip.toNat ≤ t.inLen.toNat := hlen ▸ (he.ip h).2
  have hout : t.out.length + t.uncompRemaining.toNat = t.usize.toNat :=
    (he.outLen h).trans (husize ▸ h.outLen)
  have hin : inputOk t.input t.inLen = true := by rw [hinput, hlen]; exact h.input
  have hcoming : ∀ a, HostEvent.start a ∈ t.inputs → inputOk a.input a.inLen = true := hinputs ▸ h.coming
  rcases he.ends h with ⟨rfl, -⟩ | ⟨hp, hc⟩ | ⟨hu, hc, hb | ⟨hp, hdone⟩⟩
  · exact h
  · exact ⟨hin, hcoming, hip, hout, htch, htpr, hstk, hscr, hblk, iff_of_true hp hc,
      fun hb => absurd hp (busy_ne_fault hb), fun hd => by simp [hp] at hd⟩
  · have h0 : t.cause.toNat = 0 := hc ▸ cause_zero_of_busy h hu
    exact ⟨hin, hcoming, hip, hout, htch, htpr, hstk, hscr, hblk,
      iff_of_false (busy_ne_fault hb) (not_not_intro h0), he.running h hu, fun hd => absurd hd (busy_ne_done hb)⟩
  · have h0 : t.cause.toNat = 0 := hc ▸ cause_zero_of_busy h hu
    exact ⟨hin, hcoming, hip, hout, htch, htpr, hstk, hscr, hblk,
      iff_of_false (by simp [hp]) (not_not_intro h0), fun hb => absurd hp (busy_ne_done hb), fun _ => hdone⟩

/-- After START a first literal is due before any code can be paired (R252, R162). -/
theorem start_not_live (a : StartArgs) (s : State) : ¬ EngineLive (start a s) := by
  simp [EngineLive, start, Config.firstCode]

theorem hardReset_not_busy (s : State) : (hardReset s).status ≠ .busy := by
  simp [hardReset, State.reset, State.status]

/-- START begins a thread in a state that meets the invariant (R252), whatever the state was. -/
theorem inv_start (a : StartArgs) (ha : inputOk a.input a.inLen = true)
    (hc : ∀ b, HostEvent.start b ∈ s.inputs → inputOk b.input b.inLen = true) : Inv (start a s) where
  input := ha
  coming := hc
  ip := Nat.zero_le _
  outLen := Nat.zero_add _
  tch := rfl
  tpr := rfl
  stk := rfl
  scr := rfl
  blk := rfl
  cause := by simp [start]
  running _ :=
    { table := tableOk_first rfl
      stackEmpty := rfl
      noClear := rfl
      lzw1Fix := fun _ => rfl
      old := fun hl => absurd hl (start_not_live a s)
      lzw2Crc := fun _ => rfl
      phaseOk := phaseOk_thdr rfl }
  done := by simp [start]

/-- Hardware reset meets the invariant (R250). -/
theorem inv_hardReset (hc : ∀ b, HostEvent.start b ∈ s.inputs → inputOk b.input b.inLen = true) :
    Inv (hardReset s) where
  input := rfl
  coming := hc
  ip := Nat.le_refl _
  outLen := rfl
  tch := rfl
  tpr := rfl
  stk := rfl
  scr := rfl
  blk := rfl
  cause := by simp [hardReset, State.reset]
  running hb := absurd hb (hardReset_not_busy s)
  done := by simp [hardReset, State.reset]

/-- What is still to come after the host's event is among what was to come. -/
theorem Inv.coming_rest (h : Inv s) {e : HostEvent} {rest : List HostEvent} (hs : s.inputs = e :: rest) :
    ∀ b, HostEvent.start b ∈ rest → inputOk b.input b.inLen = true :=
  fun b hb => h.coming b (hs ▸ List.mem_cons_of_mem e hb)

/-- A step that is left to the machine is a move. -/
theorem effect_of_step (h : Inv s) (hm : Moves s u) (hst : step s = .next t) : Effect u t := by
  obtain ⟨t', hst', he⟩ := step_effect (h.moves hm) hm
  rw [hst] at hst'
  cases hst'
  exact he

/-! ### `final` and the string of `old` -/

/-- The slots of a known code above the literals are written, so reading them depends on the table alone. -/
theorem TableOk.read_congr (h : TableOk s) {c : Code} (hc : Known s c) (hbig : 255 < c.toNat) (h1 : t.tch = s.tch)
    (h2 : t.tpr = s.tpr) : t.readTch (c.toNat - 256) = s.readTch (c.toNat - 256) ∧
      t.readTpr (c.toNat - 256) = s.readTpr (c.toNat - 256) := by
  obtain ⟨hlt, hne⟩ := hc
  simp only [Config.clearCode] at hne
  obtain ⟨b, p, hb, hp, -⟩ := h.slots c.toNat (by simp only [Config.firstCode]; omega) hlt
  simp only [State.readTch, State.readTpr, h1, h2, slotRead_of_get hb, slotRead_of_get hp, and_self]

/-- The string of a known code depends on the table alone, whatever free values unwritten slots have (R179). -/
theorem State.str_of_table (h : TableOk s) (h1 : t.tch = s.tch) (h2 : t.tpr = s.tpr) {c : Code} (hc : Known s c) :
    t.str c = s.str c := by
  unfold State.str
  generalize 4096 = n
  induction n generalizing c with
  | zero => rfl
  | succ n ih =>
    simp only [State.strFuel]
    split
    · rfl
    · next hb =>
      have hbig : 255 < c.toNat := Nat.lt_of_not_le hb
      obtain ⟨htch, htpr⟩ := h.read_congr hc hbig h1 h2
      rw [htch, htpr, ih (h.parent hc hbig).1]

/-- After a code of the main loop, `final` is the first byte of its string: of the string that was emitted (R172). -/
theorem strHead_codeRun (h : TableOk u) (ho : OldOk u) (hcap : u.entry.toNat < Config.tableFull) {c : Code} {w : Nat}
    {bytes : List Byte} {d : Slots 8}
    (hstr : Known u c ∧ bytes = u.str c ∨ c.toNat = u.entry.toNat ∧ bytes = u.str u.old ++ [u.finalByte]) :
    bytes.headD 0 = (((u.codeRead w).spelled bytes d).recorded c).strHead c := by
  have h' : TableOk ((u.codeRead w).spelled bytes d) := h.congr rfl rfl rfl
  have hsame : ∀ k, ((u.codeRead w).spelled bytes d).str k = u.str k := State.str_congr rfl rfl rfl
  unfold State.strHead
  rcases hstr with ⟨hk, rfl⟩ | ⟨hc, rfl⟩
  · rw [State.str_recorded h' ho hcap c hk, hsame]
  · obtain ⟨-, hnew⟩ := State.str_new h' ho hcap c hc
    have hold : ((u.codeRead w).spelled (u.str u.old ++ [u.finalByte]) d).old = u.old := rfl
    rw [hnew, hold, hsame, State.str_eq_cons h ho]
    rfl

theorem FinalOk.moves (h : FinalOk s) (hm : Moves s u) : FinalOk u := by
  obtain ⟨he, -⟩ := hm.eq
  generalize u.inputs = l at he
  subst he
  intro hb hl
  have hstr := State.str_congr (s := s) (t := { s with inputs := l }) rfl rfl rfl s.old
  rw [State.strHead, hstr]
  exact h hb hl

/-- A move of the machine keeps `final` the first byte of the string of `old` (R24, R172). -/
theorem Effect.finalOk (h : Inv u) (hf : FinalOk u) (he : Effect u t) : FinalOk t := by
  intro hb hl
  rcases he.ends h with ⟨rfl, -⟩ | ⟨hp, -⟩ | ⟨hu, -, -⟩
  · exact hf hb hl
  · exact absurd hp (busy_ne_fault hb)
  · have hr := h.running hu
    cases he.paired hr hb hl with
    | kept hlu hk =>
      obtain ⟨-, hold, hfinal, htch, htpr⟩ := hk
      rw [hfinal, hold, hf hu hlu, State.strHead, State.strHead, State.str_of_table hr.table htch htpr (hr.old hlu)]
    | literal ho hfinal => rw [hfinal, State.strHead_lit ho]
    | code c w bytes d ho hcap hstr ht =>
      subst ht
      exact strHead_codeRun hr.table ho hcap hstr

/-! ### The host's turn -/

/-- The host leaves the step to the machine with no event, or with a wait that is used up (R55, R190). -/
theorem moves_iff : Moves s u ↔
    (s.inputs = [] ∧ u = s) ∨ ∃ rest, s.inputs = .wait :: rest ∧ u = { s with inputs := rest } := by
  unfold Moves hostTurn
  cases hi : s.inputs with
  | nil => simp [eq_comm]
  | cons e rest =>
    cases e with
    | wait => simp [eq_comm]
    | start a => by_cases hb : s.status = .busy <;> simp [hb]
    | hardReset => simp

end Sys2Proof.Machine

open Sys2Proof Sys2Proof.Machine

/-- Settles O53: a move of the machine keeps the invariant (`Effect.inv`), and so do the host's two events. -/
theorem stepKeepsInv : Obligations.StepKeepsInv := by
  unfold Obligations.StepKeepsInv
  intro s t h hst
  rcases host_cases s with ⟨u, hm⟩ | ⟨a, rest, hs, ⟨-, hr⟩ | ⟨-, hr⟩⟩ | ⟨rest, hs, hr⟩
  · exact (effect_of_step h hm hst).inv (h.moves hm)
  · rw [hr] at hst; cases hst
  · rw [hr] at hst; cases hst
    exact inv_start a (h.coming a (hs ▸ List.mem_cons_self)) (h.coming_rest hs)
  · rw [hr] at hst; cases hst
    exact inv_hardReset (h.coming_rest hs)

/-- Settles O54: a move keeps it (`Effect.finalOk`), and the host's events leave no engine that would pair `old`. -/
theorem stepKeepsFinal : Obligations.StepKeepsFinal := by
  unfold Obligations.StepKeepsFinal
  intro s t h hf hst
  rcases host_cases s with ⟨u, hm⟩ | ⟨a, rest, hs, ⟨-, hr⟩ | ⟨-, hr⟩⟩ | ⟨rest, hs, hr⟩
  · exact (effect_of_step h hm hst).finalOk (h.moves hm) (hf.moves hm)
  · rw [hr] at hst; cases hst
  · rw [hr] at hst; cases hst
    exact fun _ hl => absurd hl (start_not_live a _)
  · rw [hr] at hst; cases hst
    exact fun hb => absurd hb (hardReset_not_busy _)

/-- Settles O51: `Effect.ip`. -/
theorem inputPositionRises : Obligations.InputPositionRises := by
  unfold Obligations.InputPositionRises
  intro s u t h hm hst
  have he := effect_of_step h hm hst
  obtain ⟨-, -, hlen, -⟩ := he.thread
  obtain ⟨h1, h2⟩ := he.ip (h.moves hm)
  exact ⟨h1, hlen ▸ h2⟩

/-- Settles O52: the reset state is what a hardware reset of it gives, so that `inv_hardReset` says it. -/
theorem resetMeetsInv : Obligations.ResetMeetsInv := by
  unfold Obligations.ResetMeetsInv
  exact inv_hardReset (s := State.reset) (fun b hb => by cases hb)

/-- Settles O6: the two cases of `moves_iff`. -/
theorem hostTurnLeavesTheStep : Obligations.HostTurnLeavesTheStep := by
  unfold Obligations.HostTurnLeavesTheStep
  exact ⟨fun _ h => moves_iff.mpr (.inl ⟨h, rfl⟩), fun _ rest h => moves_iff.mpr (.inr ⟨rest, h, rfl⟩)⟩

end

section
/-! PROOFS. What a step writes in each phase, in any state: the header phases' own registers, and those of PAYLOAD
(`payload_step`), CRC, EMIT and VERIFY. -/

namespace Sys2Proof.Machine

variable {s u t v : State} {i : Instr}

/-! ### What a header's fetch answers -/

theorem fixedLength_ok {avail n k : Nat} {j : Instr} (h : fixedLength avail n j = .ok i k) : i = j ∧ k = n := by
  unfold fixedLength at h
  split at h <;> cases h
  exact ⟨rfl, rfl⟩

/-- In THDR the decoder answers the variant's thread header (R91, R92). -/
theorem decode_thdr {x : Variant} {avail w k : Nat} (h : decode (.thdr x) avail w = .ok i k) :
    (x = .lzw1 ∧ ∃ crc volume escape, i = .thdr1 crc volume escape) ∨
    (x = .lzw2 ∧ ∃ volume escape, i = .thdr2 volume escape) := by
  cases x with
  | lzw1 => exact .inl ⟨rfl, _, _, _, (fixedLength_ok h).1⟩
  | lzw2 => exact .inr ⟨rfl, _, _, (fixedLength_ok h).1⟩

/-- Bit 15 of the low 16 bits of a number is its bit 15 (R94). -/
theorem flag_of_field (w : Nat) : (BitVec.ofNat 16 (field w 0 16)).getLsbD 15 = decide (field w 15 1 = 1) := by
  rw [bit15, field_div, field_div, BitVec.toNat_ofNat]
  congr 1
  apply propext
  omega

/-- In BHDR the decoder answers the variant's block header; in LZW/2 it has a length where its flag is set (R93, R94). -/
theorem decode_bhdr {x : Variant} {avail w k : Nat} (h : decode (.bhdr x) avail w = .ok i k) :
    (x = .lzw1 ∧ ∃ len flag, i = .bhdr1 len flag) ∨
    (x = .lzw2 ∧ ∃ word len, i = .bhdr2 word len ∧ (len = none → word.getLsbD 15 = false)) := by
  cases x with
  | lzw1 => exact .inl ⟨rfl, _, _, (fixedLength_ok h).1⟩
  | lzw2 =>
    refine .inr ⟨rfl, ?_⟩
    simp only [decode] at h
    split at h
    · cases h
    · split at h
      · exact ⟨_, _, (fixedLength_ok h).1, nofun⟩
      · next hflag =>
        cases h
        exact ⟨_, _, rfl, fun _ => by rw [flag_of_field]; simpa using hflag⟩

/-- A header that is run was decoded from the bytes at `ip`, and `ip` was moved past it. -/
theorem fetchHeader_run {c : Ctx} (h : fetchHeader c s = .run i v) :
    ∃ w n, decode c (8 * s.inputLeft) w = .ok i n ∧ v = s.advance (n / 8) := by
  unfold fetchHeader at h
  split at h
  · next hd => cases h; exact ⟨_, _, hd, rfl⟩
  · cases h
  · cases h

/-- A header that is not run has raised `InputUnderrun` (R191 to R194, R226). -/
theorem fetchHeader_settled {c : Ctx} (h : fetchHeader c s = .settled (.next t)) :
    t = (s.partialHeader c).raised .inputUnderrun (s.partialHeader c).inLen.toNat := by
  unfold fetchHeader at h
  split at h
  · cases h
  · cases h; rfl
  · cases h

/-! ### THDR and BHDR -/

/-- `t` is `u` but for the registers that a step in THDR may write. -/
def ThreadHeaderKept (u t : State) : Prop := t = { u with
  phase := t.phase, cause := t.cause, info := t.info, ip := t.ip
  hdrCrc := t.hdrCrc, volume := t.volume, escape := t.escape }

/-- `t` is `u` but for the registers that a step in BHDR may write. -/
def BlockHeaderKept (u t : State) : Prop := t = { u with
  phase := t.phase, stage := t.stage, cause := t.cause, info := t.info, ip := t.ip, rleLen := t.rleLen
  lzwUsed := t.lzwUsed, lzwLength := t.lzwLength, rleUsed := t.rleUsed, writeLen := t.writeLen
  freeCount := t.freeCount }

/-- A step in THDR (R191, R192): `hdr_crc` is written in LZW/1 alone. -/
theorem thdr_kept (hm : Moves s u) (hp : u.phase = .thdr) (hst : step s = .next t) :
    ThreadHeaderKept u t ∧ (u.variant = .lzw2 → t.hdrCrc = u.hdrCrc) := by
  rcases step_moves hm with ⟨i, v, hf, hx⟩ | ⟨o, hf, hx⟩ <;> rw [fetch_thdr hp] at hf <;> rw [hst] at hx
  · obtain ⟨w, n, hd, rfl⟩ := fetchHeader_run hf
    rcases decode_thdr hd with ⟨hv, crc, volume, escape, rfl⟩ | ⟨-, volume, escape, rfl⟩
    · cases hx
      exact ⟨rfl, fun hv' => absurd (hv.symm.trans hv') (by decide)⟩
    · cases hx
      exact ⟨rfl, fun _ => rfl⟩
  · subst hx
    obtain rfl := fetchHeader_settled hf
    cases u.variant with
    | lzw1 => exact ⟨rfl, nofun⟩
    | lzw2 => exact ⟨rfl, fun _ => rfl⟩

theorem checkRleLen_kept (h : (checkRleLen v).outcome = .next t) : BlockHeaderKept v t := by
  unfold checkRleLen at h
  split at h <;> cases h <;> rfl

theorem BlockHeaderKept.trans (h1 : BlockHeaderKept u v) (h2 : BlockHeaderKept v t) : BlockHeaderKept u t := by
  unfold BlockHeaderKept at *
  rw [h1] at h2
  exact h2

/-- A step in BHDR (R193, R194). -/
theorem bhdr_kept (hm : Moves s u) (hp : u.phase = .bhdr) (hst : step s = .next t) : BlockHeaderKept u t := by
  rcases step_moves hm with ⟨i, v, hf, hx⟩ | ⟨o, hf, hx⟩ <;> rw [fetch_bhdr hp] at hf <;> rw [hst] at hx
  · obtain ⟨w, n, hd, rfl⟩ := fetchHeader_run hf
    rcases decode_bhdr hd with ⟨-, len, flag, rfl⟩ | ⟨-, word, len, rfl, -⟩
    · simp only [exec, execBhdr1] at hx
      split at hx
      · cases hx; rfl
      · exact BlockHeaderKept.trans (v := State.lzwLengthUndef { u.advance (n / 8) with
          rleLen := len, lzwUsed := flag.toNat == 1 }) rfl (checkRleLen_kept hx.symm)
    · cases len with
      | none =>
        exact BlockHeaderKept.trans (v := State.lzwLengthUndef { u.advance (n / 8) with
          lzwUsed := word.getLsbD 15, rleLen := wordRleLen word }) rfl (checkRleLen_kept hx.symm)
      | some len =>
        exact BlockHeaderKept.trans (v := { u.advance (n / 8) with
          lzwUsed := word.getLsbD 15, rleLen := wordRleLen word, lzwLength := len }) rfl (checkRleLen_kept hx.symm)
  · subst hx
    obtain rfl := fetchHeader_settled hf
    cases u.variant <;> rfl

/-! ### VERIFY and the still phases -/

/-- IDLE, DONE and FAULT keep everything (R251, R208, R242). -/
theorem still_kept (hm : Moves s u) (hs : u.status ≠ .busy) (hst : step s = .next t) : t = u := by
  rw [step_settled hm (fetch_still hs)] at hst
  cases hst
  rfl

/-- A step in VERIFY ends the thread, and writes the phase and the fault registers alone (R207). -/
theorem verify_kept (hm : Moves s u) (hp : u.phase = .verify) (hst : step s = .next t) :
    t = { u with phase := t.phase, cause := t.cause, info := t.info } := by
  rw [step_run hm (fetch_verify hp)] at hst
  simp only [exec, execVerify] at hst
  split at hst <;> cases hst <;> rfl

end Sys2Proof.Machine

open Sys2Proof Sys2Proof.Machine

/-- Settles O50, by phase: what a step in that phase leaves as it was. -/
theorem wholeMachineFrame : Obligations.WholeMachineFrame := by
  unfold Obligations.WholeMachineFrame
  intro s u t hm hst
  rcases phase_cases u with hp | hp | hp | hp | hp | hp | hp | hp | hp
  · rw [still_kept hm (by simp [State.status, hp]) hst]
    simp
  · obtain ⟨hk, hcrc⟩ := thdr_kept hm hp hst
    rw [hk]
    simpa [hp, State.readIn] using hcrc
  · rw [bhdr_kept hm hp hst]
    simp [hp, State.readIn]
  · rw [(payload_step hm hp hst).1]
    simp [hp, State.readIn]
  · rw [step_run hm (fetch_crc hp)] at hst
    cases hst
    simp [hp, State.readIn]
  · rw [step_run hm (fetch_emit hp)] at hst
    cases hst
    simp [hp, State.readIn]
  · rw [verify_kept hm hp hst]
    simp [hp, State.readIn]
  · rw [still_kept hm (by simp [State.status, hp]) hst]
    simp
  · rw [still_kept hm (by simp [State.status, hp]) hst]
    simp

end

section
/-! PROOFS. The counter that free values depend on cannot be seen in a thread (R21, R258): every part of a step commutes
with changing it (`State.redraw`), where the slots the part reads have been written. The three places that draw a free
value are the start of an invocation and the block headers without `lzw_length`. -/

namespace Sys2Proof.Machine

variable {s u t v : State} {n : Nat}

/-! ### Changing the counter -/

/-- The state with another count of free values drawn. -/
def State.redraw (n : Nat) (s : State) : State := { s with freeCount := n }

/-- A part's result with another count. -/
def Res.redraw (n : Nat) : Res → Res
  | .ok s => .ok (s.redraw n)
  | .raised s => .raised (s.redraw n)
  | .fault f => .fault f
  | .refused r => .refused r

/-- A step's outcome with another count. -/
def redrawOutcome (n : Nat) : Host.Outcome State Fault Refusal → Host.Outcome State Fault Refusal
  | .next s => .next (s.redraw n)
  | .fault f => .fault f
  | .refused r => .refused r

/-- What is fetched, with another count. -/
def Fetched.redraw (n : Nat) : Fetched → Fetched
  | .run i s => .run i (s.redraw n)
  | .settled o => .settled (redrawOutcome n o)

/-- What a read answers beside the state it leaves, with another count in that state. -/
def redrawPair {α : Type} (n : Nat) (p : α × State) : α × State := (p.1, p.2.redraw n)

theorem Res.redraw_outcome (n : Nat) (r : Res) : (r.redraw n).outcome = redrawOutcome n r.outcome := by
  cases r <;> rfl

/-- A sequence commutes with the change where its parts do. -/
theorem Res.redraw_andThen (r : Res) {k : State → Res} (h : ∀ t, r = .ok t → k (t.redraw n) = (k t).redraw n) :
    (r.redraw n).andThen k = (r.andThen k).redraw n := by
  cases r with
  | ok t => exact h t rfl
  | raised t => rfl
  | fault f => rfl
  | refused f => rfl

/-! ### The bit reader -/

theorem fetch8_redraw (s : State) : fetch8 (s.redraw n) = (fetch8 s).map (redrawPair n) := by
  simp only [fetch8, apply_ite (Option.map (redrawPair n))]
  rfl

theorem firstSource_redraw (s : State) : firstSource (s.redraw n) = (firstSource s).map (redrawPair n) := by
  simp only [firstSource, apply_ite (Option.map (redrawPair n)), fetch8_redraw]
  rfl

theorem getcodeAt_redraw (w m : Nat) (s : State) : getcodeAt w m (s.redraw n) = (getcodeAt w m s).redraw n := by
  simp only [getcodeAt, firstSource_redraw]
  cases firstSource s with
  | none => rfl
  | some p0 =>
    simp only [Option.map_some, redrawPair, fetch8_redraw]
    cases fetch8 p0.2 with
    | none => rfl
    | some p1 =>
      simp only [Option.map_some, redrawPair, fetch8_redraw]
      show (if 16 < s.startBit.toNat + w then _ else _) = Res.redraw n (if 16 < s.startBit.toNat + w then _ else _)
      rw [apply_ite (Res.redraw n)]
      cases fetch8 p1.2 <;> rfl

theorem getcode_redraw (s : State) : getcode (s.redraw n) = (getcode s).redraw n := by
  have hentry : (s.redraw n).entry = s.entry := rfl
  rw [getcode, getcode, hentry]
  cases codeWidth s.entry with
  | none => rfl
  | some w =>
    cases codeMask s.entry with
    | none => rfl
    | some m => exact getcodeAt_redraw w m s

/-! ### Emission and recording -/

theorem push_redraw (b : Byte) (s : State) : push b (s.redraw n) = (push b s).map (State.redraw n) := by
  simp only [push, apply_ite (Option.map (State.redraw n))]
  rfl

theorem emitByte_redraw (b : Byte) (s : State) : emitByte b (s.redraw n) = (emitByte b s).redraw n := by
  simp only [emitByte, apply_ite (Res.redraw n)]
  rfl

theorem record_redraw (c : Code) (s : State) : record c (s.redraw n) = (record c s).redraw n := by
  simp only [record, apply_ite (Res.redraw n)]
  rfl

theorem emitByte_ok {b : Byte} (h : emitByte b s = .ok t) : t = s.emitted b := by
  rcases emitByte_cases b s with ⟨-, -, he⟩ | ⟨-, he⟩ | ⟨-, -, he⟩ <;> rw [he] at h <;> cases h
  rfl

/-- A slot that has been written is read as it is under every counter. -/
theorem slotRead_filled {w : Nat} {f : Config.SlotFile} {l : Slots w} {m i : Nat} (h : Filled l m) (hi : i < m)
    (a b : Nat) : slotRead f l i a = slotRead f l i b := by
  obtain ⟨x, hx⟩ := Option.isSome_iff_exists.mp (h i hi)
  rw [slotRead_of_get hx, slotRead_of_get hx]

/-- Draining reads the stack below `sp` alone (R49). -/
theorem drain_redraw (k : Nat) (h : Filled s.stk k) : drain k (s.redraw n) = (drain k s).redraw n := by
  induction k generalizing s with
  | zero => rfl
  | succ k ih =>
    have hread : (s.redraw n).readStk k = s.readStk k := slotRead_filled h (Nat.lt_succ_self k) _ _
    rw [drain, drain, hread]
    refine (congrArg (Res.andThen · (drain k))
      (emitByte_redraw (s.readStk k) { s with sp := BitVec.ofNat 13 k })).trans (Res.redraw_andThen _ fun t ht => ih ?_)
    rw [emitByte_ok ht]
    exact fun i hi => h i (Nat.lt_succ_of_lt hi)

/-- The walk of a known code reads recorded slots alone (R171, R59). -/
theorem walk_redraw {fuel : Nat} {c : Code} (hT : TableOk s) (hc : Known s c) :
    walk fuel c (s.redraw n) = (walk fuel c s).map (redrawPair n) := by
  induction fuel generalizing c s with
  | zero => rfl
  | succ fuel ih =>
    rw [walk, walk]
    split
    · rfl
    · next hb =>
      have hbig : 255 < c.toNat := Nat.lt_of_not_le hb
      obtain ⟨htch, htpr⟩ := hT.read_congr (t := s.redraw n) hc hbig rfl rfl
      rw [htch, htpr, push_redraw]
      cases hp : push (s.readTch (c.toNat - 256)) s with
      | none => rfl
      | some s' =>
        obtain ⟨-, rfl⟩ := push_some hp
        exact ih (hT.congr rfl rfl rfl) (hT.parent hc hbig).1

/-- The walk leaves the stack written below `sp` (R49). -/
theorem walk_filled {fuel : Nat} {c : Code} {b : Byte} (h : Filled s.stk s.sp.toNat)
    (hw : walk fuel c s = some (b, t)) : Filled t.stk t.sp.toNat := by
  induction fuel generalizing c s with
  | zero => cases hw
  | succ fuel ih =>
    rw [walk] at hw
    split at hw
    · cases hw; exact h
    · split at hw
      · cases hw
      · next s' hs =>
        obtain ⟨hsp, rfl⟩ := push_some hs
        refine ih ?_ hw
        rw [State.pushed_stk, State.pushed_sp, count_succ (Nat.lt_trans hsp (by decide))]
        exact h.set _

theorem emitString_redraw (b : Byte) (h : Filled s.stk s.sp.toNat) :
    emitString b (s.redraw n) = (emitString b s).redraw n := by
  unfold emitString
  refine (congrArg (Res.andThen · _) (emitByte_redraw b { s with finalByte := b })).trans
    (Res.redraw_andThen _ fun t ht => ?_)
  obtain rfl := emitByte_ok ht
  exact drain_redraw _ h

/-- `WalkEmit` of a known code reads what has been written (R171). -/
theorem walkEmit_redraw {c : Code} (hT : TableOk s) (hc : Known s c) (h : Filled s.stk s.sp.toNat) :
    walkEmit c (s.redraw n) = (walkEmit c s).redraw n := by
  rw [walkEmit, walkEmit, walk_redraw hT hc]
  cases hw : walk (Config.stackCap + 1) c s with
  | none => rfl
  | some p => exact emitString_redraw p.1 (walk_filled h hw)

/-! ### The operations of the engine -/

theorem firstLiteral_redraw (c : Code) (s : State) : firstLiteral c (s.redraw n) = (firstLiteral c s).redraw n := by
  simp only [firstLiteral, apply_ite (Res.redraw n)]
  congr 1
  exact emitByte_redraw _ { s with finalByte := c.setWidth 8, old := c }

theorem execLit0_redraw (c : Code) (s : State) : execLit0 c (s.redraw n) = redrawOutcome n (execLit0 c s) := by
  rw [execLit0, execLit0, firstLiteral_redraw, ← Res.redraw_outcome, Res.redraw_andThen _ fun _ _ => rfl]

theorem execClr_redraw (s : State) : execClr (s.redraw n) = redrawOutcome n (execClr s) := by
  have hget := getcode_redraw (n := n) { s.tableReset with needClear := true }
  have hlit : (getcode (State.redraw n { s.tableReset with needClear := true })).andThen
      (fun s' => firstLiteral s'.code s') = ((getcode { s.tableReset with needClear := true }).andThen
      (fun s' => firstLiteral s'.code s')).redraw n := by
    rw [hget]
    exact Res.redraw_andThen _ fun t _ => firstLiteral_redraw t.code t
  unfold execClr
  rw [← Res.redraw_outcome, ← Res.redraw_andThen _ fun _ _ => rfl, ← hlit]
  rfl

/-- Emission of a known code's string, and the recording after it. -/
theorem walkEmit_record_redraw {c : Code} (d : Code) (hT : TableOk s) (hc : Known s c)
    (h : Filled s.stk s.sp.toNat) :
    ((walkEmit c (s.redraw n)).andThen (record d)).outcome =
      redrawOutcome n ((walkEmit c s).andThen (record d)).outcome := by
  rw [walkEmit_redraw hT hc h, Res.redraw_andThen _ fun t _ => record_redraw d t, Res.redraw_outcome]

theorem execKwk_redraw (c : Code) (hT : TableOk s) (ho : OldOk s) (hsp : s.sp.toNat = 0) :
    execKwk c (s.redraw n) = redrawOutcome n (execKwk c s) := by
  have hlt : s.sp.toNat < Config.stackCap := by rw [hsp]; decide
  have hfill : Filled (s.pushed s.finalByte).stk (s.pushed s.finalByte).sp.toNat := by
    rw [State.pushed_stk, State.pushed_sp, count_succ (by omega), hsp]
    exact (filled_zero s.stk).set s.finalByte
  rw [execKwk, execKwk, push_room _ hlt, push_room _ (by exact hlt)]
  exact walkEmit_record_redraw (s := s.pushed s.finalByte) c (hT.congr rfl rfl rfl) ho hfill

/-- Every operation of the main loop commutes with the change, where the table is in order and the stack is empty. -/
theorem exec_classify_redraw (x : Variant) (c : Code) (hT : TableOk s) (ho : OldOk s) (hsp : s.sp.toNat = 0) :
    exec (classify x s.entry c) (s.redraw n) = redrawOutcome n (exec (classify x s.entry c) s) := by
  have hstk : Filled s.stk s.sp.toNat := hsp ▸ filled_zero s.stk
  unfold classify
  split
  · cases x with
    | lzw1 => rfl
    | lzw2 => exact execClr_redraw s
  · next hclear =>
    split
    · exact execKwk_redraw c hT ho hsp
    · split
      · rfl
      · next hne hnlt =>
        split
        · have hbyte : ((c.setWidth 8).setWidth 12 : Code).toNat ≤ 255 := by
            rw [code_byte]
            exact Nat.le_of_lt_succ (BitVec.isLt _)
          exact walkEmit_record_redraw _ hT (hT.known_lit hbyte) hstk
        · exact walkEmit_record_redraw c hT ⟨by omega, hclear⟩ hstk

/-- A code's fetch commutes with the change. -/
theorem fetchCode_redraw {op : State → Instr} (hop : ∀ t : State, op (t.redraw n) = op t) (s : State) :
    fetchCode op (s.redraw n) = (fetchCode op s).redraw n := by
  unfold fetchCode
  rw [getcode_redraw]
  cases getcode s with
  | ok t => exact congrArg (Fetched.run · (t.redraw n)) (hop t)
  | raised t => rfl
  | fault f => rfl
  | refused r => rfl

theorem engineEnd_redraw (s : State) : engineEnd (s.redraw n) = (engineEnd s).redraw n := by
  have hcheck : lengthCheck (s.redraw n) = (lengthCheck s).redraw n := by
    have hvar : (s.redraw n).variant = s.variant := rfl
    rw [lengthCheck, lengthCheck, hvar]
    cases s.variant with
    | lzw1 => rfl
    | lzw2 =>
      simp only [apply_ite (Res.redraw n)]
      rfl
  unfold engineEnd
  rw [hcheck]
  refine Res.redraw_andThen _ fun t _ => ?_
  rw [apply_ite (Res.redraw n)]
  rfl

/-! ### Blocks without LZW, headers, and the phases after PAYLOAD -/

theorem resetWithoutLzw_redraw (s : State) : (s.redraw n).resetWithoutLzw = s.resetWithoutLzw.redraw n := by
  cases hv : s.variant with
  | lzw1 => rw [State.resetWithoutLzw_lzw1 _ hv, State.resetWithoutLzw_lzw1 _ (by exact hv)]
  | lzw2 => rw [State.resetWithoutLzw_lzw2 _ hv, State.resetWithoutLzw_lzw2 _ (by exact hv)]; rfl

theorem rleOnlyStart_redraw (s : State) : rleOnlyStart (s.redraw n) = (rleOnlyStart s).redraw n := by
  unfold rleOnlyStart
  rw [resetWithoutLzw_redraw, apply_ite (Res.redraw n)]
  rfl

theorem rawCopy_redraw (s : State) : rawCopy (s.redraw n) = (rawCopy s).redraw n := by
  unfold rawCopy
  rw [apply_ite (Res.redraw n)]
  generalize Config.block = m
  rfl

theorem execRawblk_redraw (s : State) : execRawblk (s.redraw n) = redrawOutcome n (execRawblk s) := by
  rw [execRawblk, execRawblk, resetWithoutLzw_redraw, rawCopy_redraw, Res.redraw_outcome]

theorem partialHeader_redraw (c : Ctx) (s : State) : (s.redraw n).partialHeader c = (s.partialHeader c).redraw n := by
  unfold State.partialHeader
  dsimp only
  split <;> rfl

theorem fetchHeader_redraw (c : Ctx) (s : State) : fetchHeader c (s.redraw n) = (fetchHeader c s).redraw n := by
  have hbytes : leBytes (s.redraw n).readIn (s.redraw n).ip.toNat (min headerBytes (s.redraw n).inputLeft) =
      leBytes s.readIn s.ip.toNat (min headerBytes s.inputLeft) := rfl
  have hleft : (s.redraw n).inputLeft = s.inputLeft := rfl
  rw [fetchHeader, fetchHeader, hbytes, hleft, partialHeader_redraw]
  cases decode c (8 * s.inputLeft) (leBytes s.readIn s.ip.toNat (min headerBytes s.inputLeft)) <;> rfl

/-- The bytes of a number depend on the addresses it covers. -/
theorem leBytes_congr {f g : Nat → Byte} {a k : Nat} (h : ∀ j, a ≤ j → j < a + k → f j = g j) :
    leBytes f a k = leBytes g a k := by
  induction k generalizing a with
  | zero => rfl
  | succ k ih =>
    rw [leBytes, leBytes, h a (Nat.le_refl a) (by omega), ih fun j h1 h2 => h j (by omega) (by omega)]

/-- A token is read from the span, which has been written (R145). -/
theorem fetchToken_redraw (h : s.lzwUsed = true → Filled s.scr s.rleLen.toNat) :
    fetchToken (s.redraw n) = (fetchToken s).redraw n := by
  have hspan : ∀ j, s.rleIn.toNat ≤ j → j < s.rleIn.toNat + min tokenBytes s.spanLeft →
      (s.redraw n).spanByte j = s.spanByte j := by
    intro j h1 h2
    unfold State.spanByte
    show (if s.lzwUsed then (s.redraw n).readScr j else s.readIn (s.ip.toNat + j)) = _
    split
    · next hl =>
      simp only [State.spanLeft] at h2
      exact slotRead_filled (h hl) (by omega) _ _
    · rfl
  have hbytes : leBytes (s.redraw n).spanByte (s.redraw n).rleIn.toNat (min tokenBytes (s.redraw n).spanLeft) =
      leBytes s.spanByte s.rleIn.toNat (min tokenBytes s.spanLeft) := leBytes_congr hspan
  have hctx : (s.redraw n).escape = s.escape ∧ (s.redraw n).spanLeft = s.spanLeft := ⟨rfl, rfl⟩
  rw [fetchToken, fetchToken, hbytes, hctx.1, hctx.2, apply_ite (Fetched.redraw n)]
  congr 1
  cases decode (.rle s.escape) (8 * s.spanLeft)
      (leBytes s.spanByte s.rleIn.toNat (min tokenBytes s.spanLeft)) <;> rfl

/-- The first bytes of the block buffer are the same, where they have been written. -/
theorem blkBytes_redraw {k m : Nat} (h : Filled s.blk m) (hk : k ≤ m) : (s.redraw n).blkBytes k = s.blkBytes k :=
  List.map_congr_left fun _ hi => slotRead_filled h (Nat.lt_of_lt_of_le (List.mem_range.mp hi) hk) _ _

/-! ### Every step -/

theorem moves_redraw (hm : Moves s u) : Moves (s.redraw n) (u.redraw n) := by
  rcases moves_iff.mp hm with ⟨hi, rfl⟩ | ⟨rest, hi, rfl⟩
  · exact moves_iff.mpr (.inl ⟨hi, rfl⟩)
  · exact moves_iff.mpr (.inr ⟨rest, hi, rfl⟩)

/-- An invocation is not being started, which draws a free value for `last_byte` (R161, R162). -/
def NoEngineStart (u : State) : Prop := u.phase = .payload → u.stage = .choose → u.lzwUsed = false

theorem choosePath_redraw (hl : u.lzwUsed = false) : choosePath (u.redraw n) = (choosePath u).redraw n := by
  have hl' : (u.redraw n).lzwUsed = false := hl
  have hr : (u.redraw n).rleUsed = u.rleUsed := rfl
  rw [choosePath, choosePath, hl, hl', hr]
  cases u.rleUsed with
  | true =>
    exact congrArg Fetched.settled ((congrArg Res.outcome (rleOnlyStart_redraw u)).trans (Res.redraw_outcome n _))
  | false => rfl

/-- What is fetched next does not depend on the counter. -/
theorem fetch_redraw (h : Inv u) (hstart : NoEngineStart u) : fetch (u.redraw n) = (fetch u).redraw n := by
  have hstill : u.status ≠ .busy → fetch (u.redraw n) = (fetch u).redraw n := fun hs => by
    rw [fetch_still hs, fetch_still (by exact hs)]; rfl
  rcases phase_cases u with hp | hp | hp | hp | hp | hp | hp | hp | hp
  · exact hstill (by simp [State.status, hp])
  · rw [fetch_thdr hp, fetch_thdr (by exact hp)]
    exact fetchHeader_redraw _ u
  · rw [fetch_bhdr hp, fetch_bhdr (by exact hp)]
    exact fetchHeader_redraw _ u
  · obtain ⟨-, -, hst⟩ := h.payload hp
    rcases stage_cases u with hs | hs | hs | hs
    · rw [fetch_choose hp hs, fetch_choose (by exact hp) (by exact hs)]
      exact choosePath_redraw (hstart hp hs)
    · rw [fetch_lzw0 hp hs, fetch_lzw0 (by exact hp) (by exact hs)]
      exact fetchCode_redraw (fun _ => rfl) u
    · rw [fetch_lzw hp hs, fetch_lzw (by exact hp) (by exact hs), fetchCode_redraw (fun _ => rfl) u, engineEnd_redraw,
        Res.redraw_outcome, apply_ite (Fetched.redraw n)]
      rfl
    · obtain ⟨-, -, -, -, hscr, -⟩ := (stageOk_rle hs).mp hst
      rw [fetch_rle hp hs, fetch_rle (by exact hp) (by exact hs), fetchToken_redraw hscr, apply_ite (Fetched.redraw n)]
      congr 1
      simp only [Fetched.redraw, redrawOutcome, rleEnd]
      rw [apply_ite State.blockComplete, apply_ite State.blockComplete, apply_ite (State.redraw n)]
      rfl
  · rw [fetch_crc hp, fetch_crc (by exact hp)]; rfl
  · rw [fetch_emit hp, fetch_emit (by exact hp)]; rfl
  · rw [fetch_verify hp, fetch_verify (by exact hp)]; rfl
  · exact hstill (by simp [State.status, hp])
  · exact hstill (by simp [State.status, hp])

/-- A code operation that is run was chosen by the code that GETCODE read. -/
theorem fetchCode_run {op : State → Instr} {i : Instr} (h : fetchCode op s = .run i v) :
    getcode s = .ok v ∧ i = op v := by
  unfold fetchCode at h
  split at h <;> cases h
  next hg => exact ⟨hg, rfl⟩

/-- The RLE layer answers a literal or a run (R96, R97). -/
theorem decode_rle {i : Instr} {e : Byte} {avail w k : Nat} (h : decode (.rle e) avail w = .ok i k) :
    (∃ x, i = .rlit x) ∨ (∃ ch count, i = .rrun ch count) := by
  simp only [decode] at h
  split at h
  · cases h
  · split at h
    · exact .inr ⟨_, _, (fixedLength_ok h).1⟩
    · cases h
      exact .inl ⟨_, rfl⟩

theorem fetchToken_run {i : Instr} (h : fetchToken s = .run i v) :
    (∃ x, i = .rlit x) ∨ (∃ ch count, i = .rrun ch count) := by
  unfold fetchToken at h
  split at h
  · cases h
  · split at h
    · next hd =>
      cases h
      exact decode_rle hd
    · cases h
    · cases h

theorem execToken_redraw {i : Instr} (h : (∃ x, i = .rlit x) ∨ (∃ ch count, i = .rrun ch count)) (v : State) :
    exec i (v.redraw n) = redrawOutcome n (exec i v) := by
  rcases h with ⟨x, rfl⟩ | ⟨ch, count, rfl⟩
  · simp only [exec, execRlit, apply_ite (redrawOutcome n)]
    rfl
  · simp only [exec, execRrun, apply_ite (redrawOutcome n)]
    rfl

/-- The operation fetched does not depend on the counter, but for the block headers, which draw a free value. -/
theorem exec_redraw (h : Inv u) (hp : u.phase ≠ .bhdr) {i : Instr} (hf : fetch u = .run i v) :
    exec i (v.redraw n) = redrawOutcome n (exec i v) := by
  have hstill : u.status ≠ .busy → exec i (v.redraw n) = redrawOutcome n (exec i v) := fun hs => by
    rw [fetch_still hs] at hf; cases hf
  rcases phase_cases u with hp' | hp' | hp' | hp' | hp' | hp' | hp' | hp' | hp'
  · exact hstill (by simp [State.status, hp'])
  · rw [fetch_thdr hp'] at hf
    obtain ⟨w, k, hd, -⟩ := fetchHeader_run hf
    rcases decode_thdr hd with ⟨-, crc, volume, escape, rfl⟩ | ⟨-, volume, escape, rfl⟩ <;> rfl
  · exact absurd hp' hp
  · obtain ⟨hr, hblk, hst⟩ := h.payload hp'
    rcases stage_cases u with hs | hs | hs | hs
    · rw [fetch_choose hp' hs, choosePath] at hf
      split at hf
      · cases hf
      · split at hf <;> cases hf
        exact execRawblk_redraw u
    · rw [fetch_lzw0 hp' hs] at hf
      obtain ⟨-, rfl⟩ := fetchCode_run hf
      exact execLit0_redraw _ v
    · rw [fetch_lzw hp' hs] at hf
      split at hf
      · obtain ⟨hg, rfl⟩ := fetchCode_run hf
        obtain ⟨a, b, c, d, rfl⟩ := (getcode_frame u).1 v hg
        exact exec_classify_redraw _ _ (hr.table.congr rfl rfl rfl) (hr.old_of_lzw hp' hs) hr.stackEmpty
      · cases hf
    · rw [fetch_rle hp' hs] at hf
      split at hf
      · exact execToken_redraw (fetchToken_run hf) v
      · cases hf
  · rw [fetch_crc hp'] at hf
    cases hf
    obtain ⟨-, -, hfill⟩ := (phaseOk_crc hp').mp (h.running (busy_of_phase hp' (by simp))).phaseOk
    have hbytes : (u.redraw n).blkBytes Config.block = u.blkBytes Config.block := blkBytes_redraw hfill (Nat.le_refl _)
    simp only [exec, execCrcblk, hbytes]
    generalize u.blkBytes Config.block = bytes
    rfl
  · rw [fetch_emit hp'] at hf
    cases hf
    obtain ⟨hblk, hfill⟩ := (phaseOk_emit hp').mp (h.running (busy_of_phase hp' (by simp))).phaseOk
    have hle : u.writeLen.toNat ≤ Config.block := hblk.write ▸ Nat.min_le_left _ _
    have hbytes : (u.redraw n).blkBytes (u.redraw n).writeLen.toNat = u.blkBytes u.writeLen.toNat :=
      blkBytes_redraw hfill hle
    simp only [exec, execEmitblk, hbytes]
    rfl
  · rw [fetch_verify hp'] at hf
    cases hf
    simp only [exec, execVerify, apply_ite (redrawOutcome n)]
    rfl
  · exact hstill (by simp [State.status, hp'])
  · exact hstill (by simp [State.status, hp'])

/-- A step that draws no free value commutes with the change. -/
theorem step_redraw (h : Inv u) (hm : Moves s u) (hp : u.phase ≠ .bhdr) (hstart : NoEngineStart u) :
    step (s.redraw n) = redrawOutcome n (step s) := by
  have hf := fetch_redraw (n := n) h hstart
  rcases step_moves hm with ⟨i, v, hfu, hst⟩ | ⟨o, hfu, hst⟩ <;> rw [hfu] at hf
  · rw [step_run (moves_redraw hm) hf, hst, exec_redraw h hp hfu]
  · rw [step_settled (moves_redraw hm) hf, hst]

/-! ### The steps that draw a free value -/

/-- The start of an invocation makes `last_byte` undef, and leaves `start_bit` zero (R161, R162). -/
theorem lzwStart_redraw (s : State) :
    lzwStart (s.redraw n) = { lzwStart s with freeCount := n + 1, lastByte := (lzwStart (s.redraw n)).lastByte } := by
  cases hv : s.variant with
  | lzw1 => rw [lzwStart_lzw1 hv, lzwStart_lzw1 (by exact hv)]; rfl
  | lzw2 => rw [lzwStart_lzw2 hv, lzwStart_lzw2 (by exact hv)]; rfl

/-- The check of a block header's length does not read `lzw_length` or the counter (R195). -/
theorem checkRleLen_congr (m : Nat) (len : BitVec 16) (h : (checkRleLen s).outcome = .next t) :
    (checkRleLen { s with freeCount := m, lzwLength := len }).outcome =
      .next { t with freeCount := m, lzwLength := len } := by
  unfold checkRleLen at *
  by_cases hl : Config.block < s.rleLen.toNat
  · rw [if_pos hl] at h
    rw [if_pos (by exact hl)]
    cases h
    rfl
  · rw [if_neg hl] at h
    rw [if_neg (by exact hl)]
    cases h
    rfl

theorem checkRleLen_kind (h : (checkRleLen s).outcome = .next t) :
    t.lzwUsed = s.lzwUsed ∧ t.variant = s.variant ∧ t.lzwLength = s.lzwLength := by
  unfold checkRleLen at h
  split at h <;> cases h <;> exact ⟨rfl, rfl, rfl⟩

/-- BHDR1 makes `lzw_length` undef, after its flag has passed (R193). -/
theorem execBhdr1_redraw {len : BitVec 16} {flag : Byte} (h : execBhdr1 len flag s = .next t) :
    ∃ m l, execBhdr1 len flag (s.redraw n) = .next { t with freeCount := m, lzwLength := l } ∧
      t.variant = s.variant := by
  unfold execBhdr1 at *
  by_cases hbad : 1 < flag.toNat
  · rw [if_pos hbad] at h ⊢
    cases h
    exact ⟨n, s.lzwLength, rfl, rfl⟩
  · rw [if_neg hbad] at h ⊢
    have hstep := checkRleLen_congr (n + 1) (Config.undefReg 16 .lzwLength n) h
    exact ⟨n + 1, _, hstep, (checkRleLen_kind h).2.1⟩

/-- BHDR2 makes `lzw_length` undef where the block has no LZW (R194). -/
theorem execBhdr2_redraw {word : BitVec 16} {o : Option (BitVec 16)} (ho : o = none → word.getLsbD 15 = false)
    (h : execBhdr2 word o s = .next t) :
    ∃ m l, execBhdr2 word o (s.redraw n) = .next { t with freeCount := m, lzwLength := l } ∧
      (t.lzwUsed = true → l = t.lzwLength) := by
  unfold execBhdr2 at *
  obtain ⟨hused, -, hlen⟩ := checkRleLen_kind h
  cases o with
  | none =>
    have hstep := checkRleLen_congr (n + 1) (Config.undefReg 16 .lzwLength n) h
    refine ⟨n + 1, _, hstep, fun hl => ?_⟩
    rw [hused] at hl
    exact absurd ((ho rfl).symm.trans hl) (by decide)
  | some len =>
    have hstep := checkRleLen_congr n len h
    exact ⟨n, len, hstep, fun _ => hlen.symm⟩

/-- A block header makes `lzw_length` undef where the block has no LZW, and in LZW/1 (R193, R194). -/
theorem bhdr_redraw (h : Inv u) (hm : Moves s u) (hp : u.phase = .bhdr) (hst : step s = .next t) :
    ∃ m len, step (s.redraw n) = .next { t with freeCount := m, lzwLength := len } ∧
      (t.lzwUsed = true → t.variant = .lzw2 → len = t.lzwLength) := by
  have hf := fetch_redraw (n := n) h fun hp' => by rw [hp] at hp'; cases hp'
  rcases step_moves hm with ⟨i, v, hfu, hx⟩ | ⟨o, hfu, hx⟩ <;> rw [hfu] at hf <;> rw [hst] at hx
  · rw [step_run (moves_redraw hm) hf]
    rw [fetch_bhdr hp] at hfu
    obtain ⟨w, k, hd, rfl⟩ := fetchHeader_run hfu
    rcases decode_bhdr hd with ⟨hv, len, flag, rfl⟩ | ⟨-, word, len, rfl, hnone⟩
    · obtain ⟨m, l, hstep, hvar⟩ := execBhdr1_redraw (n := n) hx.symm
      exact ⟨m, l, hstep, fun _ hv2 => absurd (hv.symm.trans (hvar.symm.trans hv2)) (by decide)⟩
    · obtain ⟨m, l, hstep, hl⟩ := execBhdr2_redraw (n := n) hnone hx.symm
      exact ⟨m, l, hstep, fun hused _ => hl hused⟩
  · rw [step_settled (moves_redraw hm) hf, ← hx]
    exact ⟨n, t.lzwLength, rfl, fun _ _ => rfl⟩

end Sys2Proof.Machine

open Sys2Proof Sys2Proof.Machine

/-- Settles O60: the steps that draw no free value commute with the change (`step_redraw`); the others write it to
the register they make undef. -/
theorem unwrittenSlotsAreNeverRead : Obligations.UnwrittenSlotsAreNeverRead := by
  unfold Obligations.UnwrittenSlotsAreNeverRead
  intro s u t n h hm hst
  have hu := h.moves hm
  by_cases hp : u.phase = .bhdr
  · obtain ⟨m, len, hstep, hlen⟩ := bhdr_redraw (n := n) hu hm hp hst
    exact ⟨m, t.lastByte, len, hstep, fun _ => rfl, fun _ _ => hlen⟩
  by_cases hstart : NoEngineStart u
  · have hstep := step_redraw (n := n) hu hm hp hstart
    rw [hst] at hstep
    exact ⟨n, t.lastByte, t.lzwLength, hstep, fun _ => rfl, fun _ _ _ _ => rfl⟩
  · simp only [NoEngineStart, not_forall, Bool.not_eq_false] at hstart
    obtain ⟨hpay, hs, hl⟩ := hstart
    rw [step_settled hm (by rw [fetch_choose hpay hs, choosePath, if_pos hl])] at hst
    cases hst
    refine ⟨n + 1, (lzwStart (u.redraw n)).lastByte, (lzwStart u).lzwLength, ?_, fun hne => absurd ?_ hne,
      fun _ _ _ _ => rfl⟩
    · exact (step_settled (moves_redraw hm) (by
        rw [fetch_choose (by exact hpay) (by exact hs), choosePath, if_pos (by exact hl)])).trans
        (congrArg Host.Outcome.next (lzwStart_redraw u))
    · rw [lzwStart_eq]

end

section
/-! PROOFS. The encoding (R91 to R97, R105): the fields that the decoder reads are the parts that the encoder put
together, at every position, and a code of the main loop is the one its class encodes. -/

namespace Sys2Proof.Machine

/-! ### Fields and concatenation -/

theorem field_zero (w n : Nat) : field w 0 n = w % 2 ^ n := by simp [field]

theorem field_lt (w lo n : Nat) : field w lo n < 2 ^ n := Nat.mod_lt _ (Nat.two_pow_pos n)

/-- A field fits the word of its width. -/
@[simp] theorem toNat_field (w lo n : Nat) : (BitVec.ofNat n (field w lo n)).toNat = field w lo n :=
  Nat.mod_eq_of_lt (field_lt w lo n)

/-- Two neighbouring fields, put together, are one field. -/
theorem above_field (w lo n m : Nat) : above (field w lo n) n (field w (lo + n) m) = field w lo (n + m) := by
  rw [above, field_div, field_div, field_div, Nat.pow_add, Nat.pow_add, ← Nat.div_div_eq_div_mul, Nat.mod_mul]

theorem above_assoc (a n b m r : Nat) : above (above a n b) (n + m) r = above a n (above b m r) := by
  simp only [above, Nat.pow_add]; ring

/-- The low part of a concatenation. -/
theorem field_above_low {a n : Nat} (ha : a < 2 ^ n) (b : Nat) : field (above a n b) 0 n = a := by
  rw [field_zero, above, Nat.add_mul_mod_self_left, Nat.mod_eq_of_lt ha]

/-- A field of the high part of a concatenation. -/
theorem field_above_high {a n : Nat} (ha : a < 2 ^ n) (b lo m : Nat) :
    field (above a n b) (n + lo) m = field b lo m := by
  rw [field_div, field_div, Nat.pow_add, ← Nat.div_div_eq_div_mul, above, Nat.add_mul_div_left _ _ (Nat.two_pow_pos n),
    Nat.div_eq_of_lt ha, Nat.zero_add]

/-- A word is read back from below any other bits. -/
theorem ofNat_field_above_low {n : Nat} (x : BitVec n) (b : Nat) :
    BitVec.ofNat n (field (above x.toNat n b) 0 n) = x := by
  rw [field_above_low x.isLt, BitVec.ofNat_toNat, BitVec.setWidth_eq]

/-! ### The decoder's answers -/

theorem fixedLength_ok_iff {avail n k : Nat} {i j : Instr} :
    fixedLength avail n j = .ok i k ↔ n ≤ avail ∧ i = j ∧ k = n := by
  unfold fixedLength
  split
  · exact ⟨nofun, fun h => by omega⟩
  · simp only [Decoded.ok.injEq]
    constructor
    · rintro ⟨rfl, rfl⟩; exact ⟨by omega, rfl, rfl⟩
    · rintro ⟨-, rfl, rfl⟩; exact ⟨rfl, rfl⟩

theorem fixedLength_of_le {avail n : Nat} (h : n ≤ avail) (i : Instr) : fixedLength avail n i = .ok i n :=
  fixedLength_ok_iff.mpr ⟨h, rfl, rfl⟩

/-! ### Codes of the main loop -/

/-- R112's table of the code widths. -/
def tableWidth (entry : Count) : Nat :=
  if entry.toNat ≤ 0x01FE then 9
  else if entry.toNat ≤ 0x03FE then 10
  else if entry.toNat ≤ 0x07FE then 11
  else 12

theorem entryInRange_iff {entry : Count} : entryInRange entry = true ↔
    Config.firstCode ≤ entry.toNat ∧ entry.toNat ≤ Config.tableFull := by
  simp [entryInRange]

theorem clearCode_lt_entry {entry : Count} (h : entryInRange entry = true) : 0x0100 < entry.toNat :=
  (entryInRange_iff.mp h).1

/-- The index rule of R121 selects the width of R112. -/
theorem codeWidth_eq {entry : Count} (h : entryInRange entry = true) : codeWidth entry = some (tableWidth entry) := by
  obtain ⟨h1, h2⟩ := entryInRange_iff.mp h
  obtain ⟨h3, h4⟩ := widthIndex_range h1 h2
  have hk : widthIndex entry = (entry.toNat + 1) / 256 := by rw [widthIndex, Nat.shiftRight_eq_div_pow]
  rw [codeWidth, if_neg (by omega), tableWidth]
  generalize widthIndex entry = k at *
  interval_cases k <;> exact congrArg some (by split_ifs <;> omega)

/-- The values that fit are those below `2` to the width of R112. -/
theorem fitsWidth_iff {entry : Count} {value : Nat} : fitsWidth entry value = true ↔ value < 2 ^ tableWidth entry := by
  unfold fitsWidth tableWidth
  split_ifs <;> simp

/-! The class of each code (R105). The conditions exclude each other. -/

theorem classify_clr {v : Variant} (hv : v = .lzw2) (entry : Count) {code : Code} (h : code.toNat = Config.clearCode) :
    classify v entry code = .clr := by
  unfold classify
  rw [if_pos h, hv]

theorem classify_rsv {v : Variant} (hv : v = .lzw1) (entry : Count) {code : Code} (h : code.toNat = Config.clearCode) :
    classify v entry code = .rsv := by
  unfold classify
  rw [if_pos h, hv]

theorem classify_kwk (v : Variant) {entry : Count} {code : Code} (hr : entryInRange entry = true)
    (h : code.toNat = entry.toNat) : classify v entry code = .kwk code := by
  have := clearCode_lt_entry hr
  unfold classify
  rw [if_neg (by simp only [Config.clearCode]; omega), if_pos h]

theorem classify_bad (v : Variant) {entry : Count} {code : Code} (hr : entryInRange entry = true)
    (h : entry.toNat < code.toNat) : classify v entry code = .bad code := by
  have := clearCode_lt_entry hr
  unfold classify
  rw [if_neg (by simp only [Config.clearCode]; omega), if_neg (by omega), if_pos h]

theorem classify_lit (v : Variant) {entry : Count} {code : Code} (hr : entryInRange entry = true)
    (h : code.toNat ≤ 0x00FF) : classify v entry code = .lit (code.setWidth 8) := by
  have := clearCode_lt_entry hr
  unfold classify
  rw [if_neg (by simp only [Config.clearCode]; omega), if_neg (by omega), if_neg (by omega), if_pos h]

theorem classify_ref (v : Variant) {entry : Count} {code : Code} (h1 : Config.firstCode ≤ code.toNat)
    (h2 : code.toNat < entry.toNat) : classify v entry code = .ref code := by
  simp only [Config.firstCode] at h1
  unfold classify
  rw [if_neg (by simp only [Config.clearCode]; omega), if_neg (by omega), if_neg (by omega), if_neg (by omega)]

/-- Every code is one of these (R107). -/
theorem code_cases (entry : Count) (code : Code) :
    code.toNat = Config.clearCode ∨ code.toNat = entry.toNat ∨ entry.toNat < code.toNat ∨ code.toNat ≤ 0x00FF ∨
      (Config.firstCode ≤ code.toNat ∧ code.toNat < entry.toNat) := by
  simp only [Config.clearCode, Config.firstCode]
  omega

/-- What a code of the right width is classified as can stand in the main loop (R99, R105). -/
theorem wellFormed_classify (v : Variant) {entry : Count} {code : Code} (hr : entryInRange entry = true)
    (hf : fitsWidth entry code.toNat = true) : wellFormed (.code v entry) (classify v entry code) = true := by
  rcases code_cases entry code with h | h | h | h | ⟨h1, h2⟩
  · cases v with
    | lzw1 => simp [classify_rsv rfl entry h, wellFormed, inMainLoop, hr]
    | lzw2 => simp [classify_clr rfl entry h, wellFormed, inMainLoop, hr]
  · rw [classify_kwk v hr h]
    simp [wellFormed, inMainLoop, hr, h]
  · rw [classify_bad v hr h]
    simp [wellFormed, inMainLoop, hr, h, hf]
  · rw [classify_lit v hr h]
    simp [wellFormed, inMainLoop, hr]
  · rw [classify_ref v h1 h2]
    simp [wellFormed, inMainLoop, hr, h1, h2]

/-- The encoding of a class is the code that was classified. -/
theorem encode_classify (v : Variant) {entry : Count} (code : Code) (hr : entryInRange entry = true) :
    encode (.code v entry) (classify v entry code) = (tableWidth entry, code.toNat) := by
  have key : encodeCode (.code v entry) code.toNat = (tableWidth entry, code.toNat) := by
    rw [encodeCode, codeWidth_eq hr, Option.getD_some]
  rcases code_cases entry code with h | h | h | h | ⟨h1, h2⟩
  · rw [← key, h]
    cases v with
    | lzw1 => rw [classify_rsv rfl entry h]; rfl
    | lzw2 => rw [classify_clr rfl entry h]; rfl
  · rw [classify_kwk v hr h, ← key]; rfl
  · rw [classify_bad v hr h, ← key]; rfl
  · rw [classify_lit v hr h, ← key, encode, BitVec.toNat_setWidth, Nat.mod_eq_of_lt (by omega)]
  · rw [classify_ref v h1 h2, ← key]; rfl

/-- What can stand in the main loop is the class of a code that fits the width (R99, R105, R127). -/
theorem exists_code_of_wellFormed {v : Variant} {entry : Count} {i : Instr} (h : wellFormed (.code v entry) i = true) :
    entryInRange entry = true ∧ ∃ code : Code, fitsWidth entry code.toNat = true ∧ i = classify v entry code := by
  cases i with
  | clr =>
    obtain ⟨hr, hv⟩ : entryInRange entry = true ∧ v = .lzw2 := by simpa [wellFormed, inMainLoop] using h
    exact ⟨hr, 0x100, Laws.fitsWidth_small (by decide), (classify_clr hv entry rfl).symm⟩
  | rsv =>
    obtain ⟨hr, hv⟩ : entryInRange entry = true ∧ v = .lzw1 := by simpa [wellFormed, inMainLoop] using h
    exact ⟨hr, 0x100, Laws.fitsWidth_small (by decide), (classify_rsv hv entry rfl).symm⟩
  | kwk code =>
    obtain ⟨hr, he⟩ : entryInRange entry = true ∧ code.toNat = entry.toNat := by
      simpa [wellFormed, inMainLoop] using h
    exact ⟨hr, code, Laws.fitsWidth_entry (by omega), (classify_kwk v hr he).symm⟩
  | bad code =>
    obtain ⟨hr, he, hf⟩ : entryInRange entry = true ∧ entry.toNat < code.toNat ∧ fitsWidth entry code.toNat = true := by
      simpa [wellFormed, inMainLoop] using h
    exact ⟨hr, code, hf, (classify_bad v hr he).symm⟩
  | lit byte =>
    have hr : entryInRange entry = true := by simpa [wellFormed, inMainLoop] using h
    have hb : (byte.setWidth 12).toNat < 256 := by rw [code_byte]; exact byte.isLt
    exact ⟨hr, byte.setWidth 12, Laws.fitsWidth_small (by omega), by rw [classify_lit v hr (by omega), byte_of_code]⟩
  | ref code =>
    obtain ⟨hr, h1, h2⟩ : entryInRange entry = true ∧ Config.firstCode ≤ code.toNat ∧ code.toNat < entry.toNat := by
      simpa [wellFormed, inMainLoop] using h
    exact ⟨hr, code, Laws.fitsWidth_entry (by omega), (classify_ref v h1 h2).symm⟩
  | _ => simp [wellFormed] at h

theorem tableWidth_le (entry : Count) : tableWidth entry ≤ 12 := by
  unfold tableWidth
  split_ifs <;> omega

/-- The number of a field of at most twelve bits, as a code. -/
theorem toNat_codeField (w lo : Nat) {n : Nat} (hn : n ≤ 12) : (BitVec.ofNat 12 (field w lo n)).toNat = field w lo n :=
  Nat.mod_eq_of_lt (Nat.lt_of_lt_of_le (field_lt w lo n) (Nat.pow_le_pow_right (by decide) hn))

/-- In the main loop the decoder answers the class of the next code, at the width of R112. -/
theorem decode_code (v : Variant) {entry : Count} (hr : entryInRange entry = true) (avail w : Nat) :
    decode (.code v entry) avail w = fixedLength avail (tableWidth entry)
      (classify v entry (BitVec.ofNat 12 (field w 0 (tableWidth entry)))) := by
  simp only [decode, codeWidth_eq hr]

/-! ### Headers -/

/-- The LZW/2 block header in terms of its word (R94, R101). -/
theorem decode_bhdr_lzw2 (avail w : Nat) : decode (.bhdr .lzw2) avail w =
    if avail < 16 then .short
    else if (BitVec.ofNat 16 (field w 0 16)).getLsbD 15 = true then
      fixedLength avail 32 (.bhdr2 (.ofNat 16 (field w 0 16)) (some (.ofNat 16 (field w 16 16))))
    else .ok (.bhdr2 (.ofNat 16 (field w 0 16)) none) 16 := by
  simp only [decode, flag_of_field, decide_eq_true_eq]

/-! ### Encode of decode -/

/-- What was read is well formed at its position, lies within the bits there, and its encoding is the bits read. -/
def ReadBack (c : Ctx) (avail w : Nat) (i : Instr) (n : Nat) : Prop :=
  wellFormed c i = true ∧ n ≤ avail ∧ encode c i = (n, w % 2 ^ n)

variable {avail w n : Nat} {i : Instr}

theorem readBack_thdr {v : Variant} (h : decode (.thdr v) avail w = .ok i n) : ReadBack (.thdr v) avail w i n := by
  cases v with
  | lzw1 =>
    obtain ⟨hn, rfl, rfl⟩ := fixedLength_ok_iff.mp h
    refine ⟨rfl, hn, ?_⟩
    rw [encode, toNat_field, toNat_field, toNat_field, above_field w 16 8 8, above_field w 0 16 16, field_zero]
  | lzw2 =>
    obtain ⟨hn, rfl, rfl⟩ := fixedLength_ok_iff.mp h
    refine ⟨rfl, hn, ?_⟩
    rw [encode, toNat_field, toNat_field, above_field w 0 8 8, field_zero]

theorem readBack_bhdr {v : Variant} (h : decode (.bhdr v) avail w = .ok i n) : ReadBack (.bhdr v) avail w i n := by
  cases v with
  | lzw1 =>
    obtain ⟨hn, rfl, rfl⟩ := fixedLength_ok_iff.mp h
    refine ⟨rfl, hn, ?_⟩
    rw [encode, toNat_field, toNat_field, above_field w 0 16 8, field_zero]
  | lzw2 =>
    rw [decode_bhdr_lzw2] at h
    split at h
    · cases h
    · next hlen =>
      split at h
      · next hflag =>
        obtain ⟨hn, rfl, rfl⟩ := fixedLength_ok_iff.mp h
        refine ⟨by simp [wellFormed, hflag], hn, ?_⟩
        rw [encode, toNat_field, toNat_field, above_field w 0 16 16, field_zero]
      · next hflag =>
        cases h
        refine ⟨by rw [wellFormed, Bool.eq_false_of_not_eq_true hflag]; rfl, by omega, ?_⟩
        rw [encode, toNat_field, field_zero]

theorem readBack_first (h : decode .first avail w = .ok i n) : ReadBack .first avail w i n := by
  obtain ⟨hn, rfl, rfl⟩ := fixedLength_ok_iff.mp h
  have hc := toNat_codeField w 0 (n := 9) (by decide)
  refine ⟨?_, hn, ?_⟩
  · rw [wellFormed, hc]
    exact decide_eq_true (field_lt w 0 9)
  · rw [encode, hc, field_zero]

theorem readBack_code {v : Variant} {entry : Count} (hr : entryInRange entry = true)
    (h : decode (.code v entry) avail w = .ok i n) : ReadBack (.code v entry) avail w i n := by
  rw [decode_code v hr] at h
  obtain ⟨hn, rfl, rfl⟩ := fixedLength_ok_iff.mp h
  have hc := toNat_codeField w 0 (tableWidth_le entry)
  refine ⟨wellFormed_classify v hr (fitsWidth_iff.mpr ?_), hn, ?_⟩
  · rw [hc]; exact field_lt w 0 _
  · rw [encode_classify v _ hr, hc, field_zero]

theorem readBack_rle {escape : Byte} (h : decode (.rle escape) avail w = .ok i n) :
    ReadBack (.rle escape) avail w i n := by
  simp only [decode] at h
  split at h
  · cases h
  · next hlen =>
    split at h
    · next hesc =>
      obtain ⟨hn, rfl, rfl⟩ := fixedLength_ok_iff.mp h
      refine ⟨rfl, hn, ?_⟩
      rw [encode, ← hesc, toNat_field, toNat_field, toNat_field, above_field w 8 8 8, above_field w 0 8 16, field_zero]
    · next hesc =>
      cases h
      refine ⟨by simp [wellFormed, hesc], by omega, ?_⟩
      rw [encode, toNat_field, field_zero]

/-- At a position whose operation has no bits of its own (R105) there is nothing to read. -/
theorem readBack_bitless {c : Ctx} {j : Instr} (hw : wellFormed c j = true) (he : encode c j = (0, 0))
    (h : Decoded.ok j 0 = .ok i n) : ReadBack c avail w i n := by
  cases h
  exact ⟨hw, Nat.zero_le _, by rw [he, Nat.pow_zero, Nat.mod_one]⟩

/-! ### Decode of encode -/

/-- The decoder reads the operation back from its encoding with any bits above it. -/
def EncodesBack (c : Ctx) (i : Instr) : Prop :=
  ∀ avail rest, (encode c i).1 ≤ avail →
    decode c avail (above (encode c i).2 (encode c i).1 rest) = .ok i (encode c i).1

theorem encodesBack_thdr1 (crc : BitVec 16) (volume escape : Byte) :
    EncodesBack (.thdr .lzw1) (.thdr1 crc volume escape) := by
  intro avail rest h
  simp only [encode] at h ⊢
  rw [above_assoc _ 16 _ 16, above_assoc _ 8 _ 8, decode, fixedLength_of_le h, ofNat_field_above_low,
    field_above_high crc.isLt _ 0, ofNat_field_above_low, field_above_high crc.isLt _ 8,
    field_above_high volume.isLt _ 0, ofNat_field_above_low]

theorem encodesBack_thdr2 (volume escape : Byte) : EncodesBack (.thdr .lzw2) (.thdr2 volume escape) := by
  intro avail rest h
  simp only [encode] at h ⊢
  rw [above_assoc _ 8 _ 8, decode, fixedLength_of_le h, ofNat_field_above_low, field_above_high volume.isLt _ 0,
    ofNat_field_above_low]

theorem encodesBack_bhdr1 (rleLen : BitVec 16) (flag : Byte) : EncodesBack (.bhdr .lzw1) (.bhdr1 rleLen flag) := by
  intro avail rest h
  simp only [encode] at h ⊢
  rw [above_assoc _ 16 _ 8, decode, fixedLength_of_le h, ofNat_field_above_low, field_above_high rleLen.isLt _ 0,
    ofNat_field_above_low]

/-- The second field of BHDR2 is there exactly where bit 15 of its word is set (R94, R112). -/
theorem encodesBack_bhdr2 {word : BitVec 16} {len : Option (BitVec 16)} (hflag : len.isSome = word.getLsbD 15) :
    EncodesBack (.bhdr .lzw2) (.bhdr2 word len) := by
  intro avail rest h
  cases len with
  | none =>
    simp only [encode] at h ⊢
    rw [decode_bhdr_lzw2, ofNat_field_above_low, if_neg (by omega), if_neg (by rw [← hflag]; decide)]
  | some n =>
    simp only [encode] at h ⊢
    rw [above_assoc _ 16 _ 16, decode_bhdr_lzw2, ofNat_field_above_low, if_neg (by omega),
      if_pos (by rw [← hflag]; rfl), fixedLength_of_le h, field_above_high word.isLt _ 0, ofNat_field_above_low]

theorem encodesBack_lit0 {code : Code} (hc : code.toNat < 0x200) : EncodesBack .first (.lit0 code) := by
  intro avail rest h
  simp only [encode] at h ⊢
  rw [decode, fixedLength_of_le h, field_above_low hc, BitVec.ofNat_toNat, BitVec.setWidth_eq]

theorem encodesBack_rlit {u escape : Byte} (hu : u ≠ escape) : EncodesBack (.rle escape) (.rlit u) := by
  intro avail rest h
  simp only [encode] at h ⊢
  rw [decode, ofNat_field_above_low, if_neg (by omega), if_neg hu]

theorem encodesBack_rrun (escape ch count : Byte) : EncodesBack (.rle escape) (.rrun ch count) := by
  intro avail rest h
  simp only [encode] at h ⊢
  rw [above_assoc _ 8 _ 16, above_assoc _ 8 _ 8, decode, ofNat_field_above_low, if_neg (by omega), if_pos rfl,
    fixedLength_of_le h, field_above_high escape.isLt _ 0, ofNat_field_above_low, field_above_high escape.isLt _ 8,
    field_above_high ch.isLt _ 0, ofNat_field_above_low]

/-- An operation without bits of its own is read without looking at the stream (R105). -/
theorem encodesBack_bitless {c : Ctx} (he : encode c i = (0, 0)) (hd : ∀ avail w, decode c avail w = .ok i 0) :
    EncodesBack c i := by
  intro avail rest _
  rw [he, hd]

theorem encodesBack_code {v : Variant} {entry : Count} (h : wellFormed (.code v entry) i = true) :
    EncodesBack (.code v entry) i := by
  obtain ⟨hr, code, hf, rfl⟩ := exists_code_of_wellFormed h
  intro avail rest hlen
  rw [encode_classify v code hr] at hlen ⊢
  rw [decode_code v hr, fixedLength_of_le hlen, field_above_low (fitsWidth_iff.mp hf), BitVec.ofNat_toNat,
    BitVec.setWidth_eq]

theorem inMainLoop_code {p : Variant → Count → Bool} {c : Ctx} (h : inMainLoop p c = true) :
    ∃ v entry, c = .code v entry := by
  cases c with
  | code v entry => exact ⟨v, entry, rfl⟩
  | _ => simp [inMainLoop] at h

theorem encodesBack_mainLoop {p : Variant → Count → Bool} {c : Ctx} (hp : inMainLoop p c = true)
    (h : wellFormed c i = true) : EncodesBack c i := by
  obtain ⟨v, entry, rfl⟩ := inMainLoop_code hp
  exact encodesBack_code h

end Sys2Proof.Machine

open Sys2Proof Sys2Proof.Machine

/-- Settles O2, operation by operation. -/
theorem decodeOfEncode : Obligations.DecodeOfEncode := by
  unfold Obligations.DecodeOfEncode
  intro c i rest avail h
  suffices hb : EncodesBack c i from hb avail rest
  cases i with
  | thdr1 crc volume escape => obtain rfl := eq_of_beq h; exact encodesBack_thdr1 crc volume escape
  | thdr2 volume escape => obtain rfl := eq_of_beq h; exact encodesBack_thdr2 volume escape
  | bhdr1 rleLen flag => obtain rfl := eq_of_beq h; exact encodesBack_bhdr1 rleLen flag
  | bhdr2 word len =>
    obtain ⟨rfl, hflag⟩ : c = .bhdr .lzw2 ∧ len.isSome = word.getLsbD 15 := by simpa [wellFormed] using h
    exact encodesBack_bhdr2 hflag
  | rawblk => obtain rfl := eq_of_beq h; exact encodesBack_bitless rfl fun _ _ => rfl
  | lit0 code =>
    obtain ⟨rfl, hc⟩ : c = .first ∧ code.toNat < 0x200 := by simpa [wellFormed] using h
    exact encodesBack_lit0 hc
  | clr | rsv | kwk code | bad code | lit byte | ref code => exact encodesBack_mainLoop h h
  | rlit u =>
    cases c with
    | rle escape => exact encodesBack_rlit (by simpa [wellFormed] using h)
    | _ => simp [wellFormed] at h
  | rrun ch count =>
    cases c with
    | rle escape => exact encodesBack_rrun escape ch count
    | _ => simp [wellFormed] at h
  | getcode | crcbyte b => simp [wellFormed] at h
  | crcblk => obtain rfl := eq_of_beq h; exact encodesBack_bitless rfl fun _ _ => rfl
  | emitblk => obtain rfl := eq_of_beq h; exact encodesBack_bitless rfl fun _ _ => rfl
  | verify => obtain rfl := eq_of_beq h; exact encodesBack_bitless rfl fun _ _ => rfl

/-- Settles O3, position by position. -/
theorem encodeOfDecode : Obligations.EncodeOfDecode := by
  unfold Obligations.EncodeOfDecode
  intro c avail w i n hr h
  cases c with
  | thdr v => exact readBack_thdr h
  | bhdr v => exact readBack_bhdr h
  | first => exact readBack_first h
  | code v entry => exact readBack_code (hr v entry rfl) h
  | rle escape => exact readBack_rle h
  | raw => exact readBack_bitless rfl rfl h
  | crc => exact readBack_bitless rfl rfl h
  | emit => exact readBack_bitless rfl rfl h
  | verify => exact readBack_bitless rfl rfl h

/-- Settles O1, by running the decoder. -/
theorem specWordsDecode : Obligations.SpecWordsDecode := by
  unfold Obligations.SpecWordsDecode
  decide

/-- Settles O5: the lemmas about `classify`, one for each class. -/
theorem codeClasses : Obligations.CodeClasses := by
  unfold Obligations.CodeClasses
  intro v entry code h1 h2
  have hr : entryInRange entry = true := entryInRange_iff.mpr ⟨h1, h2⟩
  exact ⟨fun hv hc => classify_clr hv entry (by rw [hc]; rfl), fun hv hc => classify_rsv hv entry (by rw [hc]; rfl),
    classify_lit v hr, classify_ref v, classify_kwk v hr, classify_bad v hr⟩

end

section
/-! PROOFS. The step runs what the decoder reads (R105, R190): the headers from the bytes at `ip` (R91 to R94, R60), and
the operations without bits of their own. -/

namespace Sys2Proof.Machine

variable {s u : State} {i : Instr} {n : Nat}

/-! ### The header that is due -/

/-- The header that is due at a position, read from the bytes at `ip`. -/
def State.decodeHeader (u : State) (c : Ctx) : Decoded :=
  decode c (8 * u.inputLeft) (leBytes u.readIn u.ip.toNat (min headerBytes u.inputLeft))

/-- The position of the header that is due (R105, R190). -/
def HeaderDue (u : State) (c : Ctx) : Prop :=
  u.phase = .thdr ∧ c = .thdr u.variant ∨ u.phase = .bhdr ∧ c = .bhdr u.variant

theorem fetch_header {c : Ctx} (hc : HeaderDue u c) : fetch u = fetchHeader c u := by
  obtain ⟨hp, rfl⟩ | ⟨hp, rfl⟩ := hc
  · exact fetch_thdr hp
  · exact fetch_bhdr hp

/-- Where a header is due, the step runs the one that is decoded, with `ip` past it (R35). -/
theorem step_header {c : Ctx} (hm : Moves s u) (hc : HeaderDue u c) (hd : u.decodeHeader c = .ok i n) :
    step s = exec i (u.advance (n / 8)) := by
  refine step_run hm ?_
  rw [State.decodeHeader] at hd
  rw [fetch_header hc, fetchHeader, hd]

/-! ### The fields of a header -/

/-- An 8-bit field at a byte's place is that byte (R60, R61). -/
theorem ofNat_field_leBytes (f : Nat → Byte) (a : Nat) {k m : Nat} (hk : k < m) :
    BitVec.ofNat 8 (field (leBytes f a m) (8 * k) 8) = f (a + k) := by
  apply BitVec.eq_of_getLsbD_eq
  intro j hj
  rw [BitVec.getLsbD_ofNat, field_testBit, leBytes_testBit, show (8 * k + j) / 8 = k by omega,
    show (8 * k + j) % 8 = j by omega]
  simp [hj, show 8 * k + j < 8 * m by omega]

/-- A 16-bit field at a byte's place is that byte and the next one above it (R60, R100). -/
theorem ofNat_field_in16 (u : State) (a : Nat) {k m : Nat} (hk : k + 1 < m) :
    BitVec.ofNat 16 (field (leBytes u.readIn a m) (8 * k) 16) = u.in16 (a + k) := by
  apply BitVec.eq_of_toNat_eq
  rw [toNat_field, State.in16_toNat, ← ofNat_field_leBytes u.readIn a (show k < m by omega),
    Nat.add_assoc, ← ofNat_field_leBytes u.readIn a hk, toNat_field, toNat_field, Nat.mul_add,
    ← above_field _ (8 * k) 8 8]
  rfl

/-- Where `IN` holds `k` bytes at `ip`, the decoder is given them. -/
theorem header_bytes {k : Nat} (hk : k ≤ headerBytes) (h : u.ip.toNat + k ≤ u.inLen.toNat) :
    8 * k ≤ 8 * u.inputLeft ∧ k ≤ min headerBytes u.inputLeft := by
  simp only [State.inputLeft]
  omega

/-- THDR1 (R91). -/
theorem decodeHeader_thdr1 (h : u.ip.toNat + 4 ≤ u.inLen.toNat) : u.decodeHeader (.thdr .lzw1) =
    .ok (.thdr1 (u.in16 u.ip.toNat) (u.readIn (u.ip.toNat + 2)) (u.readIn (u.ip.toNat + 3))) 32 := by
  obtain ⟨hlen, hm⟩ := header_bytes (k := 4) (by decide) h
  rw [State.decodeHeader, decode, fixedLength_of_le hlen, ofNat_field_in16 u _ (k := 0) (by omega),
    ofNat_field_leBytes _ _ (k := 2) (by omega), ofNat_field_leBytes _ _ (k := 3) (by omega), Nat.add_zero]

/-- THDR2 (R92). -/
theorem decodeHeader_thdr2 (h : u.ip.toNat + 2 ≤ u.inLen.toNat) : u.decodeHeader (.thdr .lzw2) =
    .ok (.thdr2 (u.readIn u.ip.toNat) (u.readIn (u.ip.toNat + 1))) 16 := by
  obtain ⟨hlen, hm⟩ := header_bytes (k := 2) (by decide) h
  rw [State.decodeHeader, decode, fixedLength_of_le hlen, ofNat_field_leBytes _ _ (k := 0) (by omega),
    ofNat_field_leBytes _ _ (k := 1) (by omega), Nat.add_zero]

/-- BHDR1 (R93). -/
theorem decodeHeader_bhdr1 (h : u.ip.toNat + 3 ≤ u.inLen.toNat) : u.decodeHeader (.bhdr .lzw1) =
    .ok (.bhdr1 (u.in16 u.ip.toNat) (u.readIn (u.ip.toNat + 2))) 24 := by
  obtain ⟨hlen, hm⟩ := header_bytes (k := 3) (by decide) h
  rw [State.decodeHeader, decode, fixedLength_of_le hlen, ofNat_field_in16 u _ (k := 0) (by omega),
    ofNat_field_leBytes _ _ (k := 2) (by omega), Nat.add_zero]

/-- BHDR2 with bit 15 of its word clear (R94). -/
theorem decodeHeader_bhdr2_short (h : u.ip.toNat + 2 ≤ u.inLen.toNat) (hbit : (u.in16 u.ip.toNat).getLsbD 15 = false) :
    u.decodeHeader (.bhdr .lzw2) = .ok (.bhdr2 (u.in16 u.ip.toNat) none) 16 := by
  obtain ⟨hlen, hm⟩ := header_bytes (k := 2) (by decide) h
  rw [State.decodeHeader, decode_bhdr_lzw2, if_neg (by omega), ofNat_field_in16 u _ (k := 0) (by omega), Nat.add_zero,
    if_neg (by rw [hbit]; decide)]

/-- BHDR2 with bit 15 of its word set (R94). -/
theorem decodeHeader_bhdr2_long (h : u.ip.toNat + 4 ≤ u.inLen.toNat) (hbit : (u.in16 u.ip.toNat).getLsbD 15 = true) :
    u.decodeHeader (.bhdr .lzw2) = .ok (.bhdr2 (u.in16 u.ip.toNat) (some (u.in16 (u.ip.toNat + 2)))) 32 := by
  obtain ⟨hlen, hm⟩ := header_bytes (k := 4) (by decide) h
  rw [State.decodeHeader, decode_bhdr_lzw2, if_neg (by omega), ofNat_field_in16 u _ (k := 0) (by omega), Nat.add_zero,
    if_pos hbit, fixedLength_of_le hlen, ofNat_field_in16 u _ (k := 2) (by omega)]

end Sys2Proof.Machine

open Sys2Proof Sys2Proof.Machine

/-- Settles O7: `step_header`. -/
theorem stepRunsHeader : Obligations.StepRunsHeader := by
  unfold Obligations.StepRunsHeader
  exact fun s u c i n hm hc hd => step_header hm hc hd

/-- Settles O12: `step_header` with the fields that `decodeHeader` reads. -/
theorem headerFields : Obligations.HeaderFields := by
  unfold Obligations.HeaderFields
  intro s u hm
  have thread {v : Variant} (hp : u.phase = .thdr) (hv : u.variant = v) : HeaderDue u (.thdr v) := .inl ⟨hp, by rw [hv]⟩
  have block {v : Variant} (hp : u.phase = .bhdr) (hv : u.variant = v) : HeaderDue u (.bhdr v) := .inr ⟨hp, by rw [hv]⟩
  exact ⟨fun hp hv h => step_header hm (thread hp hv) (decodeHeader_thdr1 h),
    fun hp hv h => step_header hm (thread hp hv) (decodeHeader_thdr2 h),
    fun hp hv h => step_header hm (block hp hv) (decodeHeader_bhdr1 h),
    fun hp hv h hbit => step_header hm (block hp hv) (decodeHeader_bhdr2_short h hbit),
    fun hp hv h hbit => step_header hm (block hp hv) (decodeHeader_bhdr2_long h hbit)⟩

/-- Settles O10: what is fetched where an operation has no bits of its own. -/
theorem stepRunsInternal : Obligations.StepRunsInternal := by
  unfold Obligations.StepRunsInternal
  intro s u hm
  refine ⟨fun hp hs hl hr => step_run hm ?_, fun hp => step_run hm (fetch_crc hp),
    fun hp => step_run hm (fetch_emit hp), fun hp => step_run hm (fetch_verify hp)⟩
  rw [fetch_choose hp hs, choosePath, hl, hr]
  rfl

end

section
/-! PROOFS. The bit reader: the width and the mask of the next code over the range of `entry` (R112, R121, R127), and
GETCODE as a read of the input bit string (R122 to R128). -/

namespace Sys2Proof.Machine

variable {s : State} {w : Nat}

/-! ### The width of the next code -/

/-- The four ranges of R112's table, each with its own width. -/
theorem tableWidth_ranges (entry : Count) :
    (entry.toNat ≤ 0x01FE → tableWidth entry = 9) ∧
    (0x01FF ≤ entry.toNat ∧ entry.toNat ≤ 0x03FE → tableWidth entry = 10) ∧
    (0x03FF ≤ entry.toNat ∧ entry.toNat ≤ 0x07FE → tableWidth entry = 11) ∧
    (0x07FF ≤ entry.toNat → tableWidth entry = 12) := by
  unfold tableWidth
  split_ifs <;> omega

/-- Below `tableFull` the KWK value `code = entry` fits the width (R127). -/
theorem entry_lt_two_pow_tableWidth {entry : Count} (h : entry.toNat ≤ 0x0FFF) :
    entry.toNat < 2 ^ tableWidth entry := by
  unfold tableWidth
  split_ifs <;> omega

/-- What the range of `entry` says of the width that is selected (R121, R127). -/
theorem codeWidth_bounds {entry : Count} (hr : entryInRange entry = true) (hw : codeWidth entry = some w) :
    codeMask entry = some (2 ^ w - 1) ∧ 9 ≤ w ∧ w ≤ 12 := by
  obtain ⟨h1, h2⟩ := entryInRange_iff.mp hr
  obtain ⟨w', hw', hbounds⟩ := codeWidth_range h1 h2
  obtain rfl : w = w' := Option.some.inj (hw.symm.trans hw')
  exact hbounds

/-! ### GETCODE where `IN` holds the code -/

/-- The bits of the code are the next bits of the input bit string (R126). -/
theorem codeRead_code_getLsbD (hw : w ≤ 12) {j : Nat} (hj : j < 12) :
    (s.codeRead w).code.getLsbD j = (decide (j < w) && s.inBit (s.bitPos + j)) := by
  have hcode : (s.codeRead w).code = BitVec.ofNat 12 (s.inField s.bitPos w) := rfl
  rw [hcode, BitVec.getLsbD_ofNat, s.inField_testBit (by omega), decide_eq_true hj, Bool.true_and]

/-- The new residue position (R122). -/
theorem codeRead_startBit (s : State) (w : Nat) :
    (s.codeRead w).startBit.toNat = (s.startBit.toNat + w) % 8 := by
  obtain ⟨hmod, -⟩ := s.bitPos_split
  have hsb : (s.codeRead w).startBit.toNat = (s.bitPos + w) % 8 % 2 ^ 3 := BitVec.toNat_ofNat ..
  omega

/-- The bytes that one GETCODE fetches (R125): one where the residue byte and one more hold the code, else two. -/
theorem byteAfter_bitPos_add (h9 : 9 ≤ w) (h12 : w ≤ 12) (hres : ResidueOk s) :
    byteAfter (s.bitPos + w) =
      s.ip.toNat + (if s.startBit.toNat = 0 ∨ 16 < s.startBit.toNat + w then 2 else 1) := by
  have hsb := s.startBit.isLt
  by_cases h0 : s.startBit.toNat = 0
  · rw [State.bitPos, if_pos h0, if_pos (.inl h0), byteAfter]
    omega
  · obtain ⟨hip, -⟩ := hres h0
    rw [State.bitPos, if_neg h0, byteAfter]
    split_ifs <;> omega

end Sys2Proof.Machine

open Sys2Proof Sys2Proof.Machine

/-- Settles O4: the table of R112 is what the index rule of R121 selects. -/
theorem codeWidths : Obligations.CodeWidths := by
  unfold Obligations.CodeWidths
  intro entry h1 h2
  have hr : entryInRange entry = true := entryInRange_iff.mpr ⟨h1, h2⟩
  obtain ⟨h9, h10, h11, h12⟩ := tableWidth_ranges entry
  obtain ⟨hmask, -⟩ := codeWidth_bounds hr (codeWidth_eq hr)
  exact ⟨tableWidth entry, codeWidth_eq hr, hmask, h9, h10, h11, h12, entry_lt_two_pow_tableWidth,
    fun hfull code _ => by rw [hfull]; exact code.isLt⟩

/-- Settles O20: GETCODE leaves `codeRead`, whose registers are read off one by one. -/
theorem getcodeReadsTheBits : Obligations.GetcodeReadsTheBits := by
  unfold Obligations.GetcodeReadsTheBits
  intro s w h1 h2 hw hres hroom
  obtain ⟨hmask, h9, h12⟩ := codeWidth_bounds (entryInRange_iff.mpr ⟨h1, h2⟩) hw
  have hget : getcode s = .ok (s.codeRead w) := getcode_room hw hmask h9 h12 hres hroom
  have hip := codeRead_ip w hroom
  obtain ⟨hpos, -⟩ := codeRead_position h9 hres hroom
  refine ⟨(s.codeRead w).ip, (s.codeRead w).startBit, (s.codeRead w).lastByte, (s.codeRead w).code,
    congrArg Res.outcome hget, fun j hj => codeRead_code_getLsbD h12 hj, hpos, hip, codeRead_startBit s w,
    hip.trans (byteAfter_bitPos_add h9 h12 hres), ?_⟩
  rw [hip]
  rfl

/-- Settles O21: `getcode_short`, with the registers of the fault written out. -/
theorem getcodeUnderrun : Obligations.GetcodeUnderrun := by
  unfold Obligations.GetcodeUnderrun
  intro s w h1 h2 hw hres hip hshort
  obtain ⟨hmask, h9, h12⟩ := codeWidth_bounds (entryInRange_iff.mpr ⟨h1, h2⟩) hw
  have hget := getcode_short hw hmask h9 h12 hres hip hshort
  calc exec .getcode s
      = .next (State.raised { s with ip := s.inLen } .inputUnderrun s.inLen.toNat) := congrArg Res.outcome hget
    _ = _ := by rw [State.raised, BitVec.ofNat_toNat, BitVec.setWidth_eq]; rfl

end

section
/-! PROOFS. CRCBYTE (R136): it is linear (R139), equals its table form (R136), and is the bit-serial division that takes
a byte's bits most significant first (R62, R135). -/

namespace Sys2Proof.Machine

variable {n : Nat}

/-- The byte `b` where CRCBYTE puts it: in the high byte of the accumulator (R136). -/
def highByte (b : Byte) : BitVec 16 := b.setWidth 16 <<< 8

theorem getLsbD_highByte (b : Byte) (j : Nat) : (highByte b).getLsbD j = (decide (8 ≤ j) && b.getLsbD (j - 8)) := by
  by_cases h16 : j < 16
  · simp [highByte, h16, ← decide_not]
  · rw [BitVec.getLsbD_of_ge _ j (by omega), BitVec.getLsbD_of_ge _ (j - 8) (by omega), Bool.and_false]

theorem highByte_xor (b1 b2 : Byte) : highByte (b1 ^^^ b2) = highByte b1 ^^^ highByte b2 := by
  simp only [highByte, BitVec.setWidth_xor, BitVec.shiftLeft_xor_distrib]

theorem highByte_shiftLeft (b : Byte) (n : Nat) : highByte b <<< n = highByte (b <<< n) := by
  apply BitVec.eq_of_getLsbD_eq
  intro j hj
  have hplace : (decide (j < 16) && !decide (j < n) && decide (8 ≤ j - n)) =
      (decide (8 ≤ j) && (decide (j - 8 < 8) && !decide (j - 8 < n))) := by
    rw [Bool.eq_iff_iff]
    simp only [Bool.and_eq_true, Bool.not_eq_true', decide_eq_true_eq, decide_eq_false_iff_not]
    omega
  rw [BitVec.getLsbD_shiftLeft, getLsbD_highByte, getLsbD_highByte, BitVec.getLsbD_shiftLeft, Nat.sub_right_comm,
    ← Bool.and_assoc, ← Bool.and_assoc, hplace]

/-- No bit of the byte is left after eight shifts. -/
theorem highByte_shiftLeft_eight (b : Byte) : highByte (b <<< 8) = 0#16 := by
  rw [BitVec.shiftLeft_eq_zero (Nat.le_refl 8)]
  rfl

/-- CRCBYTE as eight turns of one function (R136). -/
theorem crcByte_eq_iterate (crc : BitVec 16) (b : Byte) : crcByte crc b = crcShift^[8] (crc ^^^ highByte b) := rfl

/-! ### One turn, and several -/

/-- A turn shifts, and subtracts the polynomial where a one leaves (R135). -/
theorem crcShift_eq (c : BitVec 16) :
    crcShift c = c <<< 1 ^^^ (if c.getLsbD 15 then Config.crcPoly else 0) := by
  unfold crcShift
  split <;> simp

theorem crcShift_xor (c d : BitVec 16) : crcShift (c ^^^ d) = crcShift c ^^^ crcShift d := by
  have hpoly : (if (c ^^^ d).getLsbD 15 then Config.crcPoly else 0) =
      (if c.getLsbD 15 then Config.crcPoly else 0) ^^^ (if d.getLsbD 15 then Config.crcPoly else 0) := by
    rw [BitVec.getLsbD_xor]
    cases c.getLsbD 15 <;> cases d.getLsbD 15 <;> simp
  rw [crcShift_eq, crcShift_eq, crcShift_eq, hpoly, BitVec.shiftLeft_xor_distrib]
  ac_rfl

theorem crcShift_iterate_xor (n : Nat) (c d : BitVec 16) :
    crcShift^[n] (c ^^^ d) = crcShift^[n] c ^^^ crcShift^[n] d :=
  Function.Semiconj₂.iterate crcShift_xor n c d

/-- Turns that only zeros leave are a shift. -/
theorem crcShift_iterate_of_zeros {c : BitVec 16} (h : ∀ j, 16 ≤ j + n → c.getLsbD j = false) :
    crcShift^[n] c = c <<< n := by
  induction n with
  | zero => simp
  | succ n ih =>
    have hleaves : (c <<< n).getLsbD 15 = false := by
      rw [BitVec.getLsbD_shiftLeft, h (15 - n) (by omega), Bool.and_false]
    rw [Function.iterate_succ_apply', ih (fun j hj => h j (by omega)), crcShift_eq, hleaves,
      BitVec.shiftLeft_add]
    simp

/-! ### The table form -/

/-- With its high byte taken away, the accumulator has its low byte alone. -/
theorem getLsbD_xor_highByte_of_ge (crc : BitVec 16) {j : Nat} (hj : 8 ≤ j) :
    (crc ^^^ highByte ((crc >>> 8).setWidth 8)).getLsbD j = false := by
  by_cases h16 : j < 16
  · rw [BitVec.getLsbD_xor, getLsbD_highByte, BitVec.getLsbD_setWidth, BitVec.getLsbD_ushiftRight,
      Nat.add_sub_cancel' hj]
    simp [hj, show j - 8 < 8 by omega]
  · exact BitVec.getLsbD_of_ge _ _ (by omega)

/-- The table form (R136): eight turns only shift the low byte, and the high byte enters them as the new byte does. -/
theorem crcByte_table (crc : BitVec 16) (b : Byte) :
    crcByte crc b = (crc <<< 8) ^^^ crcByte 0 ((crc >>> 8).setWidth 8 ^^^ b) := by
  have hsplit : crc ^^^ highByte b = (crc ^^^ highByte ((crc >>> 8).setWidth 8)) ^^^
      ((0 : BitVec 16) ^^^ highByte ((crc >>> 8).setWidth 8 ^^^ b)) := by
    simp [highByte_xor, BitVec.xor_assoc]
  have hlow : crcShift^[8] (crc ^^^ highByte ((crc >>> 8).setWidth 8)) = crc <<< 8 := by
    rw [crcShift_iterate_of_zeros (fun j hj => getLsbD_xor_highByte_of_ge crc (by omega)),
      BitVec.shiftLeft_xor_distrib, highByte_shiftLeft, highByte_shiftLeft_eight, BitVec.xor_zero]
  rw [crcByte_eq_iterate, crcByte_eq_iterate, hsplit, crcShift_iterate_xor, hlow]

/-! ### The bit-serial form -/

/-- One turn of the bit-serial division by the polynomial: bit `k` of the byte is taken (R135). -/
def serialTurn (b : Byte) (c : BitVec 16) (k : Nat) : BitVec 16 :=
  (c <<< 1) ^^^ (if c.getLsbD 15 != b.getLsbD k then 0x1021 else 0)

/-- With `n` bits taken, a turn of the loop is a turn of the division, and the bits still to come move up (R62). -/
theorem crcShift_xor_highByte (b : Byte) (c : BitVec 16) (hn : n < 8) :
    crcShift (c ^^^ highByte (b <<< n)) = serialTurn b c (7 - n) ^^^ highByte (b <<< (n + 1)) := by
  have htop : (c ^^^ highByte (b <<< n)).getLsbD 15 = (c.getLsbD 15 != b.getLsbD (7 - n)) := by
    rw [BitVec.getLsbD_xor, getLsbD_highByte, BitVec.getLsbD_shiftLeft]
    simp [show ¬ 7 < n by omega]
  have hrest : highByte (b <<< n) <<< 1 = highByte (b <<< (n + 1)) := by
    rw [highByte_shiftLeft, BitVec.shiftLeft_add]
  rw [crcShift_eq, htop, BitVec.shiftLeft_xor_distrib, hrest, serialTurn, Config.crcPoly]
  ac_rfl

/-- After `n` turns the loop holds what the division holds, and the bits still to come above it. -/
theorem crcShift_iterate_highByte (b : Byte) (c : BitVec 16) (hn : n ≤ 8) :
    crcShift^[n] (c ^^^ highByte b) =
      ((List.range n).map (7 - ·)).foldl (serialTurn b) c ^^^ highByte (b <<< n) := by
  induction n with
  | zero => simp
  | succ n ih =>
    rw [Function.iterate_succ_apply', ih (by omega), crcShift_xor_highByte b _ (by omega), List.range_succ,
      List.map_append, List.foldl_append]
    rfl

theorem crcByte_eq_serial (crc : BitVec 16) (b : Byte) :
    crcByte crc b = [7, 6, 5, 4, 3, 2, 1, 0].foldl (serialTurn b) crc := by
  rw [crcByte_eq_iterate, crcShift_iterate_highByte b crc (Nat.le_refl 8), highByte_shiftLeft_eight,
    BitVec.xor_zero]
  rfl

end Sys2Proof.Machine

open Sys2Proof Sys2Proof.Machine

/-- Settles O38: the turns are linear (`crcShift_iterate_xor`), and so is putting a byte into the accumulator. -/
theorem crcByteIsLinear : Obligations.CrcByteIsLinear := by
  unfold Obligations.CrcByteIsLinear
  intro c1 c2 b1 b2
  have harg : c1 ^^^ c2 ^^^ highByte (b1 ^^^ b2) = (c1 ^^^ highByte b1) ^^^ (c2 ^^^ highByte b2) := by
    rw [highByte_xor]; ac_rfl
  simp only [crcByte_eq_iterate, harg, crcShift_iterate_xor]

/-- Settles O36: `crcByte_table`; the frame is what the operation is. -/
theorem crcByteTableForm : Obligations.CrcByteTableForm := by
  unfold Obligations.CrcByteTableForm
  exact ⟨fun _ _ => rfl, crcByte_table⟩

/-- Settles O37: `crcByte_eq_serial`. -/
theorem crcByteIsBitSerial : Obligations.CrcByteIsBitSerial := by
  unfold Obligations.CrcByteIsBitSerial
  exact crcByte_eq_serial

end

section
/-! PROOFS. In LZW/1 the accumulator is the CRC of the blocks completed so far (R137, R138, R204). -/

namespace Sys2Proof.Machine

variable {s u t : State}

theorem crcBuf_append (crc : BitVec 16) (l m : List Byte) : crcBuf crc (l ++ m) = crcBuf (crcBuf crc l) m :=
  List.foldl_append

/-- LZW/1: the accumulator is the CRC of `OUT` (R137). -/
def CrcOfOut (s : State) : Prop := s.variant = .lzw1 → s.crcAcc = crcBuf Config.crcInit s.out

/-! ### What the invariant says, by phase -/

/-- Up to CRCBLK every completed block is in `OUT`. -/
theorem crcOk_decoding {p : Phase} (h : s.phase = p) (hp : p = .thdr ∨ p = .bhdr ∨ p = .payload ∨ p = .crc) :
    CrcOk s ↔ CrcOfOut s := by
  rcases hp with rfl | rfl | rfl | rfl <;> simp only [CrcOk, CrcOfOut, h]

theorem crcOk_emit (h : s.phase = .emit) : CrcOk s ↔
    (s.variant = .lzw1 → s.crcAcc = crcBuf Config.crcInit (s.out ++ s.blkBytes Config.block)) := by
  simp only [CrcOk, h]

/-- Nothing is asked before a thread or once its last block is out. -/
theorem crcOk_outside {p : Phase} (h : s.phase = p) (hp : p = .idle ∨ p = .verify ∨ p = .done ∨ p = .fault) :
    CrcOk s := by
  rcases hp with rfl | rfl | rfl | rfl <;> simp [CrcOk, h]

/-- After PAYLOAD an LZW/1 block is still to be fed (R190). -/
theorem crcOk_afterPayload (hp : t.phase = t.afterPayload) (h : CrcOfOut t) : CrcOk t := by
  rcases afterPayload_cases t with ⟨hc, -⟩ | ⟨he, hv⟩
  · exact (crcOk_decoding (hp.trans hc) (by simp)).mpr h
  · exact (crcOk_emit (hp.trans he)).mpr fun hv' => absurd (hv.symm.trans hv') (by decide)

/-- Only where a block is to come is the accumulator asked for (R190, R206). -/
theorem crcOk_afterBlock (hp : t.phase = t.afterBlock) (h : 0 < t.uncompRemaining.toNat → CrcOfOut t) : CrcOk t := by
  rcases afterBlock_cases t with ⟨hb, h0⟩ | ⟨hb, -⟩ | ⟨hb, -⟩
  · exact (crcOk_decoding (hp.trans hb) (by simp)).mpr (h h0)
  · exact crcOk_outside (hp.trans hb) (by simp)
  · exact crcOk_outside (hp.trans hb) (by simp)

/-! ### CRCBLK and EMITBLK -/

/-- The bytes of the block are those of its slots, and of the free values that slots not yet written read as. -/
theorem blkBytes_congr (hb : t.blk = u.blk) (hf : t.freeCount = u.freeCount) (n : Nat) :
    t.blkBytes n = u.blkBytes n := by
  have hread : t.readBlk = u.readBlk := by
    funext i
    rw [State.readBlk, State.readBlk, hb, hf]
  rw [State.blkBytes, State.blkBytes, hread]

/-- CRCBLK feeds the whole block once, after the blocks in `OUT` (R204, R138). -/
theorem crcOk_fed (hp : t.phase = .emit) (hv : t.variant = u.variant) (ho : t.out = u.out) (hb : t.blk = u.blk)
    (hf : t.freeCount = u.freeCount) (hc : t.crcAcc = crcBuf u.crcAcc (u.blkBytes Config.block)) (h : CrcOfOut u) :
    CrcOk t := by
  refine (crcOk_emit hp).mpr fun hv' => ?_
  rw [hc, h (hv ▸ hv'), ho, blkBytes_congr hb hf, crcBuf_append]

/-- EMITBLK leaves a block fewer to emit, or nothing (R205, R30). -/
theorem BlockOk.emit_remaining (h : BlockOk u) :
    (u.uncompRemaining - u.writeLen.setWidth 32).toNat = u.uncompRemaining.toNat - Config.block := by
  have hw := h.write
  have hcount : (u.writeLen.setWidth 32).toNat = u.writeLen.toNat := BitVec.toNat_setWidth_of_le (by decide)
  rw [BitVec.toNat_sub_of_le (by rw [BitVec.le_def, hcount]; omega), hcount]
  omega

/-- A block before the last one is emitted whole (R30, R206). -/
theorem BlockOk.writeLen_of_more (h : BlockOk u) (hmore : 0 < (u.uncompRemaining - u.writeLen.setWidth 32).toNat) :
    u.writeLen.toNat = Config.block := by
  have hw := h.write
  rw [h.emit_remaining] at hmore
  omega

/-! ### Every step -/

/-- A move of the machine keeps it: CRCBLK feeds a block once, and EMITBLK then puts the same bytes into `OUT`. -/
theorem Effect.crcOk (h : Inv u) (hc : CrcOk u) (he : Effect u t) : CrcOk t := by
  have hout {p : Phase} (hp : u.phase = p) (hd : p = .thdr ∨ p = .bhdr ∨ p = .payload ∨ p = .crc) : CrcOfOut u :=
    (crcOk_decoding hp hd).mp hc
  have hin (hp : u.phase = .payload) : CrcOfOut u := hout hp (by simp)
  have stays {v : State} (hv : v.phase = .payload) (hk : CrcOfOut v) : CrcOk v :=
    (crcOk_decoding hv (by simp)).mpr hk
  cases he with
  | still => exact hc
  | fault => exact crcOk_outside rfl (by simp)
  | threadHeader a crc volume escape hp => exact crcOk_afterBlock rfl fun _ => hout hp (by simp)
  | blockHeader a len n used k hp => exact stays rfl (hout hp (by simp))
  | raw hp => rw [rawBlock_eq]; exact crcOk_afterPayload rfl (hin hp)
  | engineStart hp => rw [lzwStart_eq]; exact stays hp (hin hp)
  | rleOnly hp => exact stays (by simpa using hp) (by simpa [CrcOfOut] using hin hp)
  | firstLiteral c hp => exact stays hp (hin hp)
  | clear c w hp => exact stays hp (hin hp)
  | codeRun c w bytes d hp => exact stays hp (hin hp)
  | engineToRle hp => exact stays hp (hin hp)
  | engineToBlock hp => exact crcOk_afterPayload rfl (hin hp)
  | token r bytes hp => exact stays hp (hin hp)
  | rleDone hp => rw [rleEnd_eq]; exact crcOk_afterPayload rfl (hin hp)
  | crc hp => exact crcOk_fed (u := u) rfl rfl rfl rfl rfl (by dsimp only) (hout hp (by simp))
  | emit hp =>
    refine crcOk_afterBlock rfl fun hmore hv => ?_
    obtain ⟨hblk, -⟩ := (phaseOk_emit hp).mp (h.running (busy_of_phase hp (by simp))).phaseOk
    have hacc : u.crcAcc = crcBuf Config.crcInit (u.out ++ u.blkBytes Config.block) := (crcOk_emit hp).mp hc hv
    show u.crcAcc = crcBuf Config.crcInit (u.out ++ u.blkBytes u.writeLen.toNat)
    rw [hblk.writeLen_of_more hmore]
    exact hacc
  | verified => exact crcOk_outside rfl (by simp)

theorem CrcOk.moves (h : CrcOk s) (hm : Moves s u) : CrcOk u := by
  obtain ⟨he, -⟩ := hm.eq
  generalize u.inputs = l at he
  subst he
  exact h

/-- A new thread has completed no block, and its accumulator starts at `CRC_INIT` (R252, R137). -/
theorem crcOk_start (a : StartArgs) (s : State) : CrcOk (start a s) := (crcOk_decoding rfl (.inl rfl)).mpr fun _ => rfl

end Sys2Proof.Machine

open Sys2Proof Sys2Proof.Machine

/-- Settles O55: a move keeps it (`Effect.crcOk`), and so do the host's two events. -/
theorem stepKeepsCrc : Obligations.StepKeepsCrc := by
  unfold Obligations.StepKeepsCrc
  intro s t h hc hst
  rcases host_cases s with ⟨u, hm⟩ | ⟨a, rest, -, ⟨-, hr⟩ | ⟨-, hr⟩⟩ | ⟨rest, -, hr⟩
  · exact (effect_of_step h hm hst).crcOk (h.moves hm) (hc.moves hm)
  · rw [hr] at hst; cases hst
  · rw [hr] at hst; cases hst
    exact crcOk_start a _
  · rw [hr] at hst; cases hst
    exact crcOk_outside rfl (.inl rfl)

end

section
/-! PROOFS. The RLE expander: the tokens of its span (R146, R149), RLIT and RRUN (R147, R148), and its end (R150). -/

namespace Sys2Proof.Machine

variable {s u : State} {i : Instr} {n : Nat}

/-! ### The token that is due -/

/-- The token at `rle_in`, read from what is left of the span. -/
def State.decodeToken (u : State) : Decoded :=
  decode (.rle u.escape) (8 * u.spanLeft) (leBytes u.spanByte u.rleIn.toNat (min tokenBytes u.spanLeft))

/-- The expander's loop goes on (R146), and a span of `IN` lies in `IN` (R202). -/
structure TokenDue (u : State) : Prop where
  phase : u.phase = .payload
  stage : u.stage = .rle
  room  : u.rleOut.toNat < Config.block
  span  : u.lzwUsed = false → u.ip.toNat + u.rleLen.toNat ≤ u.inLen.toNat

/-- The model's second check of the span finds nothing where the first has been passed (log entry 13). -/
theorem TokenDue.span_fits (h : TokenDue u) : (!u.lzwUsed && !u.spanFits u.rleLen.toNat) = false := by
  cases hl : u.lzwUsed
  · simp [State.spanFits, h.span hl]
  · rfl

theorem TokenDue.fetch (h : TokenDue u) : fetch u = fetchToken u := by
  rw [fetch_rle h.phase h.stage, if_pos h.room]

/-- Where a token is due, the step runs the one that is decoded, with `rle_in` past it. -/
theorem step_token (hm : Moves s u) (h : TokenDue u) (hd : u.decodeToken = .ok i n) :
    step s = exec i { u with rleIn := u.rleIn + BitVec.ofNat 13 (n / 8) } := by
  refine step_run hm ?_
  rw [State.decodeToken] at hd
  rw [h.fetch, fetchToken, h.span_fits, hd]
  rfl

/-- Where the span ends first, the step raises `RleInputUnderrun` (R149). -/
theorem step_token_short (hm : Moves s u) (h : TokenDue u) (hd : u.decodeToken = .short) :
    step s = (rleUnderrun u).outcome := by
  refine step_settled hm ?_
  rw [State.decodeToken] at hd
  rw [h.fetch, fetchToken, h.span_fits, hd]
  rfl

/-! ### What the decoder reads from the span -/

/-- The RLE layer looks at the first byte, and at the escape byte it takes two more (R96, R97). -/
theorem decodeToken_of_byte (h : u.rleIn.toNat + 1 ≤ u.rleLen.toNat) : u.decodeToken =
    if u.spanByte u.rleIn.toNat = u.escape then
      fixedLength (8 * u.spanLeft) 24
        (.rrun (.ofNat 8 (field (leBytes u.spanByte u.rleIn.toNat (min tokenBytes u.spanLeft)) 8 8))
          (.ofNat 8 (field (leBytes u.spanByte u.rleIn.toNat (min tokenBytes u.spanLeft)) 16 8)))
    else .ok (.rlit (u.spanByte u.rleIn.toNat)) 8 := by
  have hleft : 1 ≤ u.spanLeft := by rw [State.spanLeft]; omega
  have hm : 0 < min tokenBytes u.spanLeft := by rw [tokenBytes]; omega
  rw [State.decodeToken, decode, if_neg (by omega), ofNat_field_leBytes _ _ (k := 0) hm, Nat.add_zero]

/-- RLIT (R96): a byte that is not the escape byte. -/
theorem decodeToken_literal (h : u.rleIn.toNat + 1 ≤ u.rleLen.toNat) (hb : u.spanByte u.rleIn.toNat ≠ u.escape) :
    u.decodeToken = .ok (.rlit (u.spanByte u.rleIn.toNat)) 8 := by
  rw [decodeToken_of_byte h, if_neg hb]

/-- RRUN (R97): the escape byte, then `ch` and `count`. -/
theorem decodeToken_run (h : u.rleIn.toNat + 3 ≤ u.rleLen.toNat) (hb : u.spanByte u.rleIn.toNat = u.escape) :
    u.decodeToken =
      .ok (.rrun (u.spanByte (u.rleIn.toNat + 1)) (u.spanByte (u.rleIn.toNat + 2))) 24 := by
  have hleft : 3 ≤ u.spanLeft := by rw [State.spanLeft]; omega
  have hm : 2 < min tokenBytes u.spanLeft := by rw [tokenBytes]; omega
  rw [decodeToken_of_byte (by omega), if_pos hb, fixedLength_of_le (by omega),
    ofNat_field_leBytes _ _ (k := 1) (by omega), ofNat_field_leBytes _ _ (k := 2) hm]

/-- The span ends before the token does (R149): nothing is left, or fewer than three bytes from an escape byte on. -/
theorem decodeToken_short (h : u.rleIn.toNat ≤ u.rleLen.toNat) (hend : u.rleIn.toNat = u.rleLen.toNat ∨
      (u.spanByte u.rleIn.toNat = u.escape ∧ u.rleLen.toNat < u.rleIn.toNat + 3)) : u.decodeToken = .short := by
  have hleft : u.spanLeft < 3 := by rw [State.spanLeft]; omega
  by_cases h0 : u.rleIn.toNat = u.rleLen.toNat
  · have hnone : u.spanLeft = 0 := by rw [State.spanLeft, h0, Nat.sub_self]
    rw [State.decodeToken, decode, if_pos (by omega)]
  · obtain ⟨hb, -⟩ := hend.resolve_left h0
    rw [decodeToken_of_byte (by omega), if_pos hb, fixedLength, if_pos (by omega)]

/-! ### Where the span ends -/

/-- Past every byte that is left, `rle_in` stands at `rle_len` (R149). -/
theorem rleIn_add_spanLeft (h : u.rleIn.toNat ≤ u.rleLen.toNat) (hcap : u.rleLen.toNat ≤ Config.block) :
    u.rleIn + BitVec.ofNat 13 u.spanLeft = u.rleLen.setWidth 13 := by
  rw [Config.block] at hcap
  apply BitVec.eq_of_toNat_eq
  rw [State.spanLeft, BitVec.toNat_setWidth, count_add (by omega)]
  omega

/-- `RleInputUnderrun(rle_len)` leaves `rle_in` at `rle_len` (R146, R149). -/
theorem rleUnderrun_outcome (h : u.rleIn.toNat ≤ u.rleLen.toNat) (hcap : u.rleLen.toNat ≤ Config.block) :
    (rleUnderrun u).outcome = .next { u with
      rleIn := u.rleLen.setWidth 13, cause := 8, info := u.rleLen.setWidth 32, phase := .fault } := by
  rw [rleUnderrun, rleIn_add_spanLeft h hcap, ← BitVec.ofNat_toNat 32 u.rleLen]
  rfl

/-! ### The end of the expander -/

/-- The phase after PAYLOAD by the variant (R190). -/
theorem afterPayload_eq (s : State) : s.afterPayload = if s.variant = .lzw1 then .crc else .emit := by
  rcases afterPayload_cases s with ⟨h, hv⟩ | ⟨h, hv⟩ <;> rw [h, hv] <;> rfl

/-- The expander's end moves `ip` by the whole `rle_len` on the RLE-only path alone (R202, R197). -/
theorem rleEnd_ip (s : State) : (rleEnd s).ip = if s.lzwUsed then s.ip else s.ip + s.rleLen.setWidth 32 := by
  rw [rleEnd, State.blockComplete_ip, ← BitVec.ofNat_toNat 32 s.rleLen]
  split <;> rfl

/-! ### RLIT and RRUN -/

theorem exec_rlit (b : Byte) (h : s.rleOut.toNat < Config.block) :
    exec (.rlit b) s = .next { s with blk := slotSet s.blk s.rleOut.toNat b, rleOut := s.rleOut + 1 } :=
  if_pos h

theorem exec_rrun (ch count : Byte) (h : s.rleOut.toNat < Config.block) :
    exec (.rrun ch count) s = .next { s with
      blk := slotFill s.blk s.rleOut.toNat ch (runLength count s.rleOut)
      rleOut := s.rleOut + BitVec.ofNat 13 (runLength count s.rleOut) } :=
  if_pos h

/-- A run ends within the block (R148). -/
theorem rleOut_add_runLength (count : Byte) {rleOut : Count} (h : rleOut.toNat < Config.block) :
    (rleOut + BitVec.ofNat 13 (runLength count rleOut)).toNat = rleOut.toNat + runLength count rleOut := by
  refine count_add ?_
  rw [runLength]
  rw [Config.block] at h ⊢
  omega

end Sys2Proof.Machine

open Sys2Proof Sys2Proof.Machine

/-- Settles O9: `step_token`. -/
theorem stepRunsToken : Obligations.StepRunsToken := by
  unfold Obligations.StepRunsToken
  exact fun s u i n hm hp hs ho hspan hd => step_token hm ⟨hp, hs, ho, hspan⟩ hd

/-- Settles O34: the step runs the token that is decoded, or faults where the decoder finds the span too short. -/
theorem rleTokens : Obligations.RleTokens := by
  unfold Obligations.RleTokens
  intro s u hm hp hs ho hin hlen hspan
  have hdue : TokenDue u := ⟨hp, hs, ho, hspan⟩
  exact ⟨fun h hb => step_token hm hdue (decodeToken_literal h hb),
    fun h hb => step_token hm hdue (decodeToken_run h hb),
    fun hend => (step_token_short hm hdue (decodeToken_short hin hend)).trans (rleUnderrun_outcome hin hlen)⟩

/-- Settles O32: `exec_rlit`, and the one slot that it stores. -/
theorem rleLiteral : Obligations.RleLiteral := by
  unfold Obligations.RleLiteral
  exact fun s b h => ⟨_, exec_rlit b h, stored_slotSet _ _ b⟩

/-- Settles O33: `exec_rrun`, the slots that it fills, and `rle_out` within the block. -/
theorem rleRun : Obligations.RleRun := by
  unfold Obligations.RleRun
  exact fun s ch count h => ⟨_, _, exec_rrun ch count h, stored_slotFill _ _ _ ch, rleOut_add_runLength count h⟩

/-- Settles O35: a full block ends the loop before the span is looked at. -/
theorem rleEnd : Obligations.RleEnd := by
  unfold Obligations.RleEnd
  intro s u hm hp hs ho
  have hfull : ¬ u.rleOut.toNat < Config.block := by rw [ho, Config.block]; decide
  rw [step_settled hm (by rw [fetch_rle hp hs, if_neg hfull]), rleEnd_eq, rleEnd_ip, afterPayload_eq]

end

section
/-! PROOFS. The LZW engine, around its codes: a running thread never stops short (R178, R59), the start of an invocation
(R161, R162), the code that a step reads (R163, R126), and the engine's normal end (R175, R199). -/

namespace Sys2Proof.Machine

variable {s u : State} {i : Instr} {n : Nat}

/-! ### The code that is due -/

/-- The decoder looks at 16 bits, and the first `w` of them are the field of `w` bits (R61). -/
theorem field_inField (s : State) (p : Nat) {w : Nat} (hw : w ≤ 16) : field (s.inField p 16) 0 w = s.inField p w := by
  rw [field_zero, State.inField, State.inField, field, field, Nat.mod_mod_of_dvd _ (Nat.pow_dvd_pow 2 hw)]

/-- Where the width is `w` and `IN` holds `w` bits from the position on, GETCODE reads them (R122, R126). -/
theorem getcode_codeRead {w : Nat} (hr : entryInRange u.entry = true) (hw : codeWidth u.entry = some w)
    (hres : ResidueOk u) (hroom : u.bitPos + w ≤ 8 * u.inLen.toNat) : getcode u = .ok (u.codeRead w) := by
  obtain ⟨hm, h9, h12⟩ := codeWidth_bounds hr hw
  exact getcode_room hw hm h9 h12 hres hroom

/-- A step that fetches a code runs its operation on `codeRead`. -/
theorem step_code {op : State → Instr} {w : Nat} (hm : Moves s u) (hf : fetch u = fetchCode op u)
    (hg : getcode u = .ok (u.codeRead w)) : step s = exec (op (u.codeRead w)) (u.codeRead w) :=
  step_run hm (by rw [hf, fetchCode, hg])

/-- Where a first code is due, the step runs LIT0 of the nine bits that the decoder reads (R164). -/
theorem step_first (hm : Moves s u) (hp : u.phase = .payload) (hs : u.stage = .lzw0)
    (he : u.entry.toNat = Config.firstCode) (hres : ResidueOk u)
    (hd : decode .first (8 * u.inLen.toNat - u.bitPos) (u.inField u.bitPos 16) = .ok i n) :
    step s = exec i (u.codeRead n) := by
  obtain ⟨hfit, rfl, rfl⟩ := fixedLength_ok_iff.mp hd
  have hr : entryInRange u.entry = true := entryInRange_iff.mpr ⟨by omega, by rw [he]; decide⟩
  have hw : codeWidth u.entry = some 9 := by
    rw [show u.entry = BitVec.ofNat 13 Config.firstCode from BitVec.eq_of_toNat_eq he, codeWidth_first]
  rw [step_code hm (fetch_lzw0 hp hs) (getcode_codeRead hr hw hres (by omega)), field_inField u _ (by decide)]
  rfl

/-- In the main loop the step runs the class of the code that the decoder reads (R163, R105). -/
theorem step_mainLoop (hm : Moves s u) (hp : u.phase = .payload) (hs : u.stage = .lzw)
    (ho : u.outN.toNat < u.rleLen.toNat) (hr : entryInRange u.entry = true) (hres : ResidueOk u)
    (hd : decode (.code u.variant u.entry) (8 * u.inLen.toNat - u.bitPos) (u.inField u.bitPos 16) = .ok i n) :
    step s = exec i (u.codeRead n) := by
  rw [decode_code _ hr] at hd
  obtain ⟨hfit, rfl, rfl⟩ := fixedLength_ok_iff.mp hd
  have h12 := tableWidth_le u.entry
  obtain ⟨-, h9, -⟩ := codeWidth_bounds hr (codeWidth_eq hr)
  rw [step_code hm (by rw [fetch_lzw hp hs, if_pos ho]) (getcode_codeRead hr (codeWidth_eq hr) hres (by omega)),
    field_inField u _ (by omega)]
  rfl

/-! ### The engine's normal end -/

/-- What LZW/2 asks of `lzw_length` (R199). -/
def State.LengthAgrees (u : State) : Prop :=
  u.variant = .lzw2 → u.bytesConsumed + Config.lzw2Hdr = u.lzwLength.toNat

theorem lengthCheck_ok (h : u.LengthAgrees) : lengthCheck u = .ok u := by
  unfold lengthCheck
  cases hv : u.variant with
  | lzw1 => rfl
  | lzw2 => exact if_pos (h hv)

/-- `info` of a LengthMismatch holds both numbers (R199). -/
theorem lengthMismatch_info (u : State) : BitVec.ofNat 32 ((u.bytesConsumed <<< 16) ||| u.lzwLength.toNat) =
    ((u.ip - u.blkIp0) <<< 16) ||| u.lzwLength.setWidth 32 := by
  apply BitVec.eq_of_toNat_eq
  rw [BitVec.toNat_ofNat, BitVec.toNat_or, BitVec.toNat_shiftLeft, BitVec.toNat_setWidth, Nat.or_mod_two_pow]
  rfl

theorem lengthCheck_mismatch (hv : u.variant = .lzw2) (hne : u.bytesConsumed + Config.lzw2Hdr ≠ u.lzwLength.toNat) :
    lengthCheck u = .raised (u.raised .lengthMismatch ((u.bytesConsumed <<< 16) ||| u.lzwLength.toNat)) := by
  simp only [lengthCheck, hv, if_neg hne, raise]

/-- Where `out_n` has reached `rle_len`, the step is the engine's end (R163, R175). -/
theorem step_engineEnd (hm : Moves s u) (hp : u.phase = .payload) (hs : u.stage = .lzw)
    (ho : u.rleLen.toNat ≤ u.outN.toNat) : step s = (engineEnd u).outcome :=
  step_settled hm (by rw [fetch_lzw hp hs, if_neg (Nat.not_lt.mpr ho)])

/-- The length check passed, the expander starts, or `SCR` becomes the block (R197, R198). -/
theorem engineEnd_ok (h : u.LengthAgrees) : engineEnd u =
    if u.rleUsed then .ok u.rleStart else .ok (State.blockComplete { u with blk := u.scr }) := by
  rw [engineEnd, lengthCheck_ok h, Res.ok_andThen]

end Sys2Proof.Machine

open Sys2Proof Sys2Proof.Machine

/-- Settles O57: every step from a state that meets the invariant is one of the moves of `Effect`. -/
theorem runningThreadNeverStops : Obligations.RunningThreadNeverStops := by
  unfold Obligations.RunningThreadNeverStops
  intro s u h hm
  obtain ⟨t, hst, -⟩ := step_effect (h.moves hm) hm
  exact ⟨t, hst⟩

/-- Settles O8: `step_first` and `step_mainLoop`. -/
theorem stepRunsCode : Obligations.StepRunsCode := by
  unfold Obligations.StepRunsCode
  intro s u c i n hm hp hdue h1 h2 hres _ hd
  rcases hdue with ⟨hs, he, rfl⟩ | ⟨hs, ho, rfl⟩
  · exact step_first hm hp hs he hres hd
  · exact step_mainLoop hm hp hs ho (entryInRange_iff.mpr ⟨h1, h2⟩) hres hd

/-- Settles O17: `lzwStart` in each variant. -/
theorem engineStart : Obligations.EngineStart := by
  unfold Obligations.EngineStart
  intro s u hm hp hs hl
  have hstep : step s = .next (lzwStart u) := step_settled hm (by rw [fetch_choose hp hs, choosePath, if_pos hl])
  rw [hstep]
  refine ⟨fun hv => ⟨u.invocation.lastByte, by rw [lzwStart_lzw1 hv]; rfl⟩,
    fun hv => ⟨u.invocation.lastByte, ?_⟩⟩
  have hentry : u.entry.toNat = Config.firstCode ↔ u.entry = 0x0101 :=
    ⟨fun h => BitVec.eq_of_toNat_eq h, fun h => by rw [h]; rfl⟩
  simp only [lzwStart_lzw2 hv, clearingEntry_iff, hentry]
  rfl

/-- Settles O19: the length check's two answers, and `engineEnd_ok`. -/
theorem engineEnd : Obligations.EngineEnd := by
  unfold Obligations.EngineEnd
  intro s u hm hp hs ho
  rw [step_engineEnd hm hp hs ho]
  refine ⟨fun hv hne => ?_, fun hlen hr => ?_, fun hlen hr => ⟨u.scr, ?_, fun _ => rfl⟩⟩
  · rw [Machine.engineEnd, lengthCheck_mismatch hv hne, State.raised, lengthMismatch_info]
    rfl
  · rw [engineEnd_ok hlen, if_pos hr]
    rfl
  · rw [engineEnd_ok hlen, hr, ← afterPayload_eq]
    rfl

end

section
/-! PROOFS. The code operations (R164 to R173, R176): LIT0 by its cases; LIT, REF and KWK as one emission and one record
(R171, R173); CLR as a table reset and a first literal (R168); BAD and RSV as faults. -/

namespace Sys2Proof.Machine

variable {s t : State}

/-! ### Faults whose value is a register -/

/-- `raise` of a register's value puts the register into `info` (R238). -/
theorem State.raised_toNat {w : Nat} (s : State) (c : Cause) (x : BitVec w) :
    s.raised c x.toNat = { s with cause := c.number, info := x.setWidth 32, phase := .fault } := by
  rw [State.raised, BitVec.ofNat_toNat]

/-! ### LIT0 -/

/-- The writes of LIT0 before its emission (R164). -/
def State.firstPair (s : State) (code : Code) : State := { s with finalByte := code.setWidth 8, old := code }

theorem firstLiteral_invalid {code : Code} (h : 255 < code.toNat) :
    firstLiteral code s = .raised (s.raised .invalidInitialSymbol code.toNat) := if_pos h

theorem firstLiteral_literal {code : Code} (h : code.toNat ≤ 255) :
    firstLiteral code s = emitByte (code.setWidth 8) (s.firstPair code) := if_neg (Nat.not_lt.mpr h)

theorem firstLiteral_room {code : Code} (h : code.toNat ≤ 255) (ho : s.outN.toNat < s.rleLen.toNat)
    (hcap : s.rleLen.toNat ≤ Config.scratchCap) :
    firstLiteral code s = .ok ((s.firstPair code).emitted (code.setWidth 8)) :=
  (firstLiteral_literal h).trans (emitByte_room (s := s.firstPair code) _ ho hcap)

theorem firstLiteral_full {code : Code} (h : code.toNat ≤ 255) (ho : s.rleLen.toNat ≤ s.outN.toNat) :
    firstLiteral code s = .raised ((s.firstPair code).raised .outputOverrun s.outN.toNat) :=
  (firstLiteral_literal h).trans (emitByte_full (s := s.firstPair code) _ ho)

/-! ### LIT, REF and KWK -/

/-- `WalkEmit(c)`, then `Record(d)`: what LIT, REF and KWK do (R165, R166, R172). -/
def emitRecord (c d : Code) (s : State) : Host.Outcome State Fault Refusal :=
  ((walkEmit c s).andThen (record d)).outcome

theorem exec_lit (b : Byte) (s : State) : exec (.lit b) s = emitRecord (b.setWidth 12) (b.setWidth 12) s := rfl

theorem exec_ref (code : Code) (s : State) : exec (.ref code) s = emitRecord code code s := rfl

/-- KWK pushes `final` first (R172). -/
theorem exec_kwk (code : Code) (h : s.sp = 0) :
    exec (.kwk code) s = emitRecord s.old code (s.pushed s.finalByte) := by
  rw [exec, execKwk, push_room _ (by rw [h]; decide)]
  rfl

/-- Emission and record both run to their end. -/
theorem emitRecord_room {c d : Code} (hw : walkEmit c s = .ok t) (h1 : 256 ≤ t.entry.toNat)
    (h2 : t.entry.toNat < Config.tableFull) : emitRecord c d s = .next (t.recorded d) := by
  rw [emitRecord, hw, Res.ok_andThen, record_room d h1 h2, Res.ok_outcome]

/-- With a full table the emission stays, and Record raises TableOverflow (R174). -/
theorem emitRecord_full {c d : Code} (hw : walkEmit c s = .ok t) (h : t.entry.toNat = Config.tableFull) :
    emitRecord c d s = .next { t with cause := 10, info := 0x1000, phase := .fault } := by
  rw [emitRecord, hw, Res.ok_andThen, record_full d (Nat.le_of_eq h.symm), h]
  rfl

/-- Where the emission raises, nothing is recorded. -/
theorem emitRecord_raised {c d : Code} (hw : walkEmit c s = .raised t) : emitRecord c d s = .next t := by
  rw [emitRecord, hw]
  rfl

/-- `spelled` with an empty stack leaves `sp` as it was. -/
theorem State.spelled_of_empty (h : s.sp = 0) (bytes : List Byte) (d : Slots 8) : s.spelled bytes d = { s with
    finalByte := bytes.headD 0, scr := slotPut s.scr s.outN.toNat bytes
    outN := s.outN + BitVec.ofNat 13 bytes.length, stk := d } := by
  rw [State.spelled, ← h]

/-! ### Emission of a literal (R165) -/

theorem walkEmit_byte (b : Byte) (hsp : s.sp = 0) :
    walkEmit (b.setWidth 12) s = emitByte b { s with finalByte := b } := by
  have hb : (b.setWidth 12).toNat ≤ 255 := by rw [code_byte]; exact Nat.le_of_lt_succ b.isLt
  rw [walkEmit_lit hb, byte_of_code, emitString_empty b (by rw [hsp]; rfl)]

/-- A literal is a string of one byte, whatever the table. -/
theorem walkEmit_byte_room (b : Byte) (hsp : s.sp = 0) (ho : s.outN.toNat < s.rleLen.toNat)
    (hcap : s.rleLen.toNat ≤ Config.scratchCap) : walkEmit (b.setWidth 12) s = .ok (s.spelled [b] s.stk) := by
  rw [walkEmit_byte b hsp, emitByte_room b (by exact ho) (by exact hcap), State.spelled_of_empty hsp]
  rfl

theorem walkEmit_byte_full (b : Byte) (hsp : s.sp = 0) (ho : s.rleLen.toNat ≤ s.outN.toNat) :
    walkEmit (b.setWidth 12) s = .raised (State.raised { s with finalByte := b } .outputOverrun s.outN.toNat) := by
  rw [walkEmit_byte b hsp, emitByte_full b (by exact ho)]

/-! ### Emission of a known code (R166, R172) -/

/-- What stands on the stack when `WalkEmit` of KWK begins: the pushed byte alone (R172). -/
theorem State.pops_pushed (h : s.sp = 0) (b : Byte) : (s.pushed b).pops (s.pushed b).sp.toNat = [b] := by
  have hsp : (s.pushed b).sp.toNat = 0 + 1 := by rw [State.pushed_sp, h]; rfl
  have h0 : s.sp.toNat = 0 := by rw [h]; rfl
  rw [hsp, State.pops_succ, State.pops_zero, State.readStk, State.pushed_stk, h0,
    slotRead_of_get (slotGet?_slotSet_same _ _ _)]

/-- With `tail` on the stack and room for both, the string and the tail are emitted (R171). -/
theorem walkEmit_spells (h : TableOk s) {c : Code} (hc : Known s c) (hsp : s.sp.toNat ≤ 1) {tail : List Byte}
    (htail : s.pops s.sp.toNat = tail) (hroom : s.outN.toNat + ((s.str c).length + tail.length) ≤ s.rleLen.toNat)
    (hcap : s.rleLen.toNat ≤ 4096) : ∃ d, walkEmit c s = .ok (s.spelled (s.str c ++ tail) d) := by
  subst htail
  rw [← List.length_append] at hroom
  rcases walkEmit_known h hc hsp (by omega) hcap with ⟨d, -, hw⟩ | ⟨-, -, -, -, hover, -⟩
  · exact ⟨d, hw⟩
  · omega

/-- Without room for both, OutputOverrun (R176). -/
theorem walkEmit_overruns (h : TableOk s) {c : Code} (hc : Known s c) (hsp : s.sp.toNat ≤ 1) {tail : List Byte}
    (htail : s.pops s.sp.toNat = tail) (ho : s.outN.toNat ≤ s.rleLen.toNat)
    (hover : s.rleLen.toNat < s.outN.toNat + ((s.str c).length + tail.length)) (hcap : s.rleLen.toNat ≤ 4096) :
    ∃ a n d k, walkEmit c s = .raised (State.raised
      { s with finalByte := s.strHead c, scr := a, outN := n, stk := d, sp := k } .outputOverrun s.rleLen.toNat) := by
  subst htail
  rw [← List.length_append] at hover
  rcases walkEmit_known h hc hsp ho hcap with ⟨-, hroom, -⟩ | ⟨a, n, d, k, -, hw⟩
  · omega
  · exact ⟨a, n, d, k, hw⟩

/-- The pushed byte is popped again: `spelled` sets the whole stack. -/
theorem State.spelled_pushed (b : Byte) (bytes : List Byte) (d : Slots 8) :
    (s.pushed b).spelled bytes d = s.spelled bytes d := rfl

/-- With KWK's record the code names the string of `old` and then `final` (R172, R179). -/
theorem State.str_kwk (hT : TableOk s) (hold : OldOk s) {code : Code} (hcode : code.toNat = s.entry.toNat)
    (htch : t.tch = (s.recorded code).tch) (htpr : t.tpr = (s.recorded code).tpr) (hfree : t.freeCount = s.freeCount) :
    t.str code = s.str s.old ++ [s.finalByte] := by
  have hroom : s.entry.toNat < Config.tableFull := hcode ▸ code.isLt
  obtain ⟨-, hnew⟩ := State.str_new hT hold hroom code hcode
  exact (State.str_congr htch htpr hfree code).trans hnew

/-! ### CLR -/

/-- The state from which CLR reads its literal (R168, R38). -/
def State.clearing (s : State) : State := { s.tableReset with needClear := true }

/-- The writes that end CLR (R169, R38). -/
def State.cleared (s : State) : State := { s with needClear := false, resetFix := s.resetFixAfterClear }

/-- CLR is a table reset, LIT0 on the next code, and the flags (R168, R169). -/
theorem exec_clr (s : State) : exec .clr s = (((getcode s.clearing).andThen fun t => firstLiteral t.code t).andThen
    fun t => .ok t.cleared).outcome := rfl

theorem entryInRange_first : entryInRange (BitVec.ofNat 13 Config.firstCode) = true := by decide

/-- After the table reset codes have nine bits, whatever the width was (R168, R112). -/
theorem exec_clr_read (hres : ResidueOk s) (hfit : s.bitPos + 9 ≤ 8 * s.inLen.toNat) :
    exec .clr s = ((firstLiteral (BitVec.ofNat 12 (s.inField s.bitPos 9)) (s.clearing.codeRead 9)).andThen
      fun t => .ok t.cleared).outcome := by
  have hget : getcode s.clearing = .ok (s.clearing.codeRead 9) :=
    getcode_codeRead (u := s.clearing) entryInRange_first codeWidth_first hres hfit
  rw [exec_clr, hget]
  rfl

/-- `IN` ends before the literal's nine bits do (R128). -/
theorem exec_clr_short (hres : ResidueOk s) (hip : s.ip.toNat ≤ s.inLen.toNat)
    (hshort : 8 * s.inLen.toNat < s.bitPos + 9) :
    exec .clr s = .next (State.raised { s.clearing with ip := s.inLen } .inputUnderrun s.inLen.toNat) := by
  have hget := getcode_short (s := s.clearing) codeWidth_first codeMask_first (by decide) (by decide) hres hip hshort
  rw [exec_clr, hget]
  rfl

/-- `resetFix` is set where the literal fills the block (R169). -/
theorem resetFixAfterClear_emitted (b : Byte) (h : s.outN.toNat < 8191) : (s.emitted b).resetFixAfterClear =
    if s.outN.toNat + 1 = s.rleLen.toNat then true else s.resetFix := by
  rw [State.resetFixAfterClear, State.emitted_outN, State.emitted_rleLen, State.emitted_resetFix, count_succ h]
  split_ifs with hfull <;> simp [hfull]

end Sys2Proof.Machine

open Sys2Proof Sys2Proof.Machine

/-- Settles O22: the check, then the emission with room or without. -/
theorem firstLiteral : Obligations.FirstLiteral := by
  unfold Obligations.FirstLiteral
  intro s code
  refine ⟨fun hbig => ?_, fun hlit hfull => ?_, fun hlit hroom hcap => ⟨_, ?_, stored_slotSet _ _ _⟩⟩
  · rw [exec, execLit0, firstLiteral_invalid hbig, State.raised_toNat]
    rfl
  · rw [exec, execLit0, firstLiteral_full hlit hfull, State.raised_toNat]
    rfl
  · rw [exec, execLit0, firstLiteral_room hlit hroom hcap]
    rfl

/-- Settles O23: a string of one byte is emitted, then recorded where the table has room. -/
theorem mainLoopLiteral : Obligations.MainLoopLiteral := by
  unfold Obligations.MainLoopLiteral
  refine fun s b hsp hcap hlow _ => ⟨fun ho hroom => ?_, fun ho hfull => ?_, fun ho => ?_⟩
  · have hw := walkEmit_byte_room b hsp ho hcap
    rw [exec_lit, emitRecord_room hw (Nat.le_of_succ_le hlow) hroom, State.spelled_of_empty hsp]
    exact ⟨_, _, _, rfl, stored_slotSet _ _ b, stored_slotSet _ _ b, stored_slotSet _ _ s.old⟩
  · have hw := walkEmit_byte_room b hsp ho hcap
    rw [exec_lit, emitRecord_full hw hfull, State.spelled_of_empty hsp]
    exact ⟨_, rfl, stored_slotSet _ _ b⟩
  · rw [exec_lit, emitRecord_raised (walkEmit_byte_full b hsp ho), State.raised_toNat]
    rfl

/-- Settles O24: the string of the code is emitted, then recorded where the table has room. -/
theorem tableReference : Obligations.TableReference := by
  unfold Obligations.TableReference
  intro s code hT h1 h2 hsp ho hcap
  have hk : Known s code := ⟨h2, Nat.ne_of_gt h1⟩
  have hsp0 : s.sp.toNat = 0 := by rw [hsp]; rfl
  have htail : s.pops s.sp.toNat = [] := by rw [hsp0, State.pops_zero]
  refine ⟨fun hroom hlt => ?_, fun hroom hfull => ?_, fun hover => ?_⟩
  · obtain ⟨d, hw⟩ := walkEmit_spells hT hk (by omega) htail hroom hcap
    rw [exec_ref, emitRecord_room hw (Nat.le_of_succ_le hT.low) hlt, List.append_nil, State.spelled_of_empty hsp]
    exact ⟨_, d, _, _, rfl, stored_slotPut _ _ _, stored_slotSet _ _ _, stored_slotSet _ _ _⟩
  · obtain ⟨d, hw⟩ := walkEmit_spells hT hk (by omega) htail hroom hcap
    rw [exec_ref, emitRecord_full hw hfull, List.append_nil, State.spelled_of_empty hsp]
    exact ⟨_, d, rfl, stored_slotPut _ _ _⟩
  · obtain ⟨a, n, d, k, hw⟩ := walkEmit_overruns hT hk (by omega) htail ho hover hcap
    rw [exec_ref, emitRecord_raised hw, State.raised_toNat]
    exact ⟨a, n, d, k, rfl⟩

/-- Settles O25: the string of `old` and then `final` are emitted, and the record makes them the new code's string. -/
theorem kwKwK : Obligations.KwKwK := by
  unfold Obligations.KwKwK
  intro s code hT hold hfinal hcode hsp ho hcap
  have hroomT : s.entry.toNat < Config.tableFull := hcode ▸ code.isLt
  have hT' : TableOk (s.pushed s.finalByte) := hT.congr rfl rfl rfl
  have hsp' : (s.pushed s.finalByte).sp.toNat ≤ 1 := by rw [State.pushed_sp, hsp]; decide
  have hstr : (s.pushed s.finalByte).str s.old = s.str s.old :=
    State.str_congr (s := s) (t := s.pushed s.finalByte) rfl rfl rfl _
  have htail := State.pops_pushed hsp s.finalByte
  have hlen : (s.str s.old ++ [s.finalByte]).length = (s.str s.old).length + 1 := List.length_append
  rw [exec_kwk code hsp, ← hfinal]
  refine ⟨fun hroom => ?_, fun hover => ?_⟩
  · obtain ⟨d, hw⟩ := walkEmit_spells hT' (c := s.old) hold hsp' htail (by rw [hstr]; exact hroom) hcap
    have hhead : (s.str s.old ++ [s.finalByte]).headD 0 = s.finalByte := by
      rw [State.str_eq_cons hT hold, hfinal]; rfl
    rw [hstr, State.spelled_pushed, State.spelled_of_empty hsp, hhead, hlen] at hw
    rw [emitRecord_room hw (Nat.le_of_succ_le hT.low) hroomT]
    exact ⟨_, d, _, _, rfl, stored_slotPut _ _ _, stored_slotSet _ _ _, stored_slotSet _ _ _,
      State.str_kwk hT hold hcode rfl rfl rfl⟩
  · obtain ⟨a, n, d, k, hw⟩ := walkEmit_overruns hT' (c := s.old) hold hsp' htail ho
      (by rw [hstr]; exact hover) hcap
    have hhead : (s.pushed s.finalByte).strHead s.old = s.finalByte := by rw [State.strHead, hstr, hfinal]; rfl
    rw [emitRecord_raised hw, State.raised_toNat, hhead]
    exact ⟨a, n, d, k, rfl⟩

/-- Settles O26: the literal is read behind the table reset, and emitted, refused, or missing. -/
theorem clearCode : Obligations.ClearCode := by
  unfold Obligations.ClearCode
  intro s hres hip ho hcap
  have hv : (BitVec.ofNat 12 (s.inField s.bitPos 9)).toNat = s.inField s.bitPos 9 := toNat_codeField _ _ (by decide)
  refine ⟨fun hfit hlit => ?_, fun hfit hbig => ?_, fun hshort => ?_⟩
  · have hlt : s.outN.toNat < 8191 := by omega
    have hemit := firstLiteral_room (s := s.clearing.codeRead 9) (Nat.le_trans (Nat.le_of_eq hv) hlit) ho hcap
    rw [exec_clr_read hres hfit, hemit, Res.ok_andThen, Res.ok_outcome, State.cleared,
      resetFixAfterClear_emitted (s := (s.clearing.codeRead 9).firstPair _) _ hlt, State.firstPair,
      BitVec.setWidth_ofNat_of_le (by decide)]
    dsimp only [State.emitted]
    exact ⟨_, rfl, stored_slotSet _ _ _⟩
  · rw [exec_clr_read hres hfit, firstLiteral_invalid (by rw [hv]; exact hbig), hv]
    rfl
  · rw [exec_clr_short hres hip hshort, State.raised_toNat, BitVec.setWidth_eq]
    rfl

/-- Settles O27: the class of a code above `entry`, and the fault that is all BAD does. -/
theorem badCode : Obligations.BadCode := by
  unfold Obligations.BadCode
  refine fun s code => ⟨fun hlow hbad => ?_, ?_⟩
  · have := code.isLt
    exact classify_bad _ (entryInRange_iff.mpr ⟨hlow, by rw [Config.tableFull]; omega⟩) hbad
  · rw [exec, execBad, raise, State.raised_toNat]
    rfl

/-- Settles O28: the class of 0x0100 in LZW/1, and the fault that is all RSV does. -/
theorem reservedCode : Obligations.ReservedCode := by
  unfold Obligations.ReservedCode
  exact fun s => ⟨fun hv => classify_rsv hv _ rfl, rfl⟩

end

section
/-! PROOFS. What the code operations keep in any state (R160, R40), and the strings that the table holds (R177 to
R179). -/

namespace Sys2Proof.Machine

variable {s t v : State}

/-! ### Results -/

theorem Res.Holds.imp {P Q : State → Prop} {r : Res} (h : r.Holds P) (hPQ : ∀ x, P x → Q x) : r.Holds Q := by
  cases r with
  | ok x => exact hPQ x h
  | raised x => exact hPQ x h
  | fault f => trivial
  | refused f => trivial

/-- A part that keeps `P`, then a rest that makes `Q` of it. -/
theorem Res.Holds.andThen {P Q : State → Prop} {r : Res} {k : State → Res} (h : r.Holds P)
    (hok : ∀ x, P x → (k x).Holds Q) (hraised : ∀ x, P x → Q x) : (r.andThen k).Holds Q := by
  cases r with
  | ok x => exact hok x h
  | raised x => exact hraised x h
  | fault f => trivial
  | refused f => trivial

theorem Res.Holds.of_outcome {P : State → Prop} {r : Res} (h : r.Holds P) (ho : r.outcome = .next t) : P t := by
  rcases Res.outcome_next.mp ho with rfl | rfl <;> exact h

/-! ### What is kept -/

/-- The registers and files that no code operation writes are as they were. -/
def RegsKept (s t : State) : Prop := t = { s with
  phase := t.phase, stage := t.stage, cause := t.cause, info := t.info, ip := t.ip, startBit := t.startBit
  lastByte := t.lastByte, entry := t.entry, old := t.old, finalByte := t.finalByte, code := t.code
  resetFix := t.resetFix, needClear := t.needClear, outN := t.outN, sp := t.sp, tch := t.tch, tpr := t.tpr
  stk := t.stk, scr := t.scr }

/-- `out_n` does not fall, and `SCR` changes in the slots it has passed alone (R176). -/
structure EmitsOnly (s t : State) : Prop where
  outN : s.outN.toNat ≤ t.outN.toNat
  scr  : ∀ j, j < s.outN.toNat ∨ t.outN.toNat ≤ j → slotGet? t.scr j = slotGet? s.scr j

/-- No table slot is written. -/
def TableKept (s t : State) : Prop := t.tch = s.tch ∧ t.tpr = s.tpr

/-- The table changes in the slot of `entry` alone (R173). -/
def SlotsKept (s t : State) : Prop :=
  ∀ j, j ≠ s.entry.toNat - 256 → slotGet? t.tch j = slotGet? s.tch j ∧ slotGet? t.tpr j = slotGet? s.tpr j

/-- The input position and `resetFix` are as they were. -/
def PositionKept (s t : State) : Prop :=
  t.ip = s.ip ∧ t.startBit = s.startBit ∧ t.lastByte = s.lastByte ∧ t.resetFix = s.resetFix

/-- What every code operation keeps, however it ends. -/
structure CodeKept (s t : State) : Prop where
  regs  : RegsKept s t
  emits : EmitsOnly s t
  slots : SlotsKept s t

theorem RegsKept.trans (h1 : RegsKept s v) (h2 : RegsKept v t) : RegsKept s t := by
  unfold RegsKept at *
  rw [h1] at h2
  exact h2

theorem TableKept.slotsKept (h : TableKept s t) : SlotsKept s t := by
  obtain ⟨htch, htpr⟩ := h
  intro j _
  rw [htch, htpr]
  exact ⟨rfl, rfl⟩

theorem EmitsOnly.of_eq (hout : t.outN = s.outN) (hscr : t.scr = s.scr) : EmitsOnly s t :=
  ⟨by rw [hout], fun _ _ => by rw [hscr]⟩

theorem EmitsOnly.trans (h1 : EmitsOnly s v) (h2 : EmitsOnly v t) : EmitsOnly s t :=
  ⟨Nat.le_trans h1.outN h2.outN, fun j hj => by
    have := h1.outN
    have := h2.outN
    rw [h2.scr j (by omega), h1.scr j (by omega)]⟩

/-- One byte more, where `SCR` has the slot (R176). -/
theorem EmitsOnly.emitted (h : EmitsOnly s t) (hcap : t.outN.toNat < Config.scratchCap) (b : Byte) :
    EmitsOnly s (t.emitted b) := by
  obtain ⟨hle, hscr⟩ := h
  rw [Config.scratchCap] at hcap
  have hsucc : (t.emitted b).outN.toNat = t.outN.toNat + 1 := count_succ (by omega)
  refine ⟨by omega, fun j hj => ?_⟩
  rw [State.emitted_scr, slotGet?_slotSet_other _ _ (by omega), hscr j (by omega)]

/-! ### The parts -/

/-- What an emission keeps: all that a code operation keeps, and the table, `entry` and the position. -/
structure EmissionKept (s t : State) : Prop where
  regs     : RegsKept s t
  emits    : EmitsOnly s t
  table    : TableKept s t
  entry    : t.entry = s.entry
  position : PositionKept s t

theorem EmissionKept.refl (s : State) : EmissionKept s s :=
  ⟨rfl, .of_eq rfl rfl, ⟨rfl, rfl⟩, rfl, rfl, rfl, rfl, rfl⟩

theorem EmissionKept.codeKept (h : EmissionKept s t) : CodeKept s t := ⟨h.regs, h.emits, h.table.slotsKept⟩

theorem keptByEmission_emissionKept (s : State) : KeptByEmission (EmissionKept s) where
  push _ _ h _ := ⟨h.regs.trans rfl, ⟨h.emits.outN, h.emits.scr⟩, h.table, h.entry, h.position⟩
  emit _ b h _ hcap := ⟨h.regs.trans rfl, h.emits.emitted hcap b, h.table, h.entry, h.position⟩
  sp _ _ h := ⟨h.regs.trans rfl, ⟨h.emits.outN, h.emits.scr⟩, h.table, h.entry, h.position⟩
  final _ _ h := ⟨h.regs.trans rfl, ⟨h.emits.outN, h.emits.scr⟩, h.table, h.entry, h.position⟩
  raise _ _ _ h := ⟨h.regs.trans rfl, ⟨h.emits.outN, h.emits.scr⟩, h.table, h.entry, h.position⟩

/-- LIT0's part emits one byte at most (R164). -/
theorem firstLiteral_kept (code : Code) (s : State) : (firstLiteral code s).Holds (EmissionKept s) := by
  have hpair : EmissionKept s (s.firstPair code) :=
    ⟨rfl, .of_eq rfl rfl, ⟨rfl, rfl⟩, rfl, rfl, rfl, rfl, rfl⟩
  by_cases hc : 255 < code.toNat
  · rw [firstLiteral_invalid hc]
    exact (keptByEmission_emissionKept s).raise s _ _ (.refl s)
  · rw [firstLiteral_literal (Nat.le_of_not_lt hc)]
    exact (keptByEmission_emissionKept s).emitByte _ hpair

/-- Record writes the slot of `entry` alone (R173). -/
theorem EmissionKept.recorded (h : EmissionKept s t) (d : Code) : CodeKept s (t.recorded d) := by
  obtain ⟨htch, htpr⟩ := h.table
  refine ⟨h.regs.trans rfl, ⟨h.emits.outN, h.emits.scr⟩, fun j hj => ?_⟩
  rw [State.recorded_tch, State.recorded_tpr, h.entry, slotGet?_slotSet_other _ _ hj, slotGet?_slotSet_other _ _ hj,
    htch, htpr]
  exact ⟨rfl, rfl⟩

theorem record_kept (h : EmissionKept s v) (d : Code) :
    (record d v).Holds fun t => CodeKept s t ∧ PositionKept s t := by
  rcases record_cases d v with ⟨-, -, hr⟩ | ⟨-, hr⟩ | ⟨-, hr⟩ <;> rw [hr]
  · exact ⟨h.recorded d, h.position⟩
  · have hraised := (keptByEmission_emissionKept s).raise v .tableOverflow v.entry.toNat h
    exact ⟨hraised.codeKept, hraised.position⟩
  · trivial

/-! ### The operations -/

/-- LIT, REF and KWK, from a state that an emission has reached (R165, R166, R172). -/
theorem emitRecord_kept {c d : Code} (h : EmissionKept s v) (hnext : emitRecord c d v = .next t) :
    CodeKept s t ∧ PositionKept s t :=
  (((keptByEmission_emissionKept s).walkEmit c h).andThen (fun _ hx => record_kept hx d)
    fun _ hx => ⟨hx.codeKept, hx.position⟩).of_outcome hnext

/-- KWK pushes a byte, and is then as REF (R172). -/
theorem kwk_kept {code : Code} (hnext : exec (.kwk code) s = .next t) : CodeKept s t ∧ PositionKept s t := by
  rw [exec, execKwk] at hnext
  cases hp : push s.finalByte s with
  | none => rw [hp] at hnext; cases hnext
  | some x =>
    rw [hp] at hnext
    obtain ⟨hsp, rfl⟩ := push_some hp
    exact emitRecord_kept ((keptByEmission_emissionKept s).push s _ (.refl s) hsp) hnext

/-- LIT0 (R164) records nothing. -/
theorem lit0_kept {code : Code} (hnext : exec (.lit0 code) s = .next t) : EmissionKept s t := by
  rw [exec, execLit0] at hnext
  refine Res.Holds.of_outcome ((firstLiteral_kept code s).andThen (fun x hx => ?_) fun _ hx => hx) hnext
  exact ⟨hx.regs.trans rfl, ⟨hx.emits.outN, hx.emits.scr⟩, hx.table, hx.entry, hx.position⟩

/-- What CLR keeps: it resets `entry`, and writes no slot of the table (R168, R255). -/
structure ClearKept (s t : State) : Prop where
  regs  : RegsKept s t
  emits : EmitsOnly s t
  table : TableKept s t

theorem TableKept.trans (h1 : TableKept s v) (h2 : TableKept v t) : TableKept s t := by
  obtain ⟨htch1, htpr1⟩ := h1
  obtain ⟨htch2, htpr2⟩ := h2
  exact ⟨htch2.trans htch1, htpr2.trans htpr1⟩

theorem ClearKept.emission (h1 : ClearKept s v) (h2 : EmissionKept v t) : ClearKept s t :=
  ⟨h1.regs.trans h2.regs, h1.emits.trans h2.emits, h1.table.trans h2.table⟩

/-- GETCODE of the literal's code moves the position alone (R120). -/
theorem getcode_clearing_kept (s : State) : (getcode s.clearing).Holds (ClearKept s) := by
  obtain ⟨hok, hraised, -⟩ := getcode_frame s.clearing
  cases hg : getcode s.clearing with
  | ok x => obtain ⟨a, b, c, d, rfl⟩ := hok x hg; exact ⟨rfl, .of_eq rfl rfl, rfl, rfl⟩
  | raised x => obtain ⟨a, rfl⟩ := hraised x hg; exact ⟨rfl, .of_eq rfl rfl, rfl, rfl⟩
  | fault f => trivial
  | refused r => trivial

theorem clr_kept (hnext : exec .clr s = .next t) : ClearKept s t := by
  have hliteral := (getcode_clearing_kept s).andThen
    (fun x hx => (firstLiteral_kept x.code x).imp fun _ hy => hx.emission hy) fun _ hx => hx
  rw [exec_clr] at hnext
  refine Res.Holds.of_outcome (hliteral.andThen (fun x hx => ?_) fun _ hx => hx) hnext
  exact ⟨hx.regs.trans rfl, ⟨hx.emits.outN, hx.emits.scr⟩, hx.table⟩

/-! ### What a code defines -/

/-- A code of LIT or REF that ends without a fault has emitted its string and recorded it (R165, R166, R173). -/
theorem emitRecord_recorded (h : TableOk s) {code : Code} (hk : Known s code) (hsp : s.sp = 0)
    (ho : s.outN.toNat ≤ s.rleLen.toNat) (hcap : s.rleLen.toNat ≤ 4096) (hnext : emitRecord code code s = .next t)
    (hp : t.phase ≠ .fault) :
    s.entry.toNat < Config.tableFull ∧ ∃ d, t = (s.spelled (s.str code) d).recorded code := by
  have hsp0 : s.sp.toNat = 0 := by rw [hsp]; rfl
  rcases walkEmit_known h hk (by omega) ho hcap with ⟨d, -, hw⟩ | ⟨a, n, d, k, -, hw⟩
  · rw [hsp0, State.pops_zero, List.append_nil] at hw
    rcases Nat.lt_or_ge s.entry.toNat Config.tableFull with hlt | hfull
    · rw [emitRecord_room hw (Nat.le_of_succ_le h.low) hlt] at hnext
      exact ⟨hlt, d, (Host.Outcome.next.inj hnext).symm⟩
    · rw [emitRecord_full hw (Nat.le_antisymm h.high hfull)] at hnext
      cases hnext
      exact absurd rfl hp
  · rw [emitRecord_raised hw] at hnext
    cases hnext
    exact absurd rfl hp

end Sys2Proof.Machine

open Sys2Proof Sys2Proof.Machine

/-- Settles O29: operation by operation, what is kept is read off the parts. -/
theorem codeFrame : Obligations.CodeFrame := by
  unfold Obligations.CodeFrame
  intro s t i hi hnext
  suffices h : CodeKept s t ∧ ((∃ c, i = .lit0 c) ∨ i = .clr → TableKept s t) ∧ (i ≠ .clr → PositionKept s t) by
    obtain ⟨⟨hregs, ⟨hout, hscr⟩, hslots⟩, htable, hpos⟩ := h
    exact ⟨hregs, hout, hscr, hslots, htable, hpos⟩
  have hfault : ∀ c v, EmissionKept s (s.raised c v) := fun c v =>
    (keptByEmission_emissionKept s).raise s c v (.refl s)
  rcases hi with ⟨c, rfl⟩ | ⟨b, rfl⟩ | ⟨c, rfl⟩ | ⟨c, rfl⟩ | rfl | ⟨c, rfl⟩ | rfl
  · have h := lit0_kept hnext
    exact ⟨h.codeKept, fun _ => h.table, fun _ => h.position⟩
  · obtain ⟨h, hpos⟩ := emitRecord_kept (.refl s) (exec_lit b s ▸ hnext)
    exact ⟨h, by simp, fun _ => hpos⟩
  · obtain ⟨h, hpos⟩ := emitRecord_kept (.refl s) (exec_ref c s ▸ hnext)
    exact ⟨h, by simp, fun _ => hpos⟩
  · obtain ⟨h, hpos⟩ := kwk_kept hnext
    exact ⟨h, by simp, fun _ => hpos⟩
  · have h := clr_kept hnext
    exact ⟨⟨h.regs, h.emits, h.table.slotsKept⟩, fun _ => h.table, fun hne => absurd rfl hne⟩
  · obtain rfl := Host.Outcome.next.inj hnext
    exact ⟨(hfault _ _).codeKept, by simp, fun _ => (hfault _ _).position⟩
  · obtain rfl := Host.Outcome.next.inj hnext
    exact ⟨(hfault _ _).codeKept, by simp, fun _ => (hfault _ _).position⟩

/-- Settles O31: the record's lemmas, on the state that has emitted the string. -/
theorem recordDefinesTheString : Obligations.RecordDefinesTheString := by
  unfold Obligations.RecordDefinesTheString
  intro s t i code hT hold hsp hcap ho hi hnext hp
  obtain ⟨hk, hrun⟩ : Known s code ∧ exec i s = emitRecord code code s := by
    rcases hi with ⟨hlit, rfl⟩ | ⟨h1, h2, rfl⟩
    · have hcode : (code.setWidth 8).setWidth 12 = code := by
        apply BitVec.eq_of_toNat_eq
        rw [code_byte, BitVec.toNat_setWidth, Nat.mod_eq_of_lt (Nat.lt_succ_of_le hlit)]
      rw [exec_lit, hcode]
      exact ⟨hT.known_lit hlit, rfl⟩
    · exact ⟨⟨h2, Nat.ne_of_gt h1⟩, rfl⟩
  obtain ⟨hroom, d, rfl⟩ := emitRecord_recorded hT hk hsp ho hcap (hrun ▸ hnext) hp
  have hT' : TableOk (s.spelled (s.str code) d) := hT.congr rfl rfl rfl
  have hstr : ∀ c, (s.spelled (s.str code) d).str c = s.str c := State.str_congr rfl rfl rfl
  have hentry : (s.entry.setWidth 12).toNat = s.entry.toNat := by
    rw [BitVec.toNat_setWidth]
    exact Nat.mod_eq_of_lt hroom
  obtain ⟨-, hnew⟩ := State.str_new hT' hold hroom code hentry
  refine ⟨hT'.recorded hold hroom code, count_succ (Nat.lt_trans hroom (by decide)), ?_, fun c hc => ?_⟩
  · rw [hnew]
    exact congrArg (· ++ [s.strHead code]) (hstr s.old)
  · rw [State.str_recorded hT' hold hroom code hc, hstr]

/-- Settles O30: `State.str_length`, and the string of a recorded code has one byte more than that of its chain's next
code. -/
theorem stringLength : Obligations.StringLength := by
  unfold Obligations.StringLength
  intro s c hT h1 h2
  have hk : Known s c := ⟨h2, Nat.ne_of_gt h1⟩
  obtain ⟨hparent, -⟩ := hT.parent hk (by omega)
  have hlen : (s.str c).length = (s.str (s.readTpr (c.toNat - 256))).length + 1 := by
    rw [State.str_code hT hk (by omega), List.length_append, List.length_singleton]
  obtain ⟨hpos, -⟩ := State.str_length hT hparent
  obtain ⟨-, hmax⟩ := State.str_length hT hk
  omega

end

section
/-! PROOFS. The operations of the block sequencer: the thread headers (R191, R192), the checks of a block header
(R193 to R195), the start of the paths without LZW (R201 to R203), and CRCBLK, EMITBLK and VERIFY (R204 to R207). -/

namespace Sys2Proof.Machine

variable {s u : State}

/-! ### Numbers that are registers -/

theorem toNat_beq {w : Nat} (x y : BitVec w) : (x.toNat == y.toNat) = (x == y) := by
  rw [Bool.eq_iff_iff, beq_iff_eq, beq_iff_eq, BitVec.toNat_inj]

/-- `rle_used` says whether the length is a whole block (R39, R196). -/
theorem rleUsedOf_eq_bne (len : BitVec 16) : rleUsedOf len = (len != 4096) := congrArg (! ·) (toNat_beq len 4096)

/-- `info` of a CrcMismatch holds both words, the accumulator above (R207). -/
theorem crcMismatch_info (acc hdr : BitVec 16) : BitVec.ofNat 32 ((acc.toNat <<< 16) ||| hdr.toNat) = acc ++ hdr := by
  rw [← BitVec.toNat_append, BitVec.ofNat_toNat, BitVec.setWidth_eq]

/-- `InputUnderrun(IN_LEN)` (R226). -/
theorem underrun_outcome (s : State) :
    (underrun s).outcome = .next { s with cause := 6, info := s.inLen, phase := .fault } := by
  rw [underrun, raise, State.raised_toNat, BitVec.setWidth_eq]
  rfl

/-! ### The block loop -/

/-- The three exits of the block loop (R190, R206). -/
theorem afterBlock_eq (s : State) : s.afterBlock =
    if s.uncompRemaining = 0 then (if s.variant = .lzw1 then .verify else .done) else .bhdr := by
  have hzero : s.uncompRemaining = 0 ↔ s.uncompRemaining.toNat = 0 := BitVec.toNat_inj.symm
  rcases afterBlock_cases s with ⟨h, h0⟩ | ⟨h, h0, hv⟩ | ⟨h, h0, hv⟩
  · rw [h, if_neg (mt hzero.mp (Nat.ne_of_gt h0))]
  · rw [h, if_pos (hzero.mpr h0), if_pos hv]
  · rw [h, if_pos (hzero.mpr h0), hv]
    rfl

/-- `uncomp_remaining` after EMITBLK, where the block is no longer than what is left (R205). -/
theorem emit_remaining (h : s.writeLen.toNat ≤ s.uncompRemaining.toNat) :
    (s.uncompRemaining - s.writeLen.setWidth 32).toNat = s.uncompRemaining.toNat - s.writeLen.toNat := by
  have hcount : (s.writeLen.setWidth 32).toNat = s.writeLen.toNat := BitVec.toNat_setWidth_of_le (by decide)
  rw [BitVec.toNat_sub_of_le (by rw [BitVec.le_def, hcount]; exact h), hcount]

/-! ### The check of a block header -/

theorem checkRleLen_bad (h : Config.block < s.rleLen.toNat) : (checkRleLen s).outcome =
    .next { s with cause := 7, info := s.rleLen.setWidth 32, phase := .fault } := by
  rw [checkRleLen, if_pos h, raise, State.raised_toNat]
  rfl

theorem checkRleLen_good (h : s.rleLen.toNat ≤ Config.block) : (checkRleLen s).outcome =
    .next { s with
      rleUsed := rleUsedOf s.rleLen, writeLen := writeLenOf s.uncompRemaining
      phase := .payload, stage := .choose } := by
  rw [checkRleLen, if_neg (Nat.not_lt.mpr h)]
  rfl

theorem exec_bhdr1_badFlag (rleLen : BitVec 16) {flag : Byte} (h : 1 < flag.toNat) : exec (.bhdr1 rleLen flag) s =
    .next { s with rleLen := rleLen, cause := 5, info := flag.setWidth 32, phase := .fault } := by
  rw [exec, execBhdr1, if_pos h, raise, State.raised_toNat]
  rfl

/-- With a good flag BHDR1 makes `lzw_length` undef and checks the length (R193). -/
theorem exec_bhdr1_goodFlag (rleLen : BitVec 16) {flag : Byte} (h : flag.toNat ≤ 1) : exec (.bhdr1 rleLen flag) s =
    (checkRleLen (State.lzwLengthUndef { s with rleLen := rleLen, lzwUsed := flag == 1 })).outcome := by
  rw [← toNat_beq, exec, execBhdr1, if_neg (Nat.not_lt.mpr h)]
  rfl

theorem State.setLzwLength_rleLen (s : State) (o : Option (BitVec 16)) : (s.setLzwLength o).rleLen = s.rleLen := by
  cases o <;> rfl

theorem State.setLzwLength_uncompRemaining (s : State) (o : Option (BitVec 16)) :
    (s.setLzwLength o).uncompRemaining = s.uncompRemaining := by
  cases o <;> rfl

/-- What BHDR2 writes before the length's check (R194). -/
def State.wordFields (s : State) (word : BitVec 16) (o : Option (BitVec 16)) : State :=
  State.setLzwLength { s with lzwUsed := word.getLsbD 15, rleLen := wordRleLen word } o

theorem State.wordFields_rleLen (s : State) (word : BitVec 16) (o : Option (BitVec 16)) :
    (s.wordFields word o).rleLen = wordRleLen word := State.setLzwLength_rleLen _ o

/-- A length above 4096 in the word's low 13 bits (R194, R195). -/
theorem exec_bhdr2_bad (word : BitVec 16) (o : Option (BitVec 16)) (h : Config.block < word.toNat % 8192) :
    exec (.bhdr2 word o) s = .next { s.wordFields word o with
      cause := 7, info := BitVec.ofNat 32 (word.toNat % 8192), phase := .fault } := by
  rw [← wordRleLen_toNat, ← s.wordFields_rleLen word o] at h ⊢
  rw [BitVec.ofNat_toNat]
  exact checkRleLen_bad h

/-- A length within a block in the word's low 13 bits (R194, R195). -/
theorem exec_bhdr2_good (word : BitVec 16) (o : Option (BitVec 16)) (h : word.toNat % 8192 ≤ Config.block) :
    exec (.bhdr2 word o) s = .next { s.wordFields word o with
      rleUsed := word.toNat % 8192 != 4096, writeLen := writeLenOf s.uncompRemaining
      phase := .payload, stage := .choose } := by
  have hrem : (s.wordFields word o).uncompRemaining = s.uncompRemaining := State.setLzwLength_uncompRemaining _ o
  rw [← wordRleLen_toNat, ← s.wordFields_rleLen word o] at h ⊢
  rw [← hrem]
  exact checkRleLen_good h

/-! ### The paths without LZW -/

/-- R201 writes `entry` and `resetFix`, in LZW/2 alone. -/
theorem State.resetWithoutLzw_eq (s : State) : s.resetWithoutLzw = { s with
    entry := if s.variant = .lzw2 then 0x0101 else s.entry
    resetFix := if s.variant = .lzw2 then false else s.resetFix } := by
  obtain hv | hv : s.variant = .lzw1 ∨ s.variant = .lzw2 := by cases s.variant <;> simp
  · have hne : s.variant ≠ .lzw2 := by rw [hv]; decide
    rw [if_neg hne, if_neg hne]
    exact s.resetWithoutLzw_lzw1 hv
  · rw [if_pos hv, if_pos hv]
    exact s.resetWithoutLzw_lzw2 hv

/-- R201 moves neither end of the span (R202, R203). -/
theorem spanFits_resetWithoutLzw {n : Nat} :
    s.resetWithoutLzw.spanFits n = true ↔ s.ip.toNat + n ≤ s.inLen.toNat := by
  simp [State.spanFits]

/-- The step that starts the RLE-only path (R202). -/
theorem step_rleOnly (hm : Moves s u) (hp : u.phase = .payload) (hs : u.stage = .choose) (hl : u.lzwUsed = false)
    (hr : u.rleUsed = true) : step s = (rleOnlyStart u).outcome :=
  step_settled hm (by rw [fetch_choose hp hs, choosePath, hl, hr]; rfl)

end Sys2Proof.Machine

open Sys2Proof Sys2Proof.Machine

/-- Settles O11: both headers end in the block loop's test (`afterBlock_eq`). -/
theorem threadHeaders : Obligations.ThreadHeaders := by
  unfold Obligations.ThreadHeaders
  intro s crc volume escape
  refine ⟨fun hv => ?_, fun hv => ?_⟩
  · rw [exec, execThdr1, State.headerDone, afterBlock_eq]
    simp [hv]
  · rw [exec, execThdr2, State.headerDone, afterBlock_eq]
    simp [hv]

/-- Settles O14: the flag, then the length's check in its two cases. -/
theorem blockHeader1 : Obligations.BlockHeader1 := by
  unfold Obligations.BlockHeader1
  intro s rleLen flag
  refine ⟨exec_bhdr1_badFlag rleLen, fun hflag hbad => ⟨s.lzwLengthUndef.lzwLength, ?_⟩,
    fun hflag hgood => ⟨s.lzwLengthUndef.lzwLength, ?_⟩⟩ <;> rw [exec_bhdr1_goodFlag rleLen hflag]
  · exact checkRleLen_bad hbad
  · rw [← rleUsedOf_eq_bne]
    exact checkRleLen_good hgood

/-- Settles O15: the length's check in its two cases, behind a length that was read or is undef. -/
theorem blockHeader2 : Obligations.BlockHeader2 := by
  unfold Obligations.BlockHeader2
  intro s word len
  refine ⟨fun hbit hbad => ?_, fun hbit hgood => ?_, fun hbit hbad => ⟨s.lzwLengthUndef.lzwLength, ?_⟩,
    fun hbit hgood => ⟨s.lzwLengthUndef.lzwLength, ?_⟩⟩ <;> rw [← hbit]
  · exact exec_bhdr2_bad word (some len) hbad
  · exact exec_bhdr2_good word (some len) hgood
  · exact exec_bhdr2_bad word none hbad
  · exact exec_bhdr2_good word none hgood

/-- Settles O16: R201, then the bound check of the whole span, and the slots that the copy gives. -/
theorem rawBlock : Obligations.RawBlock := by
  unfold Obligations.RawBlock
  intro s
  have hspan : s.resetWithoutLzw.spanFits Config.block = true ↔ s.ip.toNat + 4096 ≤ s.inLen.toNat :=
    spanFits_resetWithoutLzw
  refine ⟨fun hfit => ⟨slotsOfFn Config.block fun i => s.readIn (s.ip.toNat + i), ?_, fun j hj => ?_⟩,
    fun hshort => ?_⟩
  · rw [exec, execRawblk, rawCopy, if_pos (hspan.mpr hfit), rawBlock_eq, afterPayload_eq, State.resetWithoutLzw_eq]
    rfl
  · exact (slotGet?_slotsOfFn _ _ _).trans (if_pos hj)
  · rw [exec, execRawblk, rawCopy, if_neg (mt hspan.mp (Nat.not_le.mpr hshort)), underrun_outcome,
      State.resetWithoutLzw_eq]

/-- Settles O18: R201, then the bound check of the whole span. -/
theorem rleOnlyStart : Obligations.RleOnlyStart := by
  unfold Obligations.RleOnlyStart
  intro s u hm hp hs hl hr
  rw [step_rleOnly hm hp hs hl hr, Machine.rleOnlyStart]
  refine ⟨fun hfit => ?_, fun hshort => ?_⟩
  · rw [if_pos (spanFits_resetWithoutLzw.mpr hfit), State.resetWithoutLzw_eq]
    rfl
  · rw [if_neg (mt spanFits_resetWithoutLzw.mp (Nat.not_le.mpr hshort)), underrun_outcome, State.resetWithoutLzw_eq]

/-- Settles O39: the fold over the bytes of `BLK` is the fold over its indices. -/
theorem crcBlock : Obligations.CrcBlock := by
  unfold Obligations.CrcBlock
  intro s
  rw [exec, execCrcblk, crcBuf, State.blkBytes, List.foldl_map]
  rfl

/-- Settles O40: `emit_remaining`, by which the block loop goes on exactly where the block was not the last one. -/
theorem emitBlock : Obligations.EmitBlock := by
  unfold Obligations.EmitBlock
  intro s h
  have hlast : s.uncompRemaining - s.writeLen.setWidth 32 = 0 ↔ ¬ s.writeLen.toNat < s.uncompRemaining.toNat := by
    rw [← BitVec.toNat_inj, emit_remaining h, Nat.not_lt]
    exact Nat.sub_eq_zero_iff_le
  refine ⟨_, ?_, emit_remaining h⟩
  rw [exec, execEmitblk, State.headerDone, afterBlock_eq]
  simp only [hlast, ite_not]
  rfl

/-- Settles O41: the comparison's two cases. -/
theorem verifyCrc : Obligations.VerifyCrc := by
  unfold Obligations.VerifyCrc
  intro s
  refine ⟨fun heq => if_pos heq, fun hne => ?_⟩
  rw [exec, execVerify, if_neg hne, raise, State.raised, crcMismatch_info]
  rfl

end

section
/-! PROOFS. How a step ends in each phase, in any state (R190), and the whole blocks that `OUT` holds while a block is
being decoded (R205, R206, R240). -/

namespace Sys2Proof.Machine

variable {s u t v : State}

/-! ### The phase after each phase -/

/-- THDR ends in the block loop's test or in a fault (R190). -/
theorem thdr_ends (hm : Moves s u) (hp : u.phase = .thdr) (hst : step s = .next t) :
    t.phase = u.afterBlock ∨ t.phase = .fault := by
  rcases step_moves hm with ⟨i, v, hf, hx⟩ | ⟨o, hf, hx⟩ <;> rw [fetch_thdr hp] at hf <;> rw [hst] at hx
  · obtain ⟨w, n, hd, rfl⟩ := fetchHeader_run hf
    rcases decode_thdr hd with ⟨-, crc, volume, escape, rfl⟩ | ⟨-, volume, escape, rfl⟩ <;> cases hx <;> exact .inl rfl
  · subst hx
    obtain rfl := fetchHeader_settled hf
    exact .inr rfl

/-- The length's check goes to PAYLOAD with a length within a block, or to FAULT (R195). -/
theorem checkRleLen_ends (h : (checkRleLen v).outcome = .next t) :
    t.phase = .payload ∧ t.rleLen.toNat ≤ Config.block ∨ t.phase = .fault := by
  rcases Nat.lt_or_ge Config.block v.rleLen.toNat with hbad | hgood
  · rw [checkRleLen_bad hbad] at h
    cases h
    exact .inr rfl
  · rw [checkRleLen_good hgood] at h
    cases h
    exact .inl ⟨rfl, hgood⟩

/-- BHDR ends in the length's check or in a fault before it (R193, R194). -/
theorem bhdr_ends (hm : Moves s u) (hp : u.phase = .bhdr) (hst : step s = .next t) :
    t.phase = .payload ∧ t.rleLen.toNat ≤ Config.block ∨ t.phase = .fault := by
  rcases step_moves hm with ⟨i, v, hf, hx⟩ | ⟨o, hf, hx⟩ <;> rw [fetch_bhdr hp] at hf <;> rw [hst] at hx
  · obtain ⟨w, n, hd, rfl⟩ := fetchHeader_run hf
    rcases decode_bhdr hd with ⟨-, len, flag, rfl⟩ | ⟨-, word, len, rfl, -⟩
    · rcases Nat.lt_or_ge 1 flag.toNat with hbad | hgood
      · rw [exec_bhdr1_badFlag len hbad] at hx
        cases hx
        exact .inr rfl
      · rw [exec_bhdr1_goodFlag len hgood] at hx
        exact checkRleLen_ends hx.symm
    · exact checkRleLen_ends hx.symm
  · subst hx
    obtain rfl := fetchHeader_settled hf
    exact .inr rfl

/-- PAYLOAD goes on, or ends in the variant's next phase or in a fault (R190). -/
theorem payload_ends (hm : Moves s u) (hp : u.phase = .payload) (hst : step s = .next t) :
    t.phase = .payload ∨ t.phase = u.afterPayload ∨ t.phase = .fault := by
  obtain ⟨-, ⟨h | h, -⟩ | ⟨c, n, h, -⟩⟩ := payload_step hm hp hst
  · exact .inl (h.trans hp)
  · exact .inr (.inl h)
  · exact .inr (.inr h)

/-- EMIT ends in the block loop's test, on what is then left (R205, R206). -/
theorem emit_ends (hm : Moves s u) (hp : u.phase = .emit) (hst : step s = .next t) :
    t.phase = t.afterBlock ∧ t.variant = u.variant := by
  rw [step_run hm (fetch_emit hp)] at hst
  cases hst
  exact ⟨rfl, rfl⟩

/-- VERIFY ends the thread by the comparison's two cases (R207). -/
theorem verify_ends (hm : Moves s u) (hp : u.phase = .verify) (hst : step s = .next t) :
    t.phase = .done ∧ u.crcAcc = u.hdrCrc ∨ t.phase = .fault ∧ u.crcAcc ≠ u.hdrCrc := by
  rw [step_run hm (fetch_verify hp)] at hst
  by_cases heq : u.crcAcc = u.hdrCrc
  · rw [(verifyCrc u).1 heq] at hst
    cases hst
    exact .inl ⟨rfl, heq⟩
  · rw [(verifyCrc u).2 heq] at hst
    cases hst
    exact .inr ⟨rfl, heq⟩

theorem uncompRemaining_ne_zero (h : 0 < s.uncompRemaining.toNat) : s.uncompRemaining ≠ 0 := fun h0 => by
  rw [h0] at h
  exact absurd h (by decide)

theorem uncompRemaining_eq_zero (h : s.uncompRemaining.toNat = 0) : s.uncompRemaining = 0 := BitVec.eq_of_toNat_eq h

/-! ### Whole blocks -/

/-- Up to EMITBLK the blocks before this one are all that `OUT` holds. -/
theorem wholeBlocks_decoding {p : Phase} (h : s.phase = p)
    (hp : p = .thdr ∨ p = .bhdr ∨ p = .payload ∨ p = .crc ∨ p = .emit) :
    WholeBlocks s ↔ s.out.length % Config.block = 0 := by
  rcases hp with rfl | rfl | rfl | rfl | rfl <;> simp only [WholeBlocks, h]

/-- Nothing is asked before a thread or once its last block is out. -/
theorem wholeBlocks_outside {p : Phase} (h : s.phase = p) (hp : p = .idle ∨ p = .verify ∨ p = .done ∨ p = .fault) :
    WholeBlocks s := by
  rcases hp with rfl | rfl | rfl | rfl <;> simp only [WholeBlocks, h]

/-- A whole number of blocks in `OUT` is all that is asked in any phase. -/
theorem wholeBlocks_of_out (h : s.out.length % Config.block = 0) : WholeBlocks s := by
  cases hp : s.phase <;> simp only [WholeBlocks, hp, h]

theorem WholeBlocks.moves (h : WholeBlocks s) (hm : Moves s u) : WholeBlocks u := by
  obtain ⟨he, -⟩ := hm.eq
  generalize u.inputs = l at he
  subst he
  exact h

/-- EMITBLK adds a whole block, or ends the block loop (R205, R206). -/
theorem wholeBlocks_emitted (h : Inv u) (hw : WholeBlocks u) (hm : Moves s u) (hp : u.phase = .emit)
    (hst : step s = .next t) : WholeBlocks t := by
  obtain ⟨hblk, -⟩ := (phaseOk_emit hp).mp (h.running (busy_of_phase hp (by simp))).phaseOk
  have hwhole : u.out.length % Config.block = 0 := (wholeBlocks_decoding hp (by simp)).mp hw
  obtain ⟨ht, -⟩ := emit_ends hm hp hst
  rcases afterBlock_cases t with ⟨ha, hmore⟩ | ⟨ha, -⟩ | ⟨ha, -⟩
  · rw [step_run hm (fetch_emit hp)] at hst
    cases hst
    have hlen : u.writeLen.toNat = Config.block := hblk.writeLen_of_more hmore
    refine wholeBlocks_of_out ?_
    calc (u.out ++ u.blkBytes u.writeLen.toNat).length % Config.block
        = (u.out.length + Config.block) % Config.block := by simp [State.blkBytes, hlen]
      _ = 0 := by rw [Nat.add_mod_right, hwhole]
  · exact wholeBlocks_outside (ht.trans ha) (by simp)
  · exact wholeBlocks_outside (ht.trans ha) (by simp)

/-- A step of the machine keeps it: `OUT` changes in EMIT alone (`wholeMachineFrame`). -/
theorem wholeBlocks_step (h : Inv u) (hw : WholeBlocks u) (hm : Moves s u) (hst : step s = .next t) :
    WholeBlocks t := by
  have decoding {p : Phase} (hp : u.phase = p) (hd : p = .thdr ∨ p = .bhdr ∨ p = .payload ∨ p = .crc) :
      WholeBlocks t := by
    obtain ⟨-, -, -, -, -, -, hkept, -⟩ := wholeMachineFrame s u t hm hst
    obtain ⟨hout, -⟩ := hkept (by rcases hd with rfl | rfl | rfl | rfl <;> rw [hp] <;> decide)
    refine wholeBlocks_of_out (hout ▸ (wholeBlocks_decoding hp ?_).mp hw)
    rcases hd with hd | hd | hd | hd <;> simp [hd]
  have still (hs : u.status ≠ .busy) : WholeBlocks t := still_kept hm hs hst ▸ hw
  rcases phase_cases u with hp | hp | hp | hp | hp | hp | hp | hp | hp
  · exact still (by simp [State.status, hp])
  · exact decoding hp (by simp)
  · exact decoding hp (by simp)
  · exact decoding hp (by simp)
  · exact decoding hp (by simp)
  · exact wholeBlocks_emitted h hw hm hp hst
  · rcases verify_ends hm hp hst with ⟨ht, -⟩ | ⟨ht, -⟩
    · exact wholeBlocks_outside ht (by simp)
    · exact wholeBlocks_outside ht (by simp)
  · exact still (by simp [State.status, hp])
  · exact still (by simp [State.status, hp])

end Sys2Proof.Machine

open Sys2Proof Sys2Proof.Machine

/-- Settles O42, by phase: how a step in that phase ends. -/
theorem phaseTransitions : Obligations.PhaseTransitions := by
  unfold Obligations.PhaseTransitions
  intro s u t hm hst
  rcases phase_cases u with hp | hp | hp | hp | hp | hp | hp | hp | hp
  · simp only [hp, still_kept hm (by simp [State.status, hp]) hst]
  · rcases thdr_ends hm hp hst with ht | ht
    · rcases afterBlock_cases u with ⟨ha, h0⟩ | ⟨ha, h0, hv⟩ | ⟨ha, h0, hv⟩ <;> simp only [hp, ht.trans ha]
      · exact uncompRemaining_ne_zero h0
      · exact ⟨uncompRemaining_eq_zero h0, hv⟩
      · exact ⟨uncompRemaining_eq_zero h0, hv⟩
    · simp only [hp, ht]
  · rcases bhdr_ends hm hp hst with ⟨ht, hlen⟩ | ht
    · simp only [hp, ht]
      exact hlen
    · simp only [hp, ht]
  · rcases payload_ends hm hp hst with ht | ht | ht
    · simp only [hp, ht]
    · rcases afterPayload_cases u with ⟨ha, hv⟩ | ⟨ha, hv⟩ <;> simp only [hp, ht.trans ha, hv]
    · simp only [hp, ht]
  · rw [step_run hm (fetch_crc hp)] at hst
    cases hst
    simp only [hp]
  · obtain ⟨ht, hvar⟩ := emit_ends hm hp hst
    rcases afterBlock_cases t with ⟨ha, h0⟩ | ⟨ha, h0, hv⟩ | ⟨ha, h0, hv⟩ <;> simp only [hp, ht.trans ha]
    · exact uncompRemaining_ne_zero h0
    · exact ⟨uncompRemaining_eq_zero h0, hvar ▸ hv⟩
    · exact ⟨uncompRemaining_eq_zero h0, hvar ▸ hv⟩
  · rcases verify_ends hm hp hst with ⟨ht, hcrc⟩ | ⟨ht, hcrc⟩ <;> simp only [hp, ht, hcrc, ne_eq, not_false_eq_true]
  · simp only [hp, still_kept hm (by simp [State.status, hp]) hst]
  · simp only [hp, still_kept hm (by simp [State.status, hp]) hst]

/-- Settles O56: a step of the machine keeps it (`wholeBlocks_step`), and the host's events leave `OUT` empty. -/
theorem stepKeepsWholeBlocks : Obligations.StepKeepsWholeBlocks := by
  unfold Obligations.StepKeepsWholeBlocks
  intro s t h hw hst
  rcases host_cases s with ⟨u, hm⟩ | ⟨a, rest, -, ⟨-, hr⟩ | ⟨-, hr⟩⟩ | ⟨rest, -, hr⟩
  · exact wholeBlocks_step (h.moves hm) (hw.moves hm) hm hst
  · rw [hr] at hst; cases hst
  · rw [hr] at hst; cases hst
    exact wholeBlocks_of_out rfl
  · rw [hr] at hst; cases hst
    exact wholeBlocks_of_out rfl

end

section
/-! PROOFS. The bound on the work left falls with every move of a running thread (R246, R151, R180). -/

namespace Sys2Proof.Machine

variable {s u t : State}

/-! ### The bound in each phase -/

theorem work_ended (h : s.status ≠ .busy) : s.work = 0 := by
  cases hp : s.phase <;> simp_all [State.work, State.status]

theorem work_thdr (h : s.phase = .thdr) : s.work = 20000 * s.uncompRemaining.toNat + 10003 := by
  simp only [State.work, h]
theorem work_bhdr (h : s.phase = .bhdr) : s.work = 20000 * s.uncompRemaining.toNat + 10002 := by
  simp only [State.work, h]
theorem work_crc (h : s.phase = .crc) : s.work = 20000 * s.uncompRemaining.toNat + 3 := by
  simp only [State.work, h]
theorem work_emit (h : s.phase = .emit) : s.work = 20000 * s.uncompRemaining.toNat + 2 := by
  simp only [State.work, h]
theorem work_verify (h : s.phase = .verify) : s.work = 1 := by
  simp only [State.work, h]
theorem work_choose (h : s.phase = .payload) (hs : s.stage = .choose) :
    s.work = 20000 * s.uncompRemaining.toNat + 10001 := by
  simp only [State.work, h, hs]
theorem work_lzw0 (h : s.phase = .payload) (hs : s.stage = .lzw0) :
    s.work = 20000 * s.uncompRemaining.toNat + 10000 := by
  simp only [State.work, h, hs]
theorem work_lzw (h : s.phase = .payload) (hs : s.stage = .lzw) :
    s.work = 20000 * s.uncompRemaining.toNat + 5000 + (s.rleLen.toNat - s.outN.toNat) := by
  simp only [State.work, h, hs]
theorem work_rle (h : s.phase = .payload) (hs : s.stage = .rle) :
    s.work = 20000 * s.uncompRemaining.toNat + 4 + (4096 - s.rleOut.toNat) := by
  simp only [State.work, h, hs, Config.block]

/-- A running thread has work left. -/
theorem work_pos (hb : s.status = .busy) : 0 < s.work := by
  cases hp : s.phase with
  | payload => rcases stage_cases s with hs | hs | hs | hs <;> simp [State.work, hp, hs]
  | _ => simp [State.work, State.status, hp] at hb ⊢

/-- What is left once the block loop has been tested (R190, R206). -/
theorem work_afterBlock (h : t.phase = t.afterBlock) : t.work ≤ 20000 * t.uncompRemaining.toNat + 10002 := by
  rcases afterBlock_cases t with ⟨hp, -⟩ | ⟨hp, -⟩ | ⟨hp, -⟩
  · exact Nat.le_of_eq (work_bhdr (h.trans hp))
  · rw [work_verify (h.trans hp)]
    omega
  · rw [work_ended (by simp [State.status, h.trans hp])]
    omega

/-- What is left once a block is complete (R190). -/
theorem work_afterPayload {v : State} (h : t.phase = v.afterPayload) :
    t.work ≤ 20000 * t.uncompRemaining.toNat + 3 := by
  rcases afterPayload_cases v with ⟨hp, -⟩ | ⟨hp, -⟩
  · exact Nat.le_of_eq (work_crc (h.trans hp))
  · rw [work_emit (h.trans hp)]
    omega

/-- An invocation has its first code, or the whole block's bytes, before it (R161, R162). -/
theorem work_lzwStart (hp : u.phase = .payload) (hlen : u.rleLen.toNat ≤ 4096) :
    (lzwStart u).work ≤ 20000 * u.uncompRemaining.toNat + 10000 := by
  have hkept := lzwStart_eq u
  have hp' : (lzwStart u).phase = .payload := by rw [hkept]; exact hp
  have hrem : (lzwStart u).uncompRemaining = u.uncompRemaining := by rw [hkept]
  have hlen' : (lzwStart u).rleLen = u.rleLen := by rw [hkept]
  have hstage : (lzwStart u).stage = .lzw0 ∨ (lzwStart u).stage = .lzw := by
    cases hv : u.variant with
    | lzw1 => rw [lzwStart_lzw1 hv]; exact .inl rfl
    | lzw2 => rw [lzwStart_lzw2 hv]; cases u.clearingEntry <;> simp
  rcases hstage with hs | hs
  · rw [work_lzw0 hp' hs, hrem]
  · rw [work_lzw hp' hs, hrem, hlen']
    omega

/-- The main loop's bound falls with every byte emitted (R180). -/
theorem work_emission {k : Nat} (hp : t.phase = .payload) (hs : t.stage = .lzw)
    (hrem : t.uncompRemaining = u.uncompRemaining) (hlen : t.rleLen = u.rleLen)
    (hout : t.outN = u.outN + BitVec.ofNat 13 k) (hpos : 1 ≤ k) (hroom : u.outN.toNat + k ≤ u.rleLen.toNat)
    (hcap : u.rleLen.toNat ≤ 4096) :
    t.work < 20000 * u.uncompRemaining.toNat + 5000 + (u.rleLen.toNat - u.outN.toNat) := by
  rw [work_lzw hp hs, hrem, hlen, hout, count_add (by omega)]
  omega

/-! ### Every move -/

theorem Effect.work_lt (h : Inv u) (he : Effect u t) (hb : u.status = .busy) : t.work < u.work := by
  have hcap : u.phase = .payload → u.rleLen.toNat ≤ 4096 := fun hp => (h.payload hp).2.1.len
  cases he with
  | still hb' => exact absurd hb hb'
  | fault c v w =>
    rw [work_ended (w.raised_not_busy c v)]
    exact work_pos hb
  | threadHeader a crc volume escape hp =>
    rw [work_thdr hp]
    exact Nat.lt_succ_of_le (work_afterBlock rfl)
  | blockHeader a len n used k hp =>
    rw [work_bhdr hp]
    exact Nat.lt_succ_of_le (Nat.le_of_eq (work_choose rfl rfl))
  | raw hp hs =>
    rw [work_choose hp hs, rawBlock_eq]
    exact Nat.lt_of_le_of_lt (work_afterPayload (v := u) rfl) (by dsimp only; omega)
  | engineStart hp hs =>
    rw [work_choose hp hs]
    exact Nat.lt_succ_of_le (work_lzwStart hp (hcap hp))
  | rleOnly hp hs =>
    rw [work_choose hp hs, work_rle (by simpa using hp) rfl]
    simp only [State.rleStart_uncompRemaining, State.resetWithoutLzw_uncompRemaining]
    omega
  | firstLiteral c hp hs hc ho =>
    rw [work_lzw0 hp hs]
    exact Nat.lt_of_lt_of_le (work_emission (u := u) (k := 1) hp rfl rfl rfl rfl (Nat.le_refl 1) ho (hcap hp))
      (by have := hcap hp; omega)
  | clear c w hp hs hv hc hw ho =>
    rw [work_lzw hp hs]
    exact work_emission (u := u) (k := 1) hp hs rfl rfl rfl (Nat.le_refl 1) ho (hcap hp)
  | codeRun c w bytes d hp hs hw hfit hne hroom =>
    rw [work_lzw hp hs]
    exact work_emission (u := u) (k := bytes.length) hp hs rfl rfl rfl hne hroom (hcap hp)
  | engineToRle hp hs =>
    rw [work_lzw hp hs, work_rle (by exact hp) rfl, State.rleStart_uncompRemaining]
    omega
  | engineToBlock hp hs =>
    rw [work_lzw hp hs]
    exact Nat.lt_of_le_of_lt (work_afterPayload (v := u) rfl)
      (by simp only [State.blockComplete_uncompRemaining]; omega)
  | token r bytes hp hs hr hne hroom =>
    simp only [Config.block] at hroom
    rw [work_rle hp hs, work_rle (by exact hp) (by exact hs)]
    simp only [count_add (show u.rleOut.toNat + bytes.length < 2 ^ 13 by omega)]
    omega
  | rleDone hp hs =>
    rw [work_rle hp hs, rleEnd_eq]
    exact Nat.lt_of_le_of_lt (work_afterPayload (v := u) rfl) (by dsimp only; omega)
  | crc hp =>
    rw [work_crc hp]
    exact Nat.lt_succ_of_le (Nat.le_of_eq (work_emit rfl))
  | emit hp =>
    obtain ⟨hblk, -⟩ := (phaseOk_emit hp).mp (h.running hb).phaseOk
    have hwrite := hblk.write
    have hleft := hblk.left
    simp only [Config.block] at hwrite
    have hrem := emit_remaining (s := u) (by omega)
    rw [work_emit hp]
    refine Nat.lt_of_le_of_lt (work_afterBlock rfl) ?_
    simp only [State.headerDone_uncompRemaining, hrem]
    omega
  | verified hp =>
    rw [work_verify hp, work_ended (by simp [State.status])]
    exact Nat.one_pos

end Sys2Proof.Machine

open Sys2Proof Sys2Proof.Machine

/-- Settles O58: every step of a running thread is a move, and `Effect.work_lt` goes through the moves. -/
theorem workFalls : Obligations.WorkFalls := by
  unfold Obligations.WorkFalls
  exact fun s u t h hm hb hst => (effect_of_step h hm hst).work_lt (h.moves hm) hb

end

section
/-! PROOFS. A header that `IN` does not hold whole (R226, R236): the writes made before the missing byte, and the
underrun. -/

namespace Sys2Proof.Machine

variable {s u : State}

/-! ### The header that is cut short -/

theorem fixedLength_of_lt {avail n : Nat} (h : avail < n) (i : Instr) : fixedLength avail n i = .short := if_pos h

/-- Fewer than `k` bytes at `ip` are fewer than `8 * k` bits. -/
theorem header_bits_lt {k : Nat} (h : u.inLen.toNat < u.ip.toNat + k) (hk : 0 < k) : 8 * u.inputLeft < 8 * k := by
  simp only [State.inputLeft]
  omega

theorem le_inputLeft_iff {k : Nat} (hk : 0 < k) : k ≤ u.inputLeft ↔ u.ip.toNat + k ≤ u.inLen.toNat := by
  simp only [State.inputLeft]
  omega

theorem decodeHeader_thdr1_cut (h : u.inLen.toNat < u.ip.toNat + 4) : u.decodeHeader (.thdr .lzw1) = .short := by
  rw [State.decodeHeader, decode, fixedLength_of_lt (header_bits_lt h (by decide))]

theorem decodeHeader_thdr2_cut (h : u.inLen.toNat < u.ip.toNat + 2) : u.decodeHeader (.thdr .lzw2) = .short := by
  rw [State.decodeHeader, decode, fixedLength_of_lt (header_bits_lt h (by decide))]

theorem decodeHeader_bhdr1_cut (h : u.inLen.toNat < u.ip.toNat + 3) : u.decodeHeader (.bhdr .lzw1) = .short := by
  rw [State.decodeHeader, decode, fixedLength_of_lt (header_bits_lt h (by decide))]

theorem decodeHeader_bhdr2_cut (h : u.inLen.toNat < u.ip.toNat + 2) : u.decodeHeader (.bhdr .lzw2) = .short := by
  rw [State.decodeHeader, decode_bhdr_lzw2, if_pos (header_bits_lt h (by decide))]

/-- The word of BHDR2 is there and says that a length follows, which is not (R94, R194). -/
theorem decodeHeader_bhdr2_cut_length (hword : u.ip.toNat + 2 ≤ u.inLen.toNat) (h : u.inLen.toNat < u.ip.toNat + 4)
    (hbit : (u.in16 u.ip.toNat).getLsbD 15 = true) : u.decodeHeader (.bhdr .lzw2) = .short := by
  obtain ⟨hlen, hm⟩ := header_bytes (k := 2) (by decide) hword
  rw [State.decodeHeader, decode_bhdr_lzw2, if_neg (by omega), ofNat_field_in16 u _ (k := 0) (by omega), Nat.add_zero,
    if_pos hbit, fixedLength_of_lt (header_bits_lt h (by decide))]

/-! ### What it leaves -/

/-- The two bytes that are there, as a number (R60, R100). -/
theorem ofNat_leBytes_two (u : State) (a : Nat) : BitVec.ofNat 16 (leBytes u.readIn a 2) = u.in16 a := by
  apply BitVec.eq_of_toNat_eq
  have h0 := (u.readIn a).isLt
  have h1 := (u.readIn (a + 1)).isLt
  rw [BitVec.toNat_ofNat, State.in16_toNat]
  simp only [leBytes]
  omega

theorem advance_inputLeft (h : u.ip.toNat ≤ u.inLen.toNat) : u.advance u.inputLeft = { u with ip := u.inLen } := by
  rw [State.advance, ip_inputLeft h]

theorem partialHeader_thdr1 (h : u.ip.toNat ≤ u.inLen.toNat) : u.partialHeader (.thdr .lzw1) = { u with
    hdrCrc := if u.ip.toNat + 2 ≤ u.inLen.toNat then u.in16 u.ip.toNat else u.hdrCrc
    volume := if u.ip.toNat + 3 ≤ u.inLen.toNat then u.readIn (u.ip.toNat + 2) else u.volume
    ip := u.inLen } := by
  simp only [State.partialHeader, advance_inputLeft h, ofNat_leBytes_two, le_inputLeft_iff (Nat.succ_pos _)]

theorem partialHeader_thdr2 (h : u.ip.toNat ≤ u.inLen.toNat) : u.partialHeader (.thdr .lzw2) = { u with
    volume := if u.ip.toNat + 1 ≤ u.inLen.toNat then u.readIn u.ip.toNat else u.volume
    ip := u.inLen } := by
  simp only [State.partialHeader, advance_inputLeft h, le_inputLeft_iff (Nat.succ_pos _)]

theorem partialHeader_bhdr1 (h : u.ip.toNat ≤ u.inLen.toNat) : u.partialHeader (.bhdr .lzw1) = { u with
    rleLen := if u.ip.toNat + 2 ≤ u.inLen.toNat then u.in16 u.ip.toNat else u.rleLen
    ip := u.inLen } := by
  simp only [State.partialHeader, advance_inputLeft h, ofNat_leBytes_two, le_inputLeft_iff (Nat.succ_pos _)]

theorem partialHeader_bhdr2 (h : u.ip.toNat ≤ u.inLen.toNat) : u.partialHeader (.bhdr .lzw2) = { u with
    lzwUsed := if u.ip.toNat + 2 ≤ u.inLen.toNat then (u.in16 u.ip.toNat).getLsbD 15 else u.lzwUsed
    rleLen := if u.ip.toNat + 2 ≤ u.inLen.toNat then wordRleLen (u.in16 u.ip.toNat) else u.rleLen
    ip := u.inLen } := by
  simp only [State.partialHeader, advance_inputLeft h, ofNat_leBytes_two, le_inputLeft_iff (Nat.succ_pos _)]

/-- Where the header that is due is cut short, the step makes its writes and raises `InputUnderrun(IN_LEN)`
(R226, R238). -/
theorem step_header_cut {c : Ctx} (hm : Moves s u) (hc : HeaderDue u c) (hd : u.decodeHeader c = .short) :
    step s = .next { u.partialHeader c with cause := 6, info := (u.partialHeader c).inLen, phase := .fault } := by
  rw [State.decodeHeader] at hd
  rw [← underrun_outcome]
  refine step_settled hm ?_
  rw [fetch_header hc, fetchHeader, hd]

end Sys2Proof.Machine

open Sys2Proof Sys2Proof.Machine

/-- Settles O13: `step_header_cut` with the writes that `partialHeader` makes for each header. -/
theorem headerUnderrun : Obligations.HeaderUnderrun := by
  unfold Obligations.HeaderUnderrun
  intro s u hm hip
  refine ⟨fun hp hv h => ?_, fun hp hv h => ?_, fun hp hv h => ?_, fun hp hv h => ?_, fun hp hv hword h hbit => ?_⟩
  · rw [step_header_cut hm (.inl ⟨hp, by rw [hv]⟩) (decodeHeader_thdr1_cut h), partialHeader_thdr1 hip]
  · rw [step_header_cut hm (.inl ⟨hp, by rw [hv]⟩) (decodeHeader_thdr2_cut h), partialHeader_thdr2 hip]
  · rw [step_header_cut hm (.inr ⟨hp, by rw [hv]⟩) (decodeHeader_bhdr1_cut h), partialHeader_bhdr1 hip]
  · rw [step_header_cut hm (.inr ⟨hp, by rw [hv]⟩) (decodeHeader_bhdr2_cut h), partialHeader_bhdr2 hip,
      if_neg (Nat.not_le.mpr h), if_neg (Nat.not_le.mpr h)]
  · rw [step_header_cut hm (.inr ⟨hp, by rw [hv]⟩) (decodeHeader_bhdr2_cut_length hword h hbit),
      partialHeader_bhdr2 hip, if_pos hword, if_pos hword, hbit]
    rfl

end

section
/-! PROOFS. What a step of a running thread does with `cause` and `info`, in any state: it keeps them, or it raises a
cause of the table where the table says (R220, R238, R241, R242). -/

namespace Sys2Proof.Machine

variable {s u t v : State}

/-! ### Where each cause is raised -/

/-- Where the table of R220 says that a cause is raised on the way from `u` to `t`, and what R226 and R195 say of the
state then. -/
def RaisedBy (u t : State) : Cause → Prop
  | .inputUnderrun => t.info = t.inLen ∧ u.phase ≠ .verify
  | .badLzwFlag => u.phase = .bhdr ∧ u.variant = .lzw1
  | .badRleLength => u.phase = .bhdr ∧ Config.block < t.rleLen.toNat
  | .crcMismatch => u.phase = .verify
  | .lengthMismatch => u.phase = .payload ∧ u.variant = .lzw2
  | .reservedCode => u.phase = .payload ∧ u.variant = .lzw1
  | .invalidInitialSymbol | .badCode | .rleInputUnderrun | .outputOverrun | .tableOverflow => u.phase = .payload

/-- `t` is in FAULT with a cause that the table allows. -/
def Raised (u t : State) : Prop := t.phase = .fault ∧ ∃ c : Cause, t.cause = c.number ∧ RaisedBy u t c

/-- `t` is not in FAULT, and its fault registers are those of `u`. -/
def NotRaised (u t : State) : Prop := t.phase ≠ .fault ∧ t.cause = u.cause ∧ t.info = u.info

/-- VERIFY raises one cause alone (R207). -/
theorem RaisedBy.verify {c : Cause} (h : RaisedBy u t c) (hp : u.phase = .verify) : c = .crcMismatch := by
  cases c <;> simp_all [RaisedBy]

theorem Cause.number_range (c : Cause) : 1 ≤ c.number.toNat ∧ c.number.toNat ≤ 11 := by cases c <;> decide

theorem afterBlock_ne_fault (s : State) : s.afterBlock ≠ .fault := by
  rcases afterBlock_cases s with ⟨h, -⟩ | ⟨h, -⟩ | ⟨h, -⟩ <;> simp [h]

theorem afterPayload_ne_fault (s : State) : s.afterPayload ≠ .fault := by
  rcases afterPayload_cases s with ⟨h, -⟩ | ⟨h, -⟩ <;> simp [h]

/-! ### Each phase -/

/-- A header that is cut short raises `InputUnderrun(IN_LEN)` (R226). -/
theorem header_raised {c : Ctx} (hp : u.phase ≠ .verify) (h : fetchHeader c u = .settled (.next t)) : Raised u t := by
  obtain rfl := fetchHeader_settled h
  refine ⟨rfl, .inputUnderrun, rfl, ?_, hp⟩
  rw [State.raised_toNat]
  exact BitVec.setWidth_eq _

theorem thdr_raises (hm : Moves s u) (hp : u.phase = .thdr) (hst : step s = .next t) : NotRaised u t ∨ Raised u t := by
  rcases step_moves hm with ⟨i, v, hf, hx⟩ | ⟨o, hf, hx⟩ <;> rw [fetch_thdr hp] at hf <;> rw [hst] at hx
  · obtain ⟨w, n, hd, rfl⟩ := fetchHeader_run hf
    rcases decode_thdr hd with ⟨-, crc, volume, escape, rfl⟩ | ⟨-, volume, escape, rfl⟩ <;> cases hx <;>
      exact .inl ⟨afterBlock_ne_fault _, rfl, rfl⟩
  · subst hx
    exact .inr (header_raised (by simp [hp]) hf)

/-- The length's check keeps the fault registers, or raises `BadRleLength` (R195). -/
theorem checkRleLen_raises (h : (checkRleLen v).outcome = .next t) (hp : u.phase = .bhdr) (hc : v.cause = u.cause)
    (hi : v.info = u.info) : NotRaised u t ∨ Raised u t := by
  rcases Nat.lt_or_ge Config.block v.rleLen.toNat with hbad | hgood
  · rw [checkRleLen_bad hbad] at h
    cases h
    exact .inr ⟨rfl, .badRleLength, rfl, hp, hbad⟩
  · rw [checkRleLen_good hgood] at h
    cases h
    exact .inl ⟨nofun, hc, hi⟩

theorem bhdr_raises (hm : Moves s u) (hp : u.phase = .bhdr) (hst : step s = .next t) : NotRaised u t ∨ Raised u t := by
  rcases step_moves hm with ⟨i, v, hf, hx⟩ | ⟨o, hf, hx⟩ <;> rw [fetch_bhdr hp] at hf <;> rw [hst] at hx
  · obtain ⟨w, n, hd, rfl⟩ := fetchHeader_run hf
    rcases decode_bhdr hd with ⟨hv, len, flag, rfl⟩ | ⟨-, word, len, rfl, -⟩
    · rcases Nat.lt_or_ge 1 flag.toNat with hbad | hgood
      · rw [exec_bhdr1_badFlag len hbad] at hx
        cases hx
        exact .inr ⟨rfl, .badLzwFlag, rfl, hp, hv⟩
      · rw [exec_bhdr1_goodFlag len hgood] at hx
        exact checkRleLen_raises hx.symm hp rfl rfl
    · cases len with
      | none => exact checkRleLen_raises hx.symm hp rfl rfl
      | some len => exact checkRleLen_raises hx.symm hp rfl rfl
  · subst hx
    exact .inr (header_raised (by simp [hp]) hf)

/-- What PAYLOAD raises is what the table says of it (`payload_step`). -/
theorem PayloadRaises.raisedBy {c : Cause} {n : Nat} (hp : u.phase = .payload) (hi : t.info = BitVec.ofNat 32 n)
    (hlen : t.inLen = u.inLen) (h : PayloadRaises u c n) : RaisedBy u t c := by
  obtain ⟨hin, hcrc, hflag, hrle, hmis, hres⟩ := h
  cases c with
  | inputUnderrun =>
    refine ⟨?_, by simp [hp]⟩
    rw [hi, hin rfl, hlen, BitVec.ofNat_toNat, BitVec.setWidth_eq]
  | badLzwFlag => exact absurd rfl hflag
  | badRleLength => exact absurd rfl hrle
  | crcMismatch => exact absurd rfl hcrc
  | lengthMismatch => exact ⟨hp, hmis rfl⟩
  | reservedCode => exact ⟨hp, hres rfl⟩
  | _ => exact hp

theorem payload_raises (hm : Moves s u) (hp : u.phase = .payload) (hst : step s = .next t) :
    NotRaised u t ∨ Raised u t := by
  obtain ⟨hkept, ⟨hend, hc, hi⟩ | ⟨c, n, ht, hc, hi, hr⟩⟩ := payload_step hm hp hst
  · refine .inl ⟨?_, hc, hi⟩
    rcases hend with ht | ht
    · simp [ht, hp]
    · rw [ht]
      exact afterPayload_ne_fault u
  · exact .inr ⟨ht, c, hc, hr.raisedBy hp hi (by rw [hkept])⟩

theorem verify_raises (hm : Moves s u) (hp : u.phase = .verify) (hst : step s = .next t) :
    NotRaised u t ∨ Raised u t := by
  rw [step_run hm (fetch_verify hp)] at hst
  by_cases heq : u.crcAcc = u.hdrCrc
  · rw [(verifyCrc u).1 heq] at hst
    cases hst
    exact .inl ⟨nofun, rfl, rfl⟩
  · rw [(verifyCrc u).2 heq] at hst
    cases hst
    exact .inr ⟨rfl, .crcMismatch, rfl, hp⟩

/-! ### Every step -/

/-- A step of a running thread keeps `cause` and `info`, or raises (R238, R241). -/
theorem step_raises (hm : Moves s u) (hb : u.status = .busy) (hst : step s = .next t) :
    NotRaised u t ∨ Raised u t := by
  rcases phase_cases u with hp | hp | hp | hp | hp | hp | hp | hp | hp
  · simp [State.status, hp] at hb
  · exact thdr_raises hm hp hst
  · exact bhdr_raises hm hp hst
  · exact payload_raises hm hp hst
  · rw [step_run hm (fetch_crc hp)] at hst
    cases hst
    exact .inl ⟨nofun, rfl, rfl⟩
  · rw [step_run hm (fetch_emit hp)] at hst
    cases hst
    exact .inl ⟨afterBlock_ne_fault _, rfl, rfl⟩
  · exact verify_raises hm hp hst
  · simp [State.status, hp] at hb
  · simp [State.status, hp] at hb

/-- FAULT is entered from a running thread alone, by a raise (R238, R242). -/
theorem raised_of_fault (hm : Moves s u) (hst : step s = .next t) (hu : u.phase ≠ .fault) (ht : t.phase = .fault) :
    u.status = .busy ∧ Raised u t := by
  have hb : u.status = .busy := by
    by_contra hb
    rw [still_kept hm hb hst] at ht
    exact hu ht
  refine ⟨hb, ?_⟩
  rcases step_raises hm hb hst with ⟨hne, -⟩ | hr
  · exact absurd ht hne
  · exact hr

/-- The machine writes nothing to `IN` (R13, R81). -/
theorem step_input (hm : Moves s u) (hst : step s = .next t) : t.input = u.input := by
  rcases phase_cases u with hp | hp | hp | hp | hp | hp | hp | hp | hp
  · rw [still_kept hm (by simp [State.status, hp]) hst]
  · rw [(thdr_kept hm hp hst).1]
  · rw [bhdr_kept hm hp hst]
  · rw [(payload_step hm hp hst).1]
  · rw [step_run hm (fetch_crc hp)] at hst
    cases hst
    rfl
  · rw [step_run hm (fetch_emit hp)] at hst
    cases hst
    rfl
  · rw [verify_kept hm hp hst]
  · rw [still_kept hm (by simp [State.status, hp]) hst]
  · rw [still_kept hm (by simp [State.status, hp]) hst]

/-- A fault leaves `OUT` and what is left to emit (R240): EMIT, which alone writes them, raises none. -/
theorem fault_keeps_out (hm : Moves s u) (hst : step s = .next t) (ht : t.phase = .fault) :
    t.out = u.out ∧ t.uncompRemaining = u.uncompRemaining := by
  obtain ⟨-, -, -, -, -, -, hkept, -⟩ := wholeMachineFrame s u t hm hst
  refine hkept fun hp => ?_
  obtain ⟨hend, -⟩ := emit_ends hm hp hst
  exact afterBlock_ne_fault t (hend.symm.trans ht)

/-- A running thread that is not in VERIFY has emitted whole blocks alone (R205, R206). -/
theorem WholeBlocks.decoding (hw : WholeBlocks u) (hb : u.status = .busy) (hv : u.phase ≠ .verify) :
    u.out.length % Config.block = 0 := by
  refine (wholeBlocks_decoding (s := u) rfl ?_).mp hw
  unfold State.status at hb
  cases hp : u.phase <;> simp_all

/-- The blocks before the faulting one are all that `OUT` holds, but after a `CrcMismatch`, where it holds all the
thread's bytes (R240). -/
theorem fault_out_length (h : Inv u) (hw : WholeBlocks u) (hb : u.status = .busy) {c : Cause} (hr : RaisedBy u t c) :
    (c ≠ .crcMismatch → u.out.length % Config.block = 0) ∧ (c = .crcMismatch → u.out.length = u.usize.toNat) := by
  refine ⟨fun hc => hw.decoding hb fun hp => hc (hr.verify hp), ?_⟩
  rintro rfl
  obtain ⟨h0, -⟩ := (phaseOk_verify hr).mp (h.running hb).phaseOk
  have hlen := h.outLen
  omega

theorem Cause.number_eq_four {c : Cause} : c.number.toNat = 4 ↔ c = .crcMismatch := by cases c <;> decide

end Sys2Proof.Machine

open Sys2Proof Sys2Proof.Machine

/-- Settles O43: FAULT is entered by a raise (`raised_of_fault`), and `RaisedBy` says for each cause where. -/
theorem faultEntry : Obligations.FaultEntry := by
  unfold Obligations.FaultEntry
  intro s u t hm hst hu ht
  obtain ⟨hb, -, c, hc, hr⟩ := raised_of_fault hm hst hu ht
  obtain ⟨h1, h11⟩ := c.number_range
  obtain ⟨hvar, husize, hlen, -⟩ := wholeMachineFrame s u t hm hst
  obtain ⟨hout, hrem⟩ := fault_keeps_out hm hst ht
  rw [hc]
  refine ⟨by simp [State.status, ht], h1, h11, hout, hrem, hvar, husize, hlen, step_input hm hst, ?_⟩
  cases c <;> simpa [Cause.number, RaisedBy, Config.block] using hr

/-- Settles O44: `fault_keeps_out`, and how much `OUT` held (`fault_out_length`). -/
theorem faultKeepsWholeBlocks : Obligations.FaultKeepsWholeBlocks := by
  unfold Obligations.FaultKeepsWholeBlocks
  intro s u t h hw hm hst hb ht
  obtain ⟨-, -, c, hc, hr⟩ := raised_of_fault hm hst (busy_ne_fault hb) ht
  obtain ⟨hwhole, hall⟩ := fault_out_length (h.moves hm) (hw.moves hm) hb hr
  obtain ⟨hout, -⟩ := fault_keeps_out hm hst ht
  obtain ⟨-, husize, -⟩ := wholeMachineFrame s u t hm hst
  obtain ⟨hus, -⟩ := hm.eq
  simp only [hc, hout, husize, ne_eq, Cause.number_eq_four]
  exact ⟨by rw [hus], fun hne => Nat.dvd_of_mod_eq_zero (hwhole hne), hall⟩

/-- Settles O45: outside a running thread a step answers its own state, and `step_raises` says it of a running one. -/
theorem causeIsSticky : Obligations.CauseIsSticky := by
  unfold Obligations.CauseIsSticky
  refine ⟨fun s u hm hs => step_settled hm (fetch_still hs), fun s u t hm hst hne => ?_⟩
  have hb : u.status = .busy := by
    by_contra hs
    rw [still_kept hm hs hst] at hne
    simp at hne
  refine ⟨hb, ?_⟩
  rcases step_raises hm hb hst with ⟨-, hc, hi⟩ | ⟨ht, -⟩
  · simp [hc, hi] at hne
  · exact ht

end

section
/-! PROOFS. A thread comes to its end (R246, R208): by induction on the bound on the work left, with the invariant. -/

namespace Sys2Proof.Machine

variable {s u t : State} {n : Nat}

theorem stepsFrom_succ (hst : step s = .next t) : stepsFrom (n + 1) s = stepsFrom n t := by
  simp only [stepsFrom, hst]

/-- START, accepted where no thread runs, is the step (R252). -/
theorem step_start {a : StartArgs} {rest : List HostEvent} (hi : s.inputs = .start a :: rest) (hs : s.status ≠ .busy) :
    step s = .next (start a { s with inputs := rest }) := by
  simp only [step, hostTurn, hi, if_neg hs]

/-- A thread is over: in DONE, or in FAULT with a cause of the table (R190, R220). -/
def Ended (t : State) : Prop := t.phase = .done ∨ t.phase = .fault ∧ 1 ≤ t.cause.toNat ∧ t.cause.toNat ≤ 11

/-- A move of a running thread leaves it running or ends it. -/
theorem busy_or_ended (h : Inv u) (hm : Moves s u) (hb : u.status = .busy) (hst : step s = .next t) (he : Effect u t) :
    t.status = .busy ∨ Ended t := by
  rcases he.ends h with ⟨-, hs⟩ | ⟨hp, -⟩ | ⟨-, -, hbt | ⟨hp, -⟩⟩
  · exact absurd hb hs
  · obtain ⟨-, -, c, hc, -⟩ := raised_of_fault hm hst (busy_ne_fault hb) hp
    exact .inr (.inr ⟨hp, hc ▸ c.number_range⟩)
  · exact .inl hbt
  · exact .inr (.inl hp)

/-- A running thread ends within the work that is left, and keeps the invariant and its arguments on the way. -/
theorem thread_ends (h : Inv u) (hi : u.inputs = []) (hb : u.status = .busy) :
    ∃ n t, n ≤ u.work ∧ stepsFrom n u = some t ∧ Inv t ∧ t.variant = u.variant ∧ t.usize = u.usize ∧ Ended t := by
  induction hk : u.work using Nat.strong_induction_on generalizing u with
  | _ k ih =>
    subst hk
    have hm : Moves u u := moves_iff.mpr (.inl ⟨hi, rfl⟩)
    obtain ⟨t, hst, he⟩ := step_effect h hm
    have hlt := he.work_lt h hb
    obtain ⟨hvar, husize, -, -, hin⟩ := he.thread
    rcases busy_or_ended h hm hb hst he with hbt | hend
    · obtain ⟨n, t', hn, hrun, hinv, hvar', husize', hend⟩ := ih t.work hlt (he.inv h) (hin.trans hi) hbt rfl
      exact ⟨n + 1, t', by omega, (stepsFrom_succ hst).trans hrun, hinv, hvar'.trans hvar, husize'.trans husize, hend⟩
    · exact ⟨1, t, by omega, stepsFrom_succ hst, he.inv h, hvar, husize, hend⟩

/-- A thread that is done has no cause, all its bytes out, and in LZW/1 the header's CRC (R46, R54, R208). -/
theorem Inv.of_done (h : Inv t) (hp : t.phase = .done) :
    t.cause = 0 ∧ t.out.length = t.usize.toNat ∧ t.uncompRemaining = 0 ∧ (t.variant = .lzw1 → t.crcAcc = t.hdrCrc) := by
  obtain ⟨h0, hcrc⟩ := h.done hp
  have hcause : t.cause.toNat = 0 := by
    by_contra hne
    simp [h.cause.mpr hne] at hp
  have hlen := h.outLen
  exact ⟨BitVec.eq_of_toNat_eq hcause, by omega, uncompRemaining_eq_zero h0, hcrc⟩

end Sys2Proof.Machine

open Sys2Proof Sys2Proof.Machine

/-- Settles O59: after START's own step, `thread_ends` from the state it leaves, and in DONE what the invariant says. -/
theorem everyThreadEnds : Obligations.EveryThreadEnds := by
  unfold Obligations.EveryThreadEnds
  intro s a h hs hin
  have hst := step_start hin hs
  have hinv : Inv (start a { s with inputs := [] }) := stepKeepsInv s _ h hst
  obtain ⟨n, t, hn, hrun, ht, hvar, husize, hend⟩ := thread_ends hinv rfl (busy_of_phase (p := .thdr) rfl (.inl rfl))
  replace hvar : t.variant = a.variant := hvar
  replace husize : t.usize = a.usize := husize
  have hwork : (start a { s with inputs := [] }).work = 20000 * a.usize.toNat + 10003 := work_thdr rfl
  refine ⟨n + 1, t, by omega, (stepsFrom_succ hst).trans hrun, ?_⟩
  rcases hend with hp | ⟨hp, hcause⟩
  · obtain ⟨hc, hlen, hrem, hcrc⟩ := ht.of_done hp
    exact .inl ⟨by simp [State.status, hp], hc, by rw [hlen, husize], hrem, fun hv => hcrc (hvar.trans hv), ht.ip⟩
  · exact .inr ⟨by simp [State.status, hp], hcause⟩

end

section
/-! PROOFS. The host's events (R250, R252, R264): what each step is, and that START and reset leave no slot written. -/

namespace Sys2Proof.Machine

variable {s : State} {rest : List HostEvent}

/-- START, where a thread runs, stops the model (R264). -/
theorem step_start_busy {a : StartArgs} (hi : s.inputs = .start a :: rest) (hs : s.status = .busy) :
    step s = .refused .startWhileBusy := by
  simp only [step, hostTurn, hi, if_pos hs]

/-- A hardware reset is the step wherever the machine stands (R250). -/
theorem step_hardReset (hi : s.inputs = .hardReset :: rest) :
    step s = .next (hardReset { s with inputs := rest }) := by
  simp only [step, hostTurn, hi]

@[simp] theorem slotGet?_nil {w : Nat} (j : Nat) : slotGet? ([] : Slots w) j = none := rfl

/-- No slot of a register file is written: each file is `undef` as a whole (R58). -/
structure Unwritten (t : State) : Prop where
  tch : t.tch = []
  tpr : t.tpr = []
  stk : t.stk = []
  scr : t.scr = []
  blk : t.blk = []

theorem Unwritten.slotGet?_eq_none {t : State} (h : Unwritten t) (j : Nat) :
    slotGet? t.tch j = none ∧ slotGet? t.tpr j = none ∧ slotGet? t.stk j = none ∧ slotGet? t.scr j = none ∧
      slotGet? t.blk j = none := by
  simp [h.tch, h.tpr, h.stk, h.scr, h.blk]

theorem unwritten_start (a : StartArgs) (s : State) : Unwritten (start a s) := ⟨rfl, rfl, rfl, rfl, rfl⟩

theorem unwritten_reset : Unwritten State.reset := ⟨rfl, rfl, rfl, rfl, rfl⟩

/-- Hardware reset keeps of the state only what is to come, which is in no register file. -/
theorem unwritten_hardReset (s : State) : Unwritten (hardReset s) :=
  ⟨unwritten_reset.tch, unwritten_reset.tpr, unwritten_reset.stk, unwritten_reset.scr, unwritten_reset.blk⟩

end Sys2Proof.Machine

open Sys2Proof Sys2Proof.Machine

/-- Settles O46: the step is `start` (`step_start`), which writes each register named, and no slot is written. -/
theorem startOfAThread : Obligations.StartOfAThread := by
  unfold Obligations.StartOfAThread
  intro s a rest hi hs
  refine ⟨_, step_start hi hs, ?_⟩
  have hslots := (unwritten_start a { s with inputs := rest }).slotGet?_eq_none
  exact ⟨rfl, rfl, rfl, rfl, rfl, rfl, rfl, rfl, rfl, rfl, rfl, rfl, rfl, rfl, rfl, rfl, hslots⟩

/-- Settles O47, by the case of a running thread in the host's turn. -/
theorem startWhileBusyRefused : Obligations.StartWhileBusyRefused := by
  unfold Obligations.StartWhileBusyRefused
  intro s a rest hi hs
  exact step_start_busy hi hs

/-- Settles O49: the values of `State.reset`, and that it has no slot written. -/
theorem resetState : Obligations.ResetState := by
  unfold Obligations.ResetState
  obtain ⟨htch, htpr, hstk, hscr, hblk⟩ := unwritten_reset
  exact ⟨rfl, rfl, rfl, rfl, rfl, rfl, htch, htpr, hstk, hscr, hblk⟩

/-- Settles O48: the step is `hardReset` in every phase, and its registers are those of `State.reset` (O49). -/
theorem hardwareReset : Obligations.HardwareReset := by
  unfold Obligations.HardwareReset
  intro s rest hi
  obtain ⟨hphase, -, hcause, hsp, hclear, hout, -⟩ := resetState
  exact ⟨_, step_hardReset hi, hphase, hcause, hsp, hclear, hout, rfl, (unwritten_hardReset _).slotGet?_eq_none⟩

end
